-- ==== Sys2Proof/Word.lean ====
section
/-! DEFINITION. The word types of the block (spec/00_scope.md R6, R7): every value is unsigned. -/

namespace Sys2Proof

/-- `WIDTH` = 64: value, modulus, quotient, remainder, and every register (R6, R20). -/
abbrev Word := BitVec 64

/-- `CNTW` = 65: a code length or a bit count (R6). -/
abbrev Count := BitVec 65

/-- `ERRW` = 32: a collaborator's error code (R6). -/
abbrev IoCode := BitVec 32

/-- One byte lane of the bus (R64). -/
abbrev Byte := BitVec 8

end Sys2Proof
end

