-- ==== Sys2Proof/Config.lean ====
section
/-! DEFINITION. What this hardware fixes (spec/00_scope.md R6). The OPEN parameters are not here: BASE is the State field
`baseIndex` (log 1), and the collaborator's answers are the State lists `sinkAnswers` and `sourceAnswers` (log 4). -/

namespace Sys2Proof

/-- `ID_VALUE`: "GOLB", interface revision 1 (R6, R22). -/
def Config.idValue : Word := 0x0000_0001_474F_4C42#64

/-- The register window's size in bytes; BASE is a multiple of it (R60). -/
def Config.windowSize : Nat := 0x80

/-- The largest u64, 2^64 - 1 (R8, R192, R212). -/
def Config.maxWord : Nat := 2 ^ 64 - 1

end Sys2Proof
end

