-- ==== Sys2Proof/Syntax.lean ====
section
/-! DEFINITION. The commands of the block (spec/30_encoding.md R91), one constructor per row of spec/opcode_table.json. -/

namespace Sys2Proof

/-- ORD: the order of the bits of a multi-bit field on a port (R99). `be` is ORD = 0, `le` is ORD = 1. -/
inductive BitOrder where
  /-- Most significant bit first. -/
  | be
  /-- Least significant bit first. -/
  | le
  deriving DecidableEq, Repr

/-- A command. ORD is its only immediate operand (R96); it is legal, and without effect on the result, for the three
commands that use no port (R92). -/
inductive Instr where
  /-- OP = 1: the Golomb code length of X under modulus B (R160). -/
  | len (ord : BitOrder)
  /-- OP = 2: write the Golomb codeword of X under modulus B to the sink port (R170). -/
  | enc (ord : BitOrder)
  /-- OP = 3: read one Golomb codeword under modulus B from the source port (R190). -/
  | dec (ord : BitOrder)
  /-- OP = 4: the modulus that is optimal for the geometric parameter P (R210). -/
  | bofp (ord : BitOrder)
  /-- OP = 5: the geometric parameter of modulus B (R215). -/
  | pofb (ord : BitOrder)
  deriving DecidableEq, Repr

/-- The command's ORD field. -/
def Instr.ord : Instr → BitOrder
  | .len o => o
  | .enc o => o
  | .dec o => o
  | .bofp o => o
  | .pofb o => o

end Sys2Proof
end

