-- ==== Sys2Proof/WellFormed.lean ====
section
/-! DEFINITION. What the spec accepts: a legal command word (spec/30_encoding.md R94) and an accepted bus access
(spec/20_memory.md R63). A term of `Instr` carries only ORD, which has two values, so no ill-formed term of it exists; what can
be ill-formed is the word on the bus and the access that carries it. -/

namespace Sys2Proof

/-- R94, first clause: OP is one of 1 to 5. -/
def opLegal (w : Word) : Bool := 1 ≤ w.toNat % 2 ^ 4 && w.toNat % 2 ^ 4 ≤ 5

/-- R94, second clause: RSV1 = CMD[7:4] is 0. -/
def rsv1Zero (w : Word) : Bool := w.toNat / 2 ^ 4 % 2 ^ 4 == 0

/-- R94, third clause: RSV2 = CMD[63:9] is 0. -/
def rsv2Zero (w : Word) : Bool := w.toNat / 2 ^ 9 == 0

/-- `Legal(w)` of R94. -/
def legalWord (w : Word) : Bool := opLegal w && rsv1Zero w && rsv2Zero w

/-- R63: the width and the offset of an access that the window accepts. -/
def accessWellFormed (width off : Nat) : Bool := width == 8 && off % 8 == 0

/-- Every command term is well-formed: its one operand is a `BitOrder` (R92, R96). -/
def Instr.wf : Instr → Bool
  | .len _ => true
  | .enc _ => true
  | .dec _ => true
  | .bofp _ => true
  | .pofb _ => true

end Sys2Proof
end

