-- ==== Sys2Proof/Decode.lean ====
section
/-! DEFINITION. The decoder of the command word, total on any word and on any bytes, and the encoder
(spec/30_encoding.md R90, R91, R94, R108). -/

namespace Sys2Proof

/-- OP = CMD[3:0] (R90). -/
def cmdOp (w : Word) : BitVec 4 := w.extractLsb' 0 4

/-- RSV1 = CMD[7:4] (R90). -/
def cmdRsv1 (w : Word) : BitVec 4 := w.extractLsb' 4 4

/-- ORD = CMD[8]: 0 is BE and 1 is LE (R90). -/
def cmdOrd (w : Word) : BitOrder := bif w.getLsbD 8 then .le else .be

/-- RSV2 = CMD[63:9] (R90). -/
def cmdRsv2 (w : Word) : BitVec 55 := w.extractLsb' 9 55

/-- The OP table of R91; OP 0 and 6 to 15 name no operation. -/
def Instr.ofOp (op : BitVec 4) (o : BitOrder) : Option Instr :=
  match op.toNat with
  | 1 => some (.len o)
  | 2 => some (.enc o)
  | 3 => some (.dec o)
  | 4 => some (.bofp o)
  | 5 => some (.pofb o)
  | _ => none

/-- Why a word, or a byte sequence, is no command. The hardware gives ILLEGAL_CMD for each of the first three (R231). -/
inductive DecodeError where
  /-- A bit of CMD[7:4] is set. -/
  | reservedBits1
  /-- A bit of CMD[63:9] is set. -/
  | reservedBits2
  /-- OP is 0 or 6 to 15. -/
  | reservedOp (op : BitVec 4)
  /-- Not the eight bytes of one CMD write (R63, R90). -/
  | notEightBytes (n : Nat)
  deriving DecidableEq, Repr

/-- The decoder of a CMD word (R90, R91, R94). -/
def decode (w : Word) : Except DecodeError Instr :=
  if cmdRsv1 w ≠ 0 then .error .reservedBits1
  else if cmdRsv2 w ≠ 0 then .error .reservedBits2
  else
    match Instr.ofOp (cmdOp w) (cmdOrd w) with
    | some i => .ok i
    | none => .error (.reservedOp (cmdOp w))

/-- The word on little-endian byte lanes: byte `i` carries bits `[8i+7 : 8i]` (R64). -/
def wordOfBytes : List Byte → Nat
  | [] => 0
  | c :: cs => c.toNat + 2 ^ 8 * wordOfBytes cs

/-- The decoder on the byte lanes of a CMD write, the lowest address first (R64); total on any bytes. -/
def decodeBytes (bs : List Byte) : Except DecodeError Instr :=
  if bs.length = 8 then decode (BitVec.ofNat 64 (wordOfBytes bs)) else .error (.notEightBytes bs.length)

/-- The OP number of a command (R91). -/
def Instr.op : Instr → BitVec 4
  | .len _ => 1
  | .enc _ => 2
  | .dec _ => 3
  | .bofp _ => 4
  | .pofb _ => 5

/-- The ORD bit (R90). -/
def BitOrder.bit : BitOrder → BitVec 1
  | .be => 0
  | .le => 1

/-- The CMD word of a command: RSV2, ORD, RSV1, OP from the high end (R90, R108). -/
def encode (i : Instr) : Word := 0#55 ++ i.ord.bit ++ 0#4 ++ i.op

/-- Byte `i` of a word on the little-endian byte lanes (R64). -/
def byteLane (w : Word) (i : Nat) : Byte := w.extractLsb' (8 * i) 8

/-- The eight byte lanes of a word, the lowest address first (R64). -/
def bytesOfWord (w : Word) : List Byte := (List.range 8).map (byteLane w)

/-- The host's question: the command the decoder reads from a table word of `nbits` bits. A command is one 64-bit word, so the
bits above `nbits` are 0, and a number that does not fit 64 bits is no command. -/
def decodeTableWord (nbits w : Nat) : Option Instr :=
  let v := w % 2 ^ nbits
  if v < 2 ^ 64 then
    match decodeBytes (bytesOfWord (BitVec.ofNat 64 v)) with
    | .ok i => some i
    | .error _ => none
  else none

end Sys2Proof
end

