-- ==== Sys2Proof/Machine/State.lean ====
section
/-! DEFINITION. The state of the block and of what surrounds it (spec/10_state.md), the state after reset, and the reasons a
step can stop. -/

namespace Sys2Proof.Machine

/-- A bit sequence in stream order (R9), written as a run of `zeros` 0 bits and then `tail`: a unary code can be 2^64 bits long
(R104), and its run of zeros is never written out. -/
structure BitSeq where
  zeros : Nat
  tail : List Bool
  deriving DecidableEq, Repr

/-- The phase of the command sequencer (R35). -/
inductive Phase where
  /-- No command running. -/
  | idle
  /-- CALC: a len, bofp or pofb computing. -/
  | calculating
  /-- An enc sending `s`; `i` of its bits have been answered OK. -/
  | encSend (s : BitSeq) (i : Nat)
  /-- A dec in the unary part; `qc` 0 bits read. -/
  | decU (qc : Nat)
  /-- A dec in the prefix: the quotient, the prefix bits read, the prefix so far. -/
  | decP (q j acc : Nat)
  /-- A dec before the extra bit: the quotient, the full prefix. -/
  | decX (q acc : Nat)
  deriving DecidableEq, Repr

/-- The error kinds of R230. Codes 6 to 15 are never written, so there is no constructor for them. -/
inductive ErrKind where
  | ok | illegalCmd | invalidModulus | invalidParameter | ioError | decOverflow
  deriving DecidableEq, Repr

/-- STATUS (R24), by its fields: the block alone writes it, and a reserved bit reads as 0 always. -/
structure Status where
  busy : Bool
  done : Bool
  rej : Bool
  n64 : Bool
  sat : Bool
  err : ErrKind
  lastOp : BitVec 4
  lastOrd : BitOrder
  deriving DecidableEq, Repr

/-- The registers of the window (R20). -/
inductive Reg where
  | id | cmd | status | x | b | p | result | nbits | q | r | ioerr
  deriving DecidableEq, Repr

/-- The sink's answer to one transfer (R40). -/
inductive SinkAnswer where
  | ok
  | err (e : IoCode)
  deriving DecidableEq, Repr

/-- The source's answer to one transfer (R41). -/
inductive SourceAnswer where
  | ok (bit : Bool)
  | err (e : IoCode)
  deriving DecidableEq, Repr

/-- A bus read, or a bus write with its data. -/
inductive AccessKind where
  | read
  | write (data : Word)
  deriving DecidableEq, Repr

/-- One host bus access (R10, R60): a bus address and a width in bytes. -/
structure BusAccess where
  addr : Nat
  width : Nat
  kind : AccessKind
  deriving DecidableEq, Repr

/-- What the block answers to a bus access (R60, R63). -/
inductive BusResponse where
  /-- An accepted read. -/
  | readData (v : Word)
  /-- An accepted write. -/
  | writeDone
  /-- A refused access: the bus error and the read data that goes with it. -/
  | busError (v : Word)
  /-- An address outside the window: the block does not answer. -/
  | notDecoded
  deriving DecidableEq, Repr

/-- A move of one of the four agents (R69, R272, R279). -/
inductive Move where
  /-- The block takes the step it can take: a CALC completion, or the next transfer if its answer has come (R272 (b), (c)). -/
  | block
  /-- The host makes a bus access. -/
  | bus (a : BusAccess)
  /-- The host's `wait` loop: read STATUS until BUSY = 0 (R109). -/
  | poll
  /-- The platform asserts the reset input (R260, R261). -/
  | assertReset
  /-- The platform releases the reset input (R260). -/
  | releaseReset
  /-- The collaborator answers a transfer that a reset withdrew (R261). -/
  | lateAnswer
  deriving DecidableEq, Repr

/-- What the outside of the block sees: bus responses, and transfers with their `ord` sideband and their answer. -/
inductive Event where
  | bus (a : BusAccess) (resp : BusResponse)
  | sink (bit : Bool) (ord : BitOrder) (a : SinkAnswer)
  | source (ord : BitOrder) (a : SourceAnswer)
  deriving DecidableEq, Repr

/-- The whole state. INVENTORY.md lists every field with its rule and its reset value. -/
structure State where
  status : Status
  x : Word
  b : Word
  p : Word
  result : Word
  nbits : Word
  q : Word
  r : Word
  ioerr : Word
  lx : Word
  lb : Word
  lp : Word
  lop : BitVec 4
  lord : BitOrder
  phase : Phase
  cnt : Count
  /-- The level of the hardware reset input (R260). -/
  resetAsserted : Bool
  /-- The OPEN parameter BASE, as BASE / 0x80 (R60); no step changes it (log 1). -/
  baseIndex : Nat
  /-- MODEL'S OWN: the agents' moves to come, the next first (log 3). -/
  moves : List Move
  /-- MODEL'S OWN: the sink's answers to come, the next first; when it is empty the sink is silent (log 4). -/
  sinkAnswers : List SinkAnswer
  /-- MODEL'S OWN: the source's answers to come, the next first; when it is empty the source is silent (log 4). -/
  sourceAnswers : List SourceAnswer
  /-- MODEL'S OWN: what the outside has seen, the latest first (log 5). No step reads it. -/
  trace : List Event
  deriving DecidableEq, Repr

/-- Why the machine stops. No error of the spec is here: each of those is a completion, hence a next state (R230, R241). -/
inductive Fault where
  /-- Raised by a command's meaning, and by the block's own step, when STATUS.BUSY is 1 but the phase and the latches are none
  that R35 gives a running command. Safe: the run stops, and no state with the invariant of Safety.lean raises it (log 7). -/
  | sequencer
  deriving DecidableEq, Repr

/-- Why an instruction has no meaning. -/
inductive Refusal where
  /-- Raised by an arm of `exec` whose instruction is not modelled yet; safe. No arm does so now. -/
  | notModelled (mnemonic : String)
  deriving DecidableEq, Repr

/-- The machine's outcomes. -/
abbrev Result := Host.Outcome State Fault Refusal

/-- STATUS after reset: all fields 0 (R20, R24, R260). -/
def Status.reset : Status where
  busy := false
  done := false
  rej := false
  n64 := false
  sat := false
  err := .ok
  lastOp := 0
  lastOrd := .be

/-- The machine right after reset (R20, R260, R263): every register 0 but ID, which is hard-wired, phase IDLE, latches and CNT
0, reset released. The values of the model's own fields and of `baseIndex` are design choices (logs 1 to 5). -/
def State.reset : State where
  status := Status.reset
  x := 0
  b := 0
  p := 0
  result := 0
  nbits := 0
  q := 0
  r := 0
  ioerr := 0
  lx := 0
  lb := 0
  lp := 0
  lop := 0
  lord := .be
  phase := .idle
  cnt := 0
  resetAsserted := false
  baseIndex := 0
  moves := []
  sinkAnswers := []
  sourceAnswers := []
  trace := []

end Sys2Proof.Machine
end

