-- ==== Sys2Proof/Machine/Flags.lean ====
section
/-! DEFINITION. STATUS, the block's only flag register (spec/10_state.md R24 to R31, R37): its word, and the fields written at
acceptance, at completion, and by a dropped CMD write. -/

namespace Sys2Proof.Machine

/-- The 4-bit ERR code of an error kind (R30, R230). -/
def ErrKind.code : ErrKind → BitVec 4
  | .ok => 0
  | .illegalCmd => 1
  | .invalidModulus => 2
  | .invalidParameter => 3
  | .ioError => 4
  | .decOverflow => 5

/-- The 64 bits a read of STATUS returns, from bit 63 down (R24). -/
def Status.word (f : Status) : Word :=
  0#43 ++ f.lastOrd.bit ++ f.lastOp ++ 0#4 ++ f.err.code ++ 0#3
    ++ BitVec.ofBool f.sat ++ BitVec.ofBool f.n64 ++ BitVec.ofBool f.rej ++ BitVec.ofBool f.done ++ BitVec.ofBool f.busy

/-- STATUS at the acceptance of the CMD word `w` (R93): ERR, N64 and SAT keep the last completion's values. -/
def Status.accept (w : Word) (f : Status) : Status :=
  { f with busy := true, done := false, rej := false, lastOp := cmdOp w, lastOrd := cmdOrd w }

/-- STATUS at a completion (R235, R236): REJ, LASTOP and LASTORD are kept. -/
def Status.complete (n64 sat : Bool) (e : ErrKind) (f : Status) : Status :=
  { f with busy := false, done := true, n64 := n64, sat := sat, err := e }

/-- STATUS when a CMD write is dropped (R27, R270). -/
def Status.reject (f : Status) : Status := { f with rej := true }

end Sys2Proof.Machine
end

