-- ==== Sys2Proof/Machine/Subcodes.lean ====
section
/-! DEFINITION. The sub-codes: the splitter, the length units, the writers' bit sequences, the decoder's bound
(spec/40_subcodes.md R130 to R135, spec/30_encoding.md R98 to R105). Arithmetic is on unbounded naturals (R8). -/

namespace Sys2Proof.Machine

/-! ## Bit sequences (R9) -/

/-- The sequence written out, in stream order. -/
def BitSeq.toList (s : BitSeq) : List Bool := List.replicate s.zeros false ++ s.tail

/-- `|s|`. -/
def BitSeq.length (s : BitSeq) : Nat := s.zeros + s.tail.length

/-- `s[i]`, the `(i+1)`-th bit in stream order; none from `|s|` on. -/
def BitSeq.bit? (s : BitSeq) (i : Nat) : Option Bool :=
  if i < s.zeros then some false else s.tail[i - s.zeros]?

/-- `s ++ t` for a list `t`. -/
def BitSeq.append (s : BitSeq) (t : List Bool) : BitSeq := { s with tail := s.tail ++ t }

/-! ## Splitter and length units -/

/-- `Split(x, b)`: quotient and remainder (R130). -/
def split (x b : Nat) : Nat × Nat := (x / b, x % b)

/-- `ilog2(m)`: the largest `k` with `2^k <= m` (R8). -/
def ilog2 (m : Nat) : Nat := Nat.log2 m

/-- The `k` of `MinBinParams(m)` (R132). -/
def minBinK (m : Nat) : Nat := ilog2 m

/-- The `u` of `MinBinParams(m)`: the size of the short sub-range (R132). -/
def minBinU (m : Nat) : Nat := 2 ^ (minBinK m + 1) - m

/-- `LenUnary(q)` (R131). -/
def lenUnary (q : Nat) : Nat := q + 1

/-- `LenMinBin(r, m)` (R133). -/
def lenMinBin (r m : Nat) : Nat := minBinK m + (if minBinU m ≤ r then 1 else 0)

/-- `len_golomb(x, b)` (R104, R160). -/
def golombLen (x b : Nat) : Nat := lenUnary (split x b).1 + lenMinBin (split x b).2 b

/-! ## Writers -/

/-- `[v[0], ..., v[n-1]]`. -/
def lowBits (v : Nat) : Nat → List Bool
  | 0 => []
  | n + 1 => lowBits v n ++ [v.testBit n]

/-- `FieldBits(v, n, ord)`: most significant bit first for BE, least significant first for LE (R99). -/
def fieldBits (v n : Nat) : BitOrder → List Bool
  | .be => (lowBits v n).reverse
  | .le => lowBits v n

/-- `UnaryBits(q)`: `q` zeros and a one (R100, R134). -/
def unaryBits (q : Nat) : BitSeq where
  zeros := q
  tail := [true]

/-- `MinBinBits(r, m, ord)`: a short `r` as a `k`-bit field; a long one as `w = r + u`, a `k`-bit prefix and then its last bit
(R101, R134). -/
def minBinBits (r m : Nat) (ord : BitOrder) : List Bool :=
  if r < minBinU m then fieldBits r (minBinK m) ord
  else fieldBits ((r + minBinU m) / 2) (minBinK m) ord ++ fieldBits ((r + minBinU m) % 2) 1 ord

/-- `GolombBits(x, b, ord)`: the concatenation unit (R103, R135). -/
def golombBits (x b : Nat) (ord : BitOrder) : BitSeq :=
  (unaryBits (split x b).1).append (minBinBits (split x b).2 b ord)

/-! ## Reader side -/

/-- `QLIM(b)`, the largest quotient the decoder accepts (R192). -/
def qlim (b : Nat) : Nat := Config.maxWord / b

/-- The prefix after one more bit: BE shifts it in at the low end, LE places it at `2^j` (R138). -/
def prefixStep (ord : BitOrder) (j acc : Nat) (bit : Bool) : Nat :=
  match ord with
  | .be => 2 * acc + bit.toNat
  | .le => acc + bit.toNat * 2 ^ j

end Sys2Proof.Machine
end

