-- ==== Sys2Proof/Machine/Operands.lean ====
section
/-! DEFINITION. The operands of a command: the latches (spec/30_encoding.md R96), the binary64 reading of LP (R13, R32, R97),
and the operand checks at acceptance (spec/60_exceptions.md R232 to R234). -/

namespace Sys2Proof.Machine

/-! ## binary64 (R32: sign [63], biased exponent [62:52], fraction [51:0]) -/

/-- The biased exponent field. -/
def expField (w : Word) : Nat := (w.extractLsb' 52 11).toNat

/-- The fraction field. -/
def fracField (w : Word) : Nat := (w.extractLsb' 0 52).toNat

/-- The significand as an integer: the fraction of a subnormal, the fraction with its hidden bit of a normal value. -/
def significand (w : Word) : Nat :=
  if expField w = 0 then fracField w else 2 ^ 52 + fracField w

/-- A finite value below 2 in magnitude is its significand over `2 ^ scale`. -/
def scale (w : Word) : Nat := if expField w = 0 then 1074 else 1075 - expField w

/-- `real(P)` of R13, for a finite encoding. -/
def realOf (w : Word) : ℚ :=
  (if w.getLsbD 63 then -1 else 1) * significand w * (2 : ℚ) ^ ((max (expField w) 1 : ℤ) - 1075)

/-- The encoding is of a finite value: neither an infinity nor a NaN. -/
def isFinite (w : Word) : Bool := expField w < 2047

/-- `InOpenUnit(P)` (R97). -/
def inOpenUnit (w : Word) : Bool := !w.getLsbD 63 && w != 0 && decide (expField w < 0x3FF)

/-! ## Checks -/

/-- The check of R232, for the commands that use `b`. -/
def checkModulus (s : State) : Option ErrKind := if s.lb = 0 then some .invalidModulus else none

/-- The check of R233, for the command that uses `p`. -/
def checkParameter (s : State) : Option ErrKind := if inOpenUnit s.lp then none else some .invalidParameter

/-! ## Latched operands as naturals (R96: never extended, scaled or shifted) -/

/-- The value `x`. -/
def State.xVal (s : State) : Nat := s.lx.toNat

/-- The modulus `b`. -/
def State.bVal (s : State) : Nat := s.lb.toNat

end Sys2Proof.Machine
end

