-- ==== Sys2Proof/Machine/Ops.lean ====
section
/-! DEFINITION. The shared operations: registers of the window, acceptance, the two ends of a command, the two ports, the
hardware reset. -/

namespace Sys2Proof.Machine

/-! ## The register window (R20, R60, R63) -/

/-- A register's byte offset (R20). -/
def Reg.offset : Reg → Nat
  | .id => 0x00
  | .cmd => 0x08
  | .status => 0x10
  | .x => 0x18
  | .b => 0x20
  | .p => 0x28
  | .result => 0x30
  | .nbits => 0x38
  | .q => 0x40
  | .r => 0x48
  | .ioerr => 0x50

/-- The register at an offset; none at a reserved offset (R20). -/
def Reg.ofOffset (off : Nat) : Option Reg :=
  match off with
  | 0x00 => some .id
  | 0x08 => some .cmd
  | 0x10 => some .status
  | 0x18 => some .x
  | 0x20 => some .b
  | 0x28 => some .p
  | 0x30 => some .result
  | 0x38 => some .nbits
  | 0x40 => some .q
  | 0x48 => some .r
  | 0x50 => some .ioerr
  | _ => none

/-- What a register reads as: ID is hard-wired and CMD reads 0 (R20, R22, R23). -/
def readReg (g : Reg) (s : State) : Word :=
  match g with
  | .id => Config.idValue
  | .cmd => 0
  | .status => s.status.word
  | .x => s.x
  | .b => s.b
  | .p => s.p
  | .result => s.result
  | .nbits => s.nbits
  | .q => s.q
  | .r => s.r
  | .ioerr => s.ioerr

/-- What an accepted read at an offset returns: reserved offsets read as 0 (R63). -/
def readOffset (off : Nat) (s : State) : Word :=
  match Reg.ofOffset off with
  | some g => readReg g s
  | none => 0

/-- BASE, a multiple of 0x80 (R60). -/
def State.base (s : State) : Nat := Config.windowSize * s.baseIndex

/-- The window offset a bus address selects; none outside the window (R60). -/
def windowOffset (s : State) (addr : Nat) : Option Nat :=
  if s.base ≤ addr ∧ addr < s.base + Config.windowSize then some (addr - s.base) else none

/-- The byte that the lane at a window offset carries (R64). -/
def windowByte (s : State) (off : Nat) : Byte := byteLane (readOffset (off / 8 * 8) s) (off % 8)

/-- Record what the outside sees. -/
def State.observe (e : Event) (s : State) : State := { s with trace := e :: s.trace }

/-! ## Acceptance and the ends of a command -/

/-- The unconditional part of accepting the CMD word `w` (R93, first three lines; R34). -/
def latch (w : Word) (s : State) : State :=
  { s with
    status := s.status.accept w
    lx := s.x
    lb := s.b
    lp := s.p
    lop := cmdOp w
    lord := cmdOrd w
    cnt := 0 }

/-- `complete(res, n, q, r, sat)`: the successful end of a command, one step (R235). -/
def complete (res : Word) (n : Count) (q r : Word) (sat : Bool) (s : State) : State :=
  { s with
    result := res
    nbits := n.setWidth 64
    q := q
    r := r
    ioerr := 0
    status := s.status.complete (n.getLsbD 64) sat .ok
    phase := .idle }

/-- IOERR at a failed end: the collaborator's code for an IO_ERROR, else 0 (R33, R236). -/
def ioerrOf (k : ErrKind) (e : IoCode) : Word := if k = .ioError then e.setWidth 64 else 0

/-- `raise E(e, q, r)`: the failed end of a command, one step; this block's form of taking an exception (R236, R241). -/
def raiseError (k : ErrKind) (e : IoCode) (q r : Word) (s : State) : State :=
  { s with
    result := 0
    nbits := s.cnt.setWidth 64
    q := q
    r := r
    ioerr := ioerrOf k e
    status := s.status.complete (s.cnt.getLsbD 64) false k
    phase := .idle }

/-- A CMD write while BUSY = 1: dropped, and REJ is set (R27, R270). -/
def dropCommand (s : State) : State := { s with status := s.status.reject }

/-- The acceptance of a CMD word that is not legal (R93, R231). -/
def acceptIllegal (w : Word) (s : State) : State := raiseError .illegalCmd 0 0 0 (latch w s)

/-- The acceptance of a legal command: latch, check the operands, enter the first phase (R93). -/
def accept (i : Instr) (check : State → Option ErrKind) (first : State → Phase) (s : State) : State :=
  match check (latch (encode i) s) with
  | some k => raiseError k 0 0 0 (latch (encode i) s)
  | none => { latch (encode i) s with phase := first (latch (encode i) s) }

/-- The command that runs, from the latches LOP and LORD (R34). -/
def State.latched (s : State) : Option Instr := Instr.ofOp s.lop s.lord

/-- The frame of every command's meaning (log 6). The block free: the command is accepted. The command itself running: its next
step, `run`. Another command running: the CMD write is dropped (R270). -/
def command (i : Instr) (check : State → Option ErrKind) (first : State → Phase) (run : State → Result) (s : State) :
    Result :=
  if s.status.busy = false then .next (accept i check first s)
  else if s.latched = some i then run s
  else .next (dropCommand s)

/-! ## The ports (R39 to R43) -/

/-- The transfer on the sink port: the bit offered and the `ord` sideband (R40, R43). -/
def sinkPort (s : State) : Option (Bool × BitOrder) :=
  match s.phase with
  | .encSend t i => (t.bit? i).map fun bit => (bit, s.lord)
  | _ => none

/-- The request on the source port: its `ord` sideband (R41, R43). -/
def sourcePort (s : State) : Option BitOrder :=
  match s.phase with
  | .decU _ => some s.lord
  | .decP _ _ _ => some s.lord
  | .decX _ _ => some s.lord
  | _ => none

/-- Take the sink's next answer to the bit offered (R11, R40). -/
def takeSink (bit : Bool) (a : SinkAnswer) (rest : List SinkAnswer) (s : State) : State :=
  { s with sinkAnswers := rest, trace := .sink bit s.lord a :: s.trace }

/-- Take the source's next answer (R11, R41). -/
def takeSource (a : SourceAnswer) (rest : List SourceAnswer) (s : State) : State :=
  { s with sourceAnswers := rest, trace := .source s.lord a :: s.trace }

/-- `CNT <- CNT + 1`: one more transfer answered OK (R35). -/
def countTransfer (s : State) : State := { s with cnt := s.cnt + 1 }

/-- A source transfer (R41): wait while there is no answer; end with IO_ERROR on ERR, with the quotient so far and R = 0; on
OK count the transfer and go on with its bit (R137 to R139, R237). -/
def sourceTransfer (q : Nat) (onBit : Bool → State → State) (s : State) : State :=
  match s.sourceAnswers with
  | [] => s
  | .err e :: rest => raiseError .ioError e (BitVec.ofNat 64 q) 0 (takeSource (.err e) rest s)
  | .ok bit :: rest => onBit bit (countTransfer (takeSource (.ok bit) rest s))

/-! ## Reset (R260, R261) -/

/-- The block's registers, latches, phase and count at their reset values; what surrounds the block is kept. -/
def resetBlock (s : State) : State :=
  { State.reset with
    resetAsserted := s.resetAsserted
    baseIndex := s.baseIndex
    moves := s.moves
    sinkAnswers := s.sinkAnswers
    sourceAnswers := s.sourceAnswers
    trace := s.trace }

/-- The reset input is asserted: a running command is abandoned and its transfer withdrawn (R261). -/
def assertReset (s : State) : State := { resetBlock s with resetAsserted := true }

/-- The reset input is released (R260); nothing happens if it was not asserted. -/
def releaseReset (s : State) : State :=
  if s.resetAsserted then { resetBlock s with resetAsserted := false } else s

end Sys2Proof.Machine
end

