-- ==== Sys2Proof/Machine/Dec.lean ====
section
/-! DEFINITION. `dec`, the decoder (spec/43_decoder.md R190; the steps are spec/40_subcodes.md R137 to R140). -/

namespace Sys2Proof.Machine

/-- `Recombine(q, r)`: the value if it is a u64, else DEC_OVERFLOW (R140). -/
def recombine (q r : Nat) (s : State) : State :=
  if q * s.bVal + r ≤ Config.maxWord then
    complete (BitVec.ofNat 64 (q * s.bVal + r)) s.cnt (BitVec.ofNat 64 q) (BitVec.ofNat 64 r) false s
  else raiseError .decOverflow 0 (BitVec.ofNat 64 q) (BitVec.ofNat 64 r) s

/-- The unary reader's bit (R137): the terminator ends the part; one 0 bit too many is DEC_OVERFLOW, with Q saturated. -/
def decUnaryBit (qc : Nat) (bit : Bool) (s : State) : State :=
  if bit then
    if minBinK s.bVal = 0 then recombine qc 0 s else { s with phase := .decP qc 0 0 }
  else if qlim s.bVal < qc + 1 then
    raiseError .decOverflow 0 (BitVec.ofNat 64 (min (qc + 1) Config.maxWord)) 0 s
  else { s with phase := .decU (qc + 1) }

/-- The prefix reader's bit (R138). -/
def decPrefixBit (q j acc : Nat) (bit : Bool) (s : State) : State :=
  if j + 1 < minBinK s.bVal then { s with phase := .decP q (j + 1) (prefixStep s.lord j acc bit) }
  else if prefixStep s.lord j acc bit < minBinU s.bVal then recombine q (prefixStep s.lord j acc bit) s
  else { s with phase := .decX q (prefixStep s.lord j acc bit) }

/-- The extra bit of a long codeword (R139). -/
def decExtraBit (q acc : Nat) (bit : Bool) (s : State) : State :=
  recombine q (2 * acc + bit.toNat - minBinU s.bVal) s

/-- The next step of a running `dec`. -/
def decRun (s : State) : Result :=
  match s.phase with
  | .decU qc => .next (sourceTransfer qc (decUnaryBit qc) s)
  | .decP q j acc => .next (sourceTransfer q (decPrefixBit q j acc) s)
  | .decX q acc => .next (sourceTransfer q (decExtraBit q acc) s)
  | _ => .fault .sequencer

/-- `dec` (R190). -/
def execDec (ord : BitOrder) (s : State) : Result := command (.dec ord) checkModulus (fun _ => .decU 0) decRun s

end Sys2Proof.Machine
end

