-- ==== Sys2Proof/Machine/Enc.lean ====
section
/-! DEFINITION. `enc`, the encoder (spec/42_encoder.md R170; the transfer step is spec/40_subcodes.md R136). -/

namespace Sys2Proof.Machine

/-- The quotient that an `enc` reports (R136). -/
def encQ (s : State) : Word := BitVec.ofNat 64 (split s.xVal s.bVal).1

/-- The remainder that an `enc` reports (R136). -/
def encR (s : State) : Word := BitVec.ofNat 64 (split s.xVal s.bVal).2

/-- After an OK for bit `i` of `t`: the next bit, or the end (R136). -/
def encAdvance (t : BitSeq) (i : Nat) (s : State) : State :=
  if i + 1 < t.length then { s with phase := .encSend t (i + 1) }
  else complete (s.cnt.setWidth 64) s.cnt (encQ s) (encR s) false s

/-- One transfer of an `enc` that offers `bit`, bit `i` of `t` (R136): it waits while the sink is silent. -/
def encTransfer (t : BitSeq) (i : Nat) (bit : Bool) (s : State) : State :=
  match s.sinkAnswers with
  | [] => s
  | .ok :: rest => encAdvance t i (countTransfer (takeSink bit .ok rest s))
  | .err e :: rest => raiseError .ioError e (encQ s) (encR s) (takeSink bit (.err e) rest s)

/-- The next step of a running `enc`. -/
def encRun (s : State) : Result :=
  match s.phase with
  | .encSend t i =>
    match t.bit? i with
    | some bit => .next (encTransfer t i bit s)
    | none => .fault .sequencer
  | _ => .fault .sequencer

/-- The first phase of an `enc`: the codeword's bits and none sent (R93, R170). -/
def encFirst (s : State) : Phase := .encSend (golombBits s.xVal s.bVal s.lord) 0

/-- `enc` (R170). -/
def execEnc (ord : BitOrder) (s : State) : Result := command (.enc ord) checkModulus encFirst encRun s

end Sys2Proof.Machine
end

