-- ==== Sys2Proof/Machine/Len.lean ====
section
/-! DEFINITION. `len`, the length calculator (spec/41_length.md R160 to R162). -/

namespace Sys2Proof.Machine

/-- The CALC step of `len` (R160): the length in 65 bits, with the quotient and the remainder. -/
def lenCalc (s : State) : State :=
  let n : Count := BitVec.ofNat 65 (golombLen s.xVal s.bVal)
  complete (n.setWidth 64) n (BitVec.ofNat 64 (split s.xVal s.bVal).1) (BitVec.ofNat 64 (split s.xVal s.bVal).2) false s

/-- The one step of a running `len` (R162). -/
def lenRun (s : State) : Result :=
  match s.phase with
  | .calculating => .next (lenCalc s)
  | _ => .fault .sequencer

/-- `len` (R160). -/
def execLen (ord : BitOrder) (s : State) : Result := command (.len ord) checkModulus (fun _ => .calculating) lenRun s

end Sys2Proof.Machine
end

