-- ==== Sys2Proof/Machine/Numeric.lean ====
section
/-! DEFINITION. The exact arithmetic of the two parameter mappings (spec/44_param_mapping.md). Each asks one exact question
about a power of a rational; it is answered by rounded-down and rounded-up fixed-point powers when those already agree, and by
the exact integers otherwise, so the answer is exact in every case (Laws/Numeric.lean) and the usual case is quick. -/

namespace Sys2Proof.Machine

/-- `ceil(n / d)`. -/
def ceilDiv (n d : Nat) : Nat := (n + (d - 1)) / d

/-- A lower bound of `(t / 2^k) ^ n`, scaled by `2^k`, for `n < 2^fuel`: square and multiply, rounded down. -/
def powDown (k t : Nat) : Nat → Nat → Nat
  | 0, _ => 2 ^ k
  | fuel + 1, n =>
    if n % 2 = 1 then powDown k t fuel (n / 2) ^ 2 / 2 ^ k * t / 2 ^ k
    else powDown k t fuel (n / 2) ^ 2 / 2 ^ k

/-- An upper bound of `(t / 2^k) ^ n`, scaled by `2^k`, for `n < 2^fuel`: square and multiply, rounded up. -/
def powUp (k t : Nat) : Nat → Nat → Nat
  | 0, _ => 2 ^ k
  | fuel + 1, n =>
    if n % 2 = 1 then ceilDiv (ceilDiv (powUp k t fuel (n / 2) ^ 2) (2 ^ k) * t) (2 ^ k)
    else ceilDiv (powUp k t fuel (n / 2) ^ 2) (2 ^ k)

/-- The first answer among the approximations at the precisions `ks`, else the exact one. -/
def firstDecided (approx : Nat → Option Bool) (exact : Unit → Bool) : List Nat → Bool
  | [] => exact ()
  | k :: ks =>
    match approx k with
    | some c => c
    | none => firstDecided approx exact ks

/-- The precisions tried, in bits; no result depends on them. -/
def precisions : List Nat := [256, 1024, 4096]

/-- The largest `c < 2^bits` above `acc`'s bits on which `test` fails, for a test that fails up to some point and holds from
there on; built from the highest bit down. -/
def largestFailing (test : Nat → Bool) : Nat → Nat → Nat
  | 0, acc => acc
  | bits + 1, acc =>
    if test (acc + 2 ^ bits) then largestFailing test bits acc
    else largestFailing test bits (acc + 2 ^ bits)

/-! ## bofp: the least `n >= 1` with `(2 - p) * (1 - p)^n < 1` (R214), for `p = m / 2^e` -/

/-- The test of R214 on integers. -/
def bofpExact (m e n : Nat) : Bool := decide ((2 ^ (e + 1) - m) * (2 ^ e - m) ^ n < 2 ^ (e * (n + 1)))

/-- The test of R214 with `k`-bit bounds of the power, when they decide it. -/
def bofpApprox (m e n k : Nat) : Option Bool :=
  if (2 ^ (e + 1) - m) * powUp k (ceilDiv ((2 ^ e - m) * 2 ^ k) (2 ^ e)) 64 n < 2 ^ (k + e) then some true
  else if 2 ^ (k + e) ≤ (2 ^ (e + 1) - m) * powDown k ((2 ^ e - m) * 2 ^ k / 2 ^ e) 64 n then some false
  else none

/-- The test of R214. -/
def bofpTest (m e n : Nat) : Bool := firstDecided (bofpApprox m e n) (fun _ => bofpExact m e n) precisions

/-- The largest `n < 2^64` that fails the test of R214: `ceil(v) - 1`, or 2^64 - 1 when `ceil(v)` is larger than that. -/
def bofpBelow (w : Word) : Nat := largestFailing (bofpTest (significand w) (scale w)) 64 0

/-- The modulus of parameter `p`, saturated (R210, R212). -/
def bofpValue (w : Word) : Word := BitVec.ofNat 64 (min (bofpBelow w + 1) Config.maxWord)

/-- Whether `bofp` saturates (R212). -/
def bofpSat (w : Word) : Bool := decide (Config.maxWord < bofpBelow w + 1)

/-! ## pofb: `RNE64(2^(-1/b))` (R215). The result lies in `[1/2, 1]`, where binary64 values are the multiples of 2^-53, so it
is `m / 2^53` for the largest `m` whose lower midpoint `(2m - 1) / 2^54` is below `2^(-1/b)`; no tie occurs (R216). -/

/-- `(h / 2^54)^b > 1/2` on integers. -/
def pofbExact (h b : Nat) : Bool := decide (2 ^ (54 * b) < 2 * h ^ b)

/-- The same with `k`-bit bounds of the power, when they decide it. -/
def pofbApprox (h b k : Nat) : Option Bool :=
  if 2 * powUp k (ceilDiv (h * 2 ^ k) (2 ^ 54)) 64 b ≤ 2 ^ k then some false
  else if 2 ^ k < 2 * powDown k (h * 2 ^ k / 2 ^ 54) 64 b then some true
  else none

/-- `h / 2^54 > 2^(-1/b)`; a value from 1 up is above it at once. -/
def pofbTest (b h : Nat) : Bool :=
  if 2 ^ 54 ≤ h then true else firstDecided (pofbApprox h b) (fun _ => pofbExact h b) precisions

/-- How many steps of 2^-53 the result lies above 1/2. -/
def pofbSteps (b : Nat) : Nat := largestFailing (fun d => pofbTest b (2 * (2 ^ 52 + d) - 1)) 53 0

/-- The binary64 encoding of `RNE64(2^(-1/b))`: the encodings from 1/2 to 1 are consecutive. -/
def pofbValue (b : Nat) : Word := BitVec.ofNat 64 (0x3FE0_0000_0000_0000 + pofbSteps b)

end Sys2Proof.Machine
end

