-- ==== Sys2Proof/Machine/Mapping.lean ====
section
/-! DEFINITION. `bofp` and `pofb`, the parameter mappings (spec/44_param_mapping.md R210, R215). -/

namespace Sys2Proof.Machine

/-- The CALC step of `bofp` (R210). -/
def bofpCalc (s : State) : State := complete (bofpValue s.lp) 0 0 0 (bofpSat s.lp) s

/-- The one step of a running `bofp` (R162). -/
def bofpRun (s : State) : Result :=
  match s.phase with
  | .calculating => .next (bofpCalc s)
  | _ => .fault .sequencer

/-- `bofp` (R210). -/
def execBofp (ord : BitOrder) (s : State) : Result := command (.bofp ord) checkParameter (fun _ => .calculating) bofpRun s

/-- The CALC step of `pofb` (R215). -/
def pofbCalc (s : State) : State := complete (pofbValue s.bVal) 0 0 0 false s

/-- The one step of a running `pofb` (R162). -/
def pofbRun (s : State) : Result :=
  match s.phase with
  | .calculating => .next (pofbCalc s)
  | _ => .fault .sequencer

/-- `pofb` (R215). -/
def execPofb (ord : BitOrder) (s : State) : Result := command (.pofb ord) checkModulus (fun _ => .calculating) pofbRun s

end Sys2Proof.Machine
end

