-- ==== Sys2Proof/Machine/Dispatch.lean ====
section
/-! DEFINITION. The meaning of every command, one arm each. -/

namespace Sys2Proof.Machine

/-- The next step of a command: its acceptance, or its next step if it is the one running (log 6). -/
def exec (i : Instr) (s : State) : Host.Outcome State Fault Refusal :=
  match i with
  | .len ord => Sys2Proof.Machine.execLen ord s
  | .enc ord => Sys2Proof.Machine.execEnc ord s
  | .dec ord => Sys2Proof.Machine.execDec ord s
  | .bofp ord => Sys2Proof.Machine.execBofp ord s
  | .pofb ord => Sys2Proof.Machine.execPofb ord s

end Sys2Proof.Machine
end

