-- ==== Sys2Proof/Machine/Bus.lean ====
section
/-! DEFINITION. The agents' moves: a host bus access (spec/20_memory.md R60 to R65), the host's `wait` loop
(spec/30_encoding.md R109), the block's own step (spec/70_reset_and_hazards.md R272), and the reset input (R260, R261). -/

namespace Sys2Proof.Machine

/-- A CMD write that takes effect (R93): dropped while BUSY = 1, else the acceptance of its command or of an illegal word. -/
def writeCmd (w : Word) (s : State) : Result :=
  if s.status.busy then .next (dropCommand s)
  else
    match decode w with
    | .ok i => exec i s
    | .error _ => .next (acceptIllegal w s)

/-- An accepted write at an offset (R63). While the reset input is asserted every register is held at its reset value (R260,
log 2). -/
def writeOffset (off : Nat) (v : Word) (s : State) : Result :=
  if s.resetAsserted then .next s
  else
    match Reg.ofOffset off with
    | some .x => .next { s with x := v }
    | some .b => .next { s with b := v }
    | some .p => .next { s with p := v }
    | some .cmd => writeCmd v s
    | _ => .next s

/-- A host bus access (R60, R63): outside the window the block does not answer; an access that is not an aligned 8-byte one gets
a bus error with read data 0 and no effect; else the register is read or written. -/
def busAccess (a : BusAccess) (s : State) : Result :=
  match windowOffset s a.addr with
  | none => .next (s.observe (.bus a .notDecoded))
  | some off =>
    if a.width = 8 ∧ off % 8 = 0 then
      match a.kind with
      | .read => .next (s.observe (.bus a (.readData (readOffset off s))))
      | .write v => writeOffset off v (s.observe (.bus a .writeDone))
    else .next (s.observe (.bus a (.busError 0)))

/-- The block's own step (R272 (b), (c)): with BUSY = 0 nothing (R252), else the next step of the latched command. -/
def blockStep (s : State) : Result :=
  if s.status.busy then
    match s.latched with
    | some i => exec i s
    | none => .fault .sequencer
  else .next s

/-- The bus access that reads a register of this block. -/
def readAccess (s : State) (g : Reg) : BusAccess := ⟨s.base + g.offset, 8, .read⟩

/-- The bus access that writes a register of this block. -/
def writeAccess (s : State) (g : Reg) (v : Word) : BusAccess := ⟨s.base + g.offset, 8, .write v⟩

/-- The outside's record of one read of STATUS. -/
def observeStatus (s : State) : State := s.observe (.bus (readAccess s .status) (.readData s.status.word))

/-- One turn of the `wait` loop (R109): read STATUS; while bit 0 is 1 the block takes its step and the loop goes on. -/
def pollStatus (s : State) : Result :=
  if s.status.word.getLsbD 0 then blockStep { observeStatus s with moves := .poll :: s.moves }
  else .next (observeStatus s)

/-- One move of one agent. -/
def doMove (m : Move) (s : State) : Result :=
  match m with
  | .block => blockStep s
  | .bus a => busAccess a s
  | .poll => pollStatus s
  | .assertReset => .next (assertReset s)
  | .releaseReset => .next (releaseReset s)
  | .lateAnswer => .next s

end Sys2Proof.Machine
end

