-- ==== Sys2Proof/Machine/Step.lean ====
section
/-! DEFINITION. One step of the machine. -/

namespace Sys2Proof.Machine

/-- One step: the next move of `moves`; when no move is left, the block's own step, so a CALC command always completes in the
end (R162, R277) and an idle block stays as it is (R252). -/
def step (s : State) : Host.Outcome State Fault Refusal :=
  match s.moves with
  | [] => blockStep s
  | m :: rest => doMove m { s with moves := rest }

/-- `s` made ready to run the command word `w` as its next step (log 8): the block fetches no instruction, a command is the
data of a CMD write (R75, R90). The reset input is released, the sequencer is idle, and the host's next move is the CMD write. In
a state that is idle and not held in reset, only `moves` changes. -/
def State.withFetchWord (s : State) (nbits w : Nat) : State :=
  { s with
    resetAsserted := false
    phase := .idle
    status := { s.status with busy := false }
    moves := .bus (writeAccess s .cmd (BitVec.ofNat 64 (w % 2 ^ nbits))) :: s.moves }

end Sys2Proof.Machine
end

