-- ==== Sys2Proof/Machine/HostProgram.lean ====
section
/-! DEFINITION. The host's notation (spec/30_encoding.md R108 to R110): the assembler's mnemonics, the two host operations, the
pseudo-instructions and the macros, each as the bus moves it stands for. It has no meaning of its own. -/

namespace Sys2Proof.Machine

/-- The assembler's mnemonics (R108); `enc` and `dec` with no suffix mean `.be`. -/
def mnemonics : List (String × Instr) :=
  [("len", .len .be), ("enc.be", .enc .be), ("enc.le", .enc .le), ("dec.be", .dec .be), ("dec.le", .dec .le),
   ("bofp", .bofp .be), ("pofb", .pofb .be), ("enc", .enc .be), ("dec", .dec .be)]

/-- `W(m)`: the CMD word of a mnemonic (R108, R109). -/
def assemble (m : String) : Option Word := (mnemonics.lookup m).map encode

/-- A host operation (R109). -/
inductive HostOp where
  /-- `st REG, v`. -/
  | st (g : Reg) (v : Word)
  /-- `ld REG`. -/
  | ld (g : Reg)
  /-- The pseudo-instruction `cmd m`. -/
  | cmd (i : Instr)
  /-- The pseudo-instruction `wait`. -/
  | wait
  deriving DecidableEq, Repr

/-- The move a host operation stands for, for the block of state `s` (R109). -/
def HostOp.move (s : State) : HostOp → Move
  | .st g v => .bus (writeAccess s g v)
  | .ld g => .bus (readAccess s g)
  | .cmd i => .bus (writeAccess s .cmd (encode i))
  | .wait => .poll

/-- The block of state `s` with a host program still to run. -/
def State.withProgram (s : State) (ops : List HostOp) : State := { s with moves := s.moves ++ ops.map (HostOp.move s) }

/-- `LEN x, b` (R110). -/
def macroLen (x b : Word) : List HostOp := [.st .x x, .st .b b, .cmd (.len .be), .wait, .ld .result]

/-- `ENC x, b, o` (R110). -/
def macroEnc (x b : Word) (o : BitOrder) : List HostOp :=
  [.st .x x, .st .b b, .cmd (.enc o), .wait, .ld .status, .ld .nbits]

/-- `DEC b, o` (R110). -/
def macroDec (b : Word) (o : BitOrder) : List HostOp := [.st .b b, .cmd (.dec o), .wait, .ld .status, .ld .result]

/-- `BOFP p` (R110). -/
def macroBofp (p : Word) : List HostOp := [.st .p p, .cmd (.bofp .be), .wait, .ld .result]

/-- `POFB b` (R110). -/
def macroPofb (b : Word) : List HostOp := [.st .b b, .cmd (.pofb .be), .wait, .ld .result]

end Sys2Proof.Machine
end

