-- ==== Sys2Proof/Safety.lean ====
section
/-! DEFINITION. What claims are stated in: whether the block is free or runs a command, several steps, and the invariant that
every step keeps. -/

namespace Sys2Proof.Machine

/-- No command runs: STATUS.BUSY = 0 (R25). -/
def State.free (s : State) : Prop := s.status.busy = false

/-- The block is busy with command `i` (R25, R34). -/
def State.running (i : Instr) (s : State) : Prop := s.status.busy = true ∧ s.latched = some i

/-- `n` steps, stopping at a fault or a refusal. -/
def run : Nat → State → Result
  | 0, s => .next s
  | n + 1, s =>
    match step s with
    | .next t => run n t
    | .fault e => .fault e
    | .refused e => .refused e

/-- The move makes a bus access of the host: one access, or a turn of its `wait` loop (R109). -/
def Move.isHost : Move → Bool
  | .block => false
  | .bus _ => true
  | .poll => true
  | .assertReset => false
  | .releaseReset => false
  | .lateAnswer => false

/-- A run is over (R278): the host has made its last access, the phase is IDLE, and no transfer is pending. Moves of the block,
of the reset input and of the collaborator may still come. -/
def State.over (s : State) : Prop :=
  (∀ m ∈ s.moves, m.isHost = false) ∧ s.phase = .idle ∧ sinkPort s = none ∧ sourcePort s = none

/-- The end state of a run that is over at `s` (R278): what each register of the window holds at that point. -/
def State.endState (s : State) (g : Reg) : Word := readReg g s

/-- The event is a transfer on the sink port. -/
def Event.isSink : Event → Bool
  | .bus _ _ => false
  | .sink _ _ _ => true
  | .source _ _ => false

/-- The event is a transfer on the source port. -/
def Event.isSource : Event → Bool
  | .bus _ _ => false
  | .sink _ _ _ => false
  | .source _ _ => true

/-- The move is one of the reset input (R260). -/
def Move.isReset : Move → Bool
  | .block => false
  | .bus _ => false
  | .poll => false
  | .assertReset => true
  | .releaseReset => true
  | .lateAnswer => false

/-- The next move is a host write to register `g` that the window accepts. -/
def State.nextWrites (s : State) (g : Reg) (v : Word) : Prop := s.moves.head? = some (.bus (writeAccess s g v))

/-- The next move is one of the reset input. -/
def State.nextResets (s : State) : Prop := ∃ m, s.moves.head? = some m ∧ m.isReset = true

/-- What the phase says of the latches, the count and BUSY (R34 to R36, R43, R93, R136 to R139). -/
def State.phaseInv (s : State) : Prop :=
  match s.phase with
  | .idle => s.status.busy = false
  | .calculating => s.status.busy = true ∧ s.cnt = 0 ∧
      ((s.lop = 1 ∧ s.lb ≠ 0) ∨ (s.lop = 4 ∧ inOpenUnit s.lp = true) ∨ (s.lop = 5 ∧ s.lb ≠ 0))
  | .encSend t i => s.status.busy = true ∧ s.lop = 2 ∧ s.lb ≠ 0 ∧ t = golombBits s.xVal s.bVal s.lord ∧
      i < t.length ∧ s.cnt.toNat = i
  | .decU qc => s.status.busy = true ∧ s.lop = 3 ∧ s.lb ≠ 0 ∧ qc ≤ qlim s.bVal ∧ s.cnt.toNat = qc
  | .decP q j acc => s.status.busy = true ∧ s.lop = 3 ∧ s.lb ≠ 0 ∧ q ≤ qlim s.bVal ∧ j < minBinK s.bVal ∧
      acc < 2 ^ j ∧ s.cnt.toNat = q + 1 + j
  | .decX q acc => s.status.busy = true ∧ s.lop = 3 ∧ s.lb ≠ 0 ∧ q ≤ qlim s.bVal ∧ minBinU s.bVal ≤ acc ∧
      acc < 2 ^ minBinK s.bVal ∧ s.cnt.toNat = q + 1 + minBinK s.bVal

/-- The invariant of the machine. -/
structure State.Inv (s : State) : Prop where
  /-- The phase is one the rules give the latched command. -/
  phase : s.phaseInv
  /-- DONE is 0 while a command runs (R26). -/
  done : s.status.busy = true → s.status.done = false
  /-- LASTOP and LASTORD name the running command (R31, R34). -/
  last : s.status.busy = true → s.status.lastOp = s.lop ∧ s.status.lastOrd = s.lord
  /-- IOERR[63:32] is always 0, and IOERR is 0 unless the last completion was an IO_ERROR (R33). -/
  ioerr : s.ioerr.toNat < 2 ^ 32 ∧ (s.status.err ≠ .ioError → s.ioerr = 0)
  /-- SAT is 1 only with ERR = OK and the saturated result (R29, R212). -/
  sat : s.status.sat = true → s.status.err = .ok ∧ s.result.toNat = Config.maxWord
  /-- RESULT is 0 after a failed command (R236). -/
  failed : s.status.err ≠ .ok → s.result = 0
  /-- With BUSY = DONE = 0 no command has completed since reset, and the result registers are at reset (R26, R260). -/
  fresh : s.status.busy = false → s.status.done = false →
      s.result = 0 ∧ s.nbits = 0 ∧ s.q = 0 ∧ s.r = 0 ∧ s.ioerr = 0 ∧ s.status = Status.reset
  /-- While the reset input is asserted the block is at its reset state (R260). -/
  held : s.resetAsserted = true → resetBlock s = s

end Sys2Proof.Machine
end

