-- ==== Sys2Proof/Certificates/Slice0/Obligations.lean ====
section
/-! DEFINITION. The statements for the provers. Each docstring names the rule of spec/ it formalises. -/

open Sys2Proof Sys2Proof.Machine

/-! ## Encoding of commands -/

/-- R108: the mnemonics and their CMD words, decoded and assembled. -/
def Obligations.MnemonicWordsDecode : Prop :=
  decode 0x0000_0000_0000_0001 = .ok (.len .be) ∧ assemble "len" = some 0x0000_0000_0000_0001 ∧
  decode 0x0000_0000_0000_0002 = .ok (.enc .be) ∧ assemble "enc.be" = some 0x0000_0000_0000_0002 ∧
  decode 0x0000_0000_0000_0102 = .ok (.enc .le) ∧ assemble "enc.le" = some 0x0000_0000_0000_0102 ∧
  decode 0x0000_0000_0000_0003 = .ok (.dec .be) ∧ assemble "dec.be" = some 0x0000_0000_0000_0003 ∧
  decode 0x0000_0000_0000_0103 = .ok (.dec .le) ∧ assemble "dec.le" = some 0x0000_0000_0000_0103 ∧
  decode 0x0000_0000_0000_0004 = .ok (.bofp .be) ∧ assemble "bofp" = some 0x0000_0000_0000_0004 ∧
  decode 0x0000_0000_0000_0005 = .ok (.pofb .be) ∧ assemble "pofb" = some 0x0000_0000_0000_0005 ∧
  assemble "enc" = assemble "enc.be" ∧ assemble "dec" = assemble "dec.be"

/-- R90, R91, R94, R95: a word decodes to a command exactly when it is that command's encoding, on the byte lanes as well, and
the words that decode are exactly the legal ones. -/
def Obligations.LegalWordsAreTheEncodings : Prop :=
  (∀ (w : Word) (i : Instr), decode w = .ok i ↔ w = encode i) ∧
  (∀ w : Word, decodeBytes (bytesOfWord w) = decode w) ∧
  (∀ w : Word, (∃ i, decode w = .ok i) ↔
    ((w.extractLsb' 0 4).toNat ∈ [1, 2, 3, 4, 5] ∧ w.extractLsb' 4 4 = 0 ∧ w.extractLsb' 9 55 = 0)) ∧
  (∀ w : Word, legalWord w = true ↔ ∃ i, decode w = .ok i)

/-- R64: byte `i` of an access at an aligned offset carries bits `[8i+7 : 8i]` of the register. -/
def Obligations.ByteLanesAreLittleEndian : Prop :=
  ∀ (s : State) (off i j : Nat), off % 8 = 0 → off < 0x80 → i ≤ 7 → j < 8 →
    (windowByte s (off + i)).getLsbD j = (readOffset off s).getLsbD (8 * i + j)

/-! ## The codeword -/

/-- R99: the bits of a field in stream order, and which ORD bit selects which order. -/
def Obligations.FieldBitsInStreamOrder : Prop :=
  (∀ v n j : Nat, (fieldBits v n .be)[j]? = if j < n then some (v.testBit (n - 1 - j)) else none) ∧
  (∀ v n j : Nat, (fieldBits v n .le)[j]? = if j < n then some (v.testBit j) else none) ∧
  (∀ v n : Nat, n ≤ 1 → fieldBits v n .be = fieldBits v n .le) ∧
  (∀ v o, fieldBits v 0 o = []) ∧
  (∀ w : Word, (w.getLsbD 8 = false → cmdOrd w = .be) ∧ (w.getLsbD 8 = true → cmdOrd w = .le))

/-- R101: the minimal-binary code, with the bounds it states. -/
def Obligations.MinimalBinaryCode : Prop :=
  ∀ (r m : Nat) (o : BitOrder), 1 ≤ m → m ≤ 2 ^ 64 - 1 → r < m →
    ∃ k u : Nat, 2 ^ k ≤ m ∧ m < 2 ^ (k + 1) ∧ k ≤ 63 ∧ u = 2 ^ (k + 1) - m ∧ 1 ≤ u ∧ u ≤ 2 ^ k ∧
      (r < u → minBinBits r m o = fieldBits r k o) ∧
      (u ≤ r → 2 * u ≤ r + u ∧ r + u ≤ 2 ^ (k + 1) - 1 ∧
        minBinBits r m o = fieldBits ((r + u) / 2) k o ++ fieldBits ((r + u) % 2) 1 o)

/-- R102: the length of the minimal-binary code. -/
def Obligations.MinimalBinaryLength : Prop :=
  ∀ (r m : Nat) (o : BitOrder), 1 ≤ m → m ≤ 2 ^ 64 - 1 → r < m →
    (minBinBits r m o).length = lenMinBin r m ∧
    lenMinBin r m = minBinK m + (if minBinU m ≤ r then 1 else 0) ∧
    (lenMinBin r m = Nat.log 2 m ∨ lenMinBin r m = Nat.clog 2 m) ∧
    (∀ k, m = 2 ^ k → minBinU m = m ∧ lenMinBin r m = k) ∧
    (m = 1 → minBinK m = 0 ∧ minBinU m = 1 ∧ minBinBits r m o = [])

/-- R104: the length of a codeword, and the two ends of its range. -/
def Obligations.CodewordLength : Prop :=
  (∀ (x b : Nat) (o : BitOrder), x < 2 ^ 64 → 1 ≤ b → b ≤ 2 ^ 64 - 1 →
    (golombBits x b o).toList.length = x / b + 1 + lenMinBin (x % b) b ∧
    1 ≤ (golombBits x b o).toList.length ∧ (golombBits x b o).toList.length ≤ 2 ^ 64) ∧
  (golombBits 0 1 .be).length = 1 ∧ (golombBits (2 ^ 64 - 1) 1 .be).length = 2 ^ 64

/-- R107: the special moduli. -/
def Obligations.SpecialModuli : Prop :=
  (∀ (x : Nat) (o : BitOrder), golombBits x 1 o = unaryBits x) ∧
  (∀ (r k : Nat) (o : BitOrder), 1 ≤ k → k ≤ 63 → r < 2 ^ k → minBinBits r (2 ^ k) o = fieldBits r k o) ∧
  minBinK (2 ^ 64 - 1) = 63 ∧ minBinU (2 ^ 64 - 1) = 1 ∧
  (∀ (r : Nat) (o : BitOrder), r < 2 ^ 64 - 1 →
    (minBinBits r (2 ^ 64 - 1) o).length = if r = 0 then 63 else 64)

/-- R105, its last sentence: no codeword under a modulus and an order is the beginning of another. -/
def Obligations.CodewordsArePrefixFree : Prop :=
  ∀ (x y b : Nat) (o : BitOrder), 1 ≤ b →
    (golombBits x b o).toList <+: (golombBits y b o).toList → x = y

/-! ## A step and the command it runs -/

/-- A step makes the next move, or the block's own step when none is left; a CMD write to the free block is `exec` of the
command its word decodes to, and the busy block's own step is `exec` of the latched command. The moves and the trace are
the model's (logs 3 and 5). -/
def Obligations.StepRunsTheDecodedCommand : Prop :=
  (∀ (s : State) (w : Word) (i : Instr), s.free → s.resetAsserted = false → s.nextWrites .cmd w → decode w = .ok i →
    step s = exec i { s with
      moves := s.moves.tail
      trace := .bus (writeAccess s .cmd w) .writeDone :: s.trace }) ∧
  (∀ (s : State) (i : Instr), s.running i → s.moves = [] → step s = exec i s) ∧
  (∀ (s : State) (i : Instr) (ms : List Move), s.running i → s.moves = .block :: ms →
    step s = exec i { s with moves := ms })

/-- A word placed by `withFetchWord` runs as the next step. `withFetchWord` is the model's (log 8). -/
def Obligations.PlacedWordRunsNext : Prop :=
  ∀ (s : State) (w : Nat) (i : Instr), decodeTableWord 64 w = some i →
    step (s.withFetchWord 64 w) = exec i { s with
      resetAsserted := false
      phase := .idle
      status := { s.status with busy := false }
      trace := .bus (writeAccess s .cmd (encode i)) .writeDone :: s.trace }

/-! ## Acceptance -/

/-- R93: what a CMD write does: dropped while BUSY = 1; else accepted in one step, with the latches, the checks in their order,
and the first phase of the command. -/
def Obligations.CmdWriteRule : Prop :=
  ∀ (w : Word) (s : State),
    let o : BitOrder := if w.getLsbD 8 then .le else .be
    let l : State := { s with
      status := { s.status with
        busy := true, done := false, rej := false, lastOp := w.extractLsb' 0 4, lastOrd := o }
      lx := s.x, lb := s.b, lp := s.p, lop := w.extractLsb' 0 4, lord := o, cnt := 0 }
    let op := (w.extractLsb' 0 4).toNat
    (s.status.busy = true → writeCmd w s = .next { s with status := { s.status with rej := true } }) ∧
    (s.status.busy = false →
      if ¬ (op ∈ [1, 2, 3, 4, 5] ∧ w.extractLsb' 4 4 = 0 ∧ w.extractLsb' 9 55 = 0) then
        writeCmd w s = .next (raiseError .illegalCmd 0 0 0 l)
      else if op ∈ [1, 2, 3, 5] ∧ s.b = 0 then writeCmd w s = .next (raiseError .invalidModulus 0 0 0 l)
      else if op = 4 ∧ inOpenUnit s.p = false then writeCmd w s = .next (raiseError .invalidParameter 0 0 0 l)
      else if op = 2 then
        writeCmd w s = .next { l with phase := .encSend (golombBits s.x.toNat s.b.toNat o) 0 }
      else if op = 3 then writeCmd w s = .next { l with phase := .decU 0 }
      else writeCmd w s = .next { l with phase := .calculating })

/-- A legal command with good operands starts: the operands are latched and the first phase is entered, and nothing else
changes. -/
def Obligations.AcceptedCommandsStart : Prop :=
  ∀ (o : BitOrder) (s : State), s.free →
    let start := fun (op : BitVec 4) (ph : Phase) => Host.Outcome.next (φ := Fault) (ρ := Refusal) { s with
      status := { s.status with busy := true, done := false, rej := false, lastOp := op, lastOrd := o }
      lx := s.x, lb := s.b, lp := s.p, lop := op, lord := o, cnt := 0, phase := ph }
    (s.b ≠ 0 →
      exec (.len o) s = start 1 .calculating ∧
      exec (.enc o) s = start 2 (.encSend (golombBits s.x.toNat s.b.toNat o) 0) ∧
      exec (.dec o) s = start 3 (.decU 0) ∧
      exec (.pofb o) s = start 5 .calculating) ∧
    (inOpenUnit s.p = true → exec (.bofp o) s = start 4 .calculating)

/-- A command whose operand check fails completes at once with its error, makes no transfer, and leaves X, B and P; an operand
that a command does not use plays no part. -/
def Obligations.FailedChecksCompleteAtOnce : Prop :=
  ∀ (o : BitOrder) (s : State), s.free →
    let ends := fun (op : BitVec 4) (k : ErrKind) => Host.Outcome.next (φ := Fault) (ρ := Refusal) { s with
      status := {
        busy := false, done := true, rej := false, n64 := false, sat := false, err := k, lastOp := op, lastOrd := o }
      lx := s.x, lb := s.b, lp := s.p, lop := op, lord := o, cnt := 0, phase := .idle
      result := 0, nbits := 0, q := 0, r := 0, ioerr := 0 }
    (s.b = 0 →
      exec (.len o) s = ends 1 .invalidModulus ∧ exec (.enc o) s = ends 2 .invalidModulus ∧
      exec (.dec o) s = ends 3 .invalidModulus ∧ exec (.pofb o) s = ends 5 .invalidModulus) ∧
    (inOpenUnit s.p = false → exec (.bofp o) s = ends 4 .invalidParameter)

/-- R31: LASTOP and LASTORD at acceptance, of an illegal word too, and at a dropped CMD write. -/
def Obligations.LastOpFollowsAcceptance : Prop :=
  ∀ (w : Word) (s : State), ∃ t, writeCmd w s = .next t ∧
    (s.status.busy = false → t.status.lastOp = w.extractLsb' 0 4 ∧
      t.status.lastOrd = if w.getLsbD 8 then .le else .be) ∧
    (s.status.busy = true → t.status.lastOp = s.status.lastOp ∧ t.status.lastOrd = s.status.lastOrd)

/-- R270: a CMD write while BUSY = 1 is dropped and only sets REJ. The moves and the trace are the model's (logs 3 and 5). -/
def Obligations.BusyCmdWriteIsDropped : Prop :=
  ∀ (s : State) (w : Word), s.status.busy = true → s.resetAsserted = false → s.nextWrites .cmd w →
    step s = .next { s with
      moves := s.moves.tail
      trace := .bus (writeAccess s .cmd w) .writeDone :: s.trace
      status := { s.status with rej := true } }

/-! ## Completion -/

/-- R235: the successful end of a command. -/
def Obligations.CompletionWrites : Prop :=
  ∀ (res q r : Word) (n : Count) (sat : Bool) (s : State),
    complete res n q r sat s = { s with
      result := res, nbits := n.extractLsb' 0 64, q := q, r := r, ioerr := 0, phase := .idle
      status := {
        busy := false, done := true, rej := s.status.rej, n64 := n.getLsbD 64, sat := sat, err := .ok
        lastOp := s.status.lastOp, lastOrd := s.status.lastOrd } }

/-- R236: the failed end of a command; one at acceptance records no code, no quotient, no remainder and no transfer. -/
def Obligations.ErrorWrites : Prop :=
  (∀ (w : Word) (s t : State), s.status.busy = false → writeCmd w s = .next t → t.status.busy = false →
    t.ioerr = 0 ∧ t.q = 0 ∧ t.r = 0 ∧ t.cnt = 0 ∧ t.nbits = 0 ∧ t.status.n64 = false) ∧
  ∀ (k : ErrKind) (e : IoCode) (q r : Word) (s : State),
    raiseError k e q r s = { s with
      result := 0, nbits := s.cnt.extractLsb' 0 64, q := q, r := r, phase := .idle
      ioerr := if k = .ioError then 0#32 ++ e else 0
      status := {
        busy := false, done := true, rej := s.status.rej, n64 := s.cnt.getLsbD 64, sat := false, err := k
        lastOp := s.status.lastOp, lastOrd := s.status.lastOrd } }

/-- R30: the ERR codes, written at every completion; codes 6 to 15 are none of them. -/
def Obligations.ErrCodes : Prop :=
  ErrKind.ok.code = 0 ∧ ErrKind.illegalCmd.code = 1 ∧ ErrKind.invalidModulus.code = 2 ∧
  ErrKind.invalidParameter.code = 3 ∧ ErrKind.ioError.code = 4 ∧ ErrKind.decOverflow.code = 5 ∧
  (∀ k : ErrKind, k.code.toNat ≤ 5) ∧
  (∀ (v q r : Word) (n : Count) (c : Bool) (s : State),
    (complete v n q r c s).status.word.extractLsb' 8 4 = 0) ∧
  (∀ (k : ErrKind) (e : IoCode) (q r : Word) (s : State),
    (raiseError k e q r s).status.word.extractLsb' 8 4 = k.code)

/-! ## len -/

/-- R160, the CALC step of `len`: the 65-bit length, the quotient and the remainder; nothing else changes. -/
def Obligations.LenCompletes : Prop :=
  ∀ (o : BitOrder) (s : State), s.running (.len o) → s.phase = .calculating → s.lb ≠ 0 →
    let x := s.lx.toNat
    let b := s.lb.toNat
    let k := Nat.log 2 b
    let n := x / b + 1 + k + (if 2 ^ (k + 1) - b ≤ x % b then 1 else 0)
    1 ≤ n ∧ n ≤ 2 ^ 64 ∧
    exec (.len o) s = .next { s with
      result := BitVec.ofNat 64 n
      nbits := BitVec.ofNat 64 n
      q := BitVec.ofNat 64 (x / b)
      r := BitVec.ofNat 64 (x % b)
      ioerr := 0
      phase := .idle
      status := { s.status with
        busy := false, done := true, n64 := decide (n = 2 ^ 64), sat := false, err := .ok } }

/-- R162: the CALC phase of `len`, `bofp` and `pofb` ends with one completion step, without a transfer and without a wait. -/
def Obligations.CalcTakesOneStep : Prop :=
  ∀ (o : BitOrder) (i : Instr) (s : State), (i = .len o ∨ i = .bofp o ∨ i = .pofb o) → s.running i → s.phase = .calculating →
    ∃ t, exec i s = .next t ∧ t.phase = .idle ∧ t.status.busy = false ∧ t.status.done = true ∧ t.status.err = .ok ∧
      t.sinkAnswers = s.sinkAnswers ∧ t.sourceAnswers = s.sourceAnswers ∧ t.trace = s.trace ∧ t.moves = s.moves ∧
      sinkPort s = none ∧ sourcePort s = none

/-! ## enc -/

/-- R136: one transfer step of `enc`: it waits while the sink is silent, counts an OK and goes on or completes, and raises
IO_ERROR on ERR. The list of answers is the model's (log 4). -/
def Obligations.EncTransferStep : Prop :=
  ∀ (o : BitOrder) (s : State) (u : BitSeq) (i : Nat) (bit : Bool),
    s.running (.enc o) → s.phase = .encSend u i → u.toList[i]? = some bit →
    let q : Word := BitVec.ofNat 64 (s.lx.toNat / s.lb.toNat)
    let r : Word := BitVec.ofNat 64 (s.lx.toNat % s.lb.toNat)
    sinkPort s = some (bit, s.lord) ∧
    (s.sinkAnswers = [] → exec (.enc o) s = .next s) ∧
    (∀ rest, s.sinkAnswers = .ok :: rest →
      let t : State := { s with
        sinkAnswers := rest, trace := .sink bit s.lord .ok :: s.trace, cnt := s.cnt + 1 }
      exec (.enc o) s = .next (if i + 1 < u.toList.length then { t with phase := .encSend u (i + 1) }
        else complete ((s.cnt + 1).extractLsb' 0 64) (s.cnt + 1) q r false t)) ∧
    (∀ e rest, s.sinkAnswers = .err e :: rest →
      exec (.enc o) s = .next (raiseError .ioError e q r { s with
        sinkAnswers := rest, trace := .sink bit s.lord (.err e) :: s.trace }))

/-- R171: what the sink sees. A command that completes OK offered the codeword's bits, each once and in order, and all were
answered OK; one that ends at the answer ERR after `i` OKs offered the bits 0 to `i` and no more. The run is the one in
which the host and the platform do nothing more (log 3); the answers and the trace are the model's lists (logs 4 and 5). -/
def Obligations.WhatTheSinkSees : Prop :=
  ∀ (o : BitOrder) (s : State), s.free → s.b ≠ 0 → s.moves = [] →
    let bits := (golombBits s.x.toNat s.b.toNat o).toList
    let offered := fun (l : List Bool) => (l.map fun c => Event.sink c o .ok).reverse
    ∃ s₁, exec (.enc o) s = .next s₁ ∧
      (∀ rest, s.sinkAnswers = List.replicate bits.length .ok ++ rest →
        ∃ t, run bits.length s₁ = .next t ∧ t.status.busy = false ∧ t.status.err = .ok ∧ t.sinkAnswers = rest ∧
          t.trace = offered bits ++ s.trace) ∧
      (∀ (i : Nat) (bit : Bool) (e : IoCode) (rest : List SinkAnswer), bits[i]? = some bit →
        s.sinkAnswers = List.replicate i .ok ++ .err e :: rest →
        ∃ t, run (i + 1) s₁ = .next t ∧ t.status.busy = false ∧ t.status.err = .ioError ∧ t.sinkAnswers = rest ∧
          t.ioerr = 0#32 ++ e ∧ t.nbits = BitVec.ofNat 64 i ∧ t.status.n64 = false ∧ t.result = 0 ∧
          t.trace = .sink bit o (.err e) :: (offered (bits.take i) ++ s.trace) ∧
          ∀ n, run n t = .next t)

/-- R161: length agreement of `enc` and `len`, and with the codeword. The runs are the ones in which the host and the
platform do nothing more (log 3); the answers are the model's list (log 4). -/
def Obligations.LengthAgreement : Prop :=
  ∀ (o o' : BitOrder) (s s' : State) (rest : List SinkAnswer), s.free → s'.free → s.b ≠ 0 → s'.x = s.x → s'.b = s.b →
    s.moves = [] → s'.moves = [] →
    s.sinkAnswers = List.replicate (golombBits s.x.toNat s.b.toNat o).length .ok ++ rest →
    ∃ s₁ t s₁' t', exec (.enc o) s = .next s₁ ∧ run (golombBits s.x.toNat s.b.toNat o).length s₁ = .next t ∧
      exec (.len o') s' = .next s₁' ∧ run 1 s₁' = .next t' ∧
      t.status.busy = false ∧ t'.status.busy = false ∧ t.status.err = .ok ∧ t'.status.err = .ok ∧
      t.result = t'.result ∧ t.nbits = t'.nbits ∧ t.status.n64 = t'.status.n64 ∧
      t.nbits.toNat + (if t.status.n64 then 2 ^ 64 else 0) = (golombBits s.x.toNat s.b.toNat o).toList.length

/-! ## dec -/

/-- R137: one step of the unary reader. `recombine` is the rule of `RecombineRule`. The list of answers is the model's (log
4). -/
def Obligations.DecUnaryStep : Prop :=
  ∀ (o : BitOrder) (s : State) (qc : Nat), s.running (.dec o) → s.phase = .decU qc → s.lb ≠ 0 →
    let b := s.lb.toNat
    sourcePort s = some s.lord ∧
    (s.sourceAnswers = [] → exec (.dec o) s = .next s) ∧
    (∀ e rest, s.sourceAnswers = .err e :: rest →
      exec (.dec o) s = .next (raiseError .ioError e (BitVec.ofNat 64 qc) 0 { s with
        sourceAnswers := rest, trace := .source s.lord (.err e) :: s.trace })) ∧
    (∀ bit rest, s.sourceAnswers = .ok bit :: rest →
      let t : State := { s with
        sourceAnswers := rest, trace := .source s.lord (.ok bit) :: s.trace, cnt := s.cnt + 1 }
      exec (.dec o) s = .next (
        if bit then if Nat.log 2 b = 0 then recombine qc 0 t else { t with phase := .decP qc 0 0 }
        else if (2 ^ 64 - 1) / b < qc + 1 then
          raiseError .decOverflow 0 (BitVec.ofNat 64 (min (qc + 1) (2 ^ 64 - 1))) 0 t
        else { t with phase := .decU (qc + 1) }))

/-- R138: one step of the prefix reader, in both bit orders. The list of answers is the model's (log 4). -/
def Obligations.DecPrefixStep : Prop :=
  ∀ (o : BitOrder) (s : State) (q j acc : Nat), s.running (.dec o) → s.phase = .decP q j acc → s.lb ≠ 0 →
    let b := s.lb.toNat
    let k := Nat.log 2 b
    sourcePort s = some s.lord ∧
    (s.sourceAnswers = [] → exec (.dec o) s = .next s) ∧
    (∀ e rest, s.sourceAnswers = .err e :: rest →
      exec (.dec o) s = .next (raiseError .ioError e (BitVec.ofNat 64 q) 0 { s with
        sourceAnswers := rest, trace := .source s.lord (.err e) :: s.trace })) ∧
    (∀ bit rest, s.sourceAnswers = .ok bit :: rest →
      let t : State := { s with
        sourceAnswers := rest, trace := .source s.lord (.ok bit) :: s.trace, cnt := s.cnt + 1 }
      let acc' := match s.lord with
        | .be => 2 * acc + (if bit then 1 else 0)
        | .le => acc + (if bit then 2 ^ j else 0)
      exec (.dec o) s = .next (
        if j + 1 < k then { t with phase := .decP q (j + 1) acc' }
        else if acc' < 2 ^ (k + 1) - b then recombine q acc' t
        else { t with phase := .decX q acc' }))

/-- R139: the extra bit of a long codeword, and the remainder it gives. The list of answers is the model's (log 4). -/
def Obligations.DecExtraStep : Prop :=
  ∀ (o : BitOrder) (s : State) (q acc : Nat), s.running (.dec o) → s.phase = .decX q acc → s.lb ≠ 0 →
    let b := s.lb.toNat
    let k := Nat.log 2 b
    let u := 2 ^ (k + 1) - b
    sourcePort s = some s.lord ∧
    (s.sourceAnswers = [] → exec (.dec o) s = .next s) ∧
    (∀ e rest, s.sourceAnswers = .err e :: rest →
      exec (.dec o) s = .next (raiseError .ioError e (BitVec.ofNat 64 q) 0 { s with
        sourceAnswers := rest, trace := .source s.lord (.err e) :: s.trace })) ∧
    (∀ bit rest, s.sourceAnswers = .ok bit :: rest →
      exec (.dec o) s = .next (recombine q (2 * acc + (if bit then 1 else 0) - u) { s with
        sourceAnswers := rest, trace := .source s.lord (.ok bit) :: s.trace, cnt := s.cnt + 1 })) ∧
    (u ≤ acc → acc < 2 ^ k → ∀ bit : Bool,
      u ≤ 2 * acc + (if bit then 1 else 0) - u ∧ 2 * acc + (if bit then 1 else 0) - u ≤ b - 1)

/-- R140: recombination. -/
def Obligations.RecombineRule : Prop :=
  (∀ (q r : Nat) (s : State),
    recombine q r s =
      if q * s.lb.toNat + r ≤ 2 ^ 64 - 1 then
        complete (BitVec.ofNat 64 (q * s.lb.toNat + r)) s.cnt (BitVec.ofNat 64 q) (BitVec.ofNat 64 r) false s
      else raiseError .decOverflow 0 (BitVec.ofNat 64 q) (BitVec.ofNat 64 r) s) ∧
  (∀ q r b : Nat, 1 ≤ b → q ≤ (2 ^ 64 - 1) / b → r < b →
    q * b ≤ 2 ^ 64 - 1 ∧ (2 ^ 64 - 1 < q * b + r → q = (2 ^ 64 - 1) / b))

/-- R194: round trip. Fed the codeword of `x` and any further answers, `dec` returns `x` and reads no bit past the
codeword. The run is the one in which the host and the platform do nothing more (log 3); the answers and the trace are the
model's lists (logs 4 and 5). -/
def Obligations.DecodeOfCodewordReturnsValue : Prop :=
  ∀ (x : Word) (o : BitOrder) (s : State) (rest : List SourceAnswer), s.free → s.b ≠ 0 → s.moves = [] →
    let bits := (golombBits x.toNat s.b.toNat o).toList
    s.sourceAnswers = bits.map SourceAnswer.ok ++ rest →
    ∃ s₁ t, exec (.dec o) s = .next s₁ ∧ run bits.length s₁ = .next t ∧
      t.status.busy = false ∧ t.status.done = true ∧ t.status.err = .ok ∧ t.result = x ∧
      t.q = x / s.b ∧ t.r = x % s.b ∧
      t.nbits.toNat + (if t.status.n64 then 2 ^ 64 else 0) = bits.length ∧ t.sourceAnswers = rest ∧
      t.trace = (bits.map fun c => Event.source o (.ok c)).reverse ++ s.trace

/-- R191: consumption. A `dec` that completes OK has consumed exactly one codeword, that of its RESULT. The run is the one
in which the host and the platform do nothing more (log 3); the answers are the model's list (log 4). -/
def Obligations.DecodeConsumesOneCodeword : Prop :=
  ∀ (o : BitOrder) (s s₁ t : State) (n : Nat), s.free → s.b ≠ 0 → s.moves = [] → exec (.dec o) s = .next s₁ →
    run n s₁ = .next t → t.status.busy = false → t.status.err = .ok →
    s.sourceAnswers = (golombBits t.result.toNat s.b.toNat o).toList.map SourceAnswer.ok ++ t.sourceAnswers

/-- R192: DEC_OVERFLOW is raised exactly when the codeword's value is not below 2^64; in the unary part by the 0 bit that
makes the quotient exceed QLIM, and no bit after it is read. The run is the one in which the host and the platform do
nothing more (log 3); the answers are the model's list (log 4). -/
def Obligations.DecOverflowExactlyOnLargeValues : Prop :=
  ∀ (q r : Nat) (o : BitOrder) (s : State) (rest : List SourceAnswer), s.free → s.b ≠ 0 → s.moves = [] → r < s.b.toNat →
    let b := s.b.toNat
    let bits := (unaryBits q).toList ++ minBinBits r b o
    s.sourceAnswers = bits.map SourceAnswer.ok ++ rest →
    ∃ s₁ t n, exec (.dec o) s = .next s₁ ∧ run n s₁ = .next t ∧ t.status.busy = false ∧
      t.nbits.toNat + (if t.status.n64 then 2 ^ 64 else 0) = n ∧
      (q * b + r < 2 ^ 64 → t.status.err = .ok ∧ t.result.toNat = q * b + r ∧ n = bits.length) ∧
      (2 ^ 64 ≤ q * b + r → t.status.err = .decOverflow ∧ t.result = 0 ∧
        (q ≤ (2 ^ 64 - 1) / b → n = bits.length) ∧
        ((2 ^ 64 - 1) / b < q → n = (2 ^ 64 - 1) / b + 1 ∧
          t.sourceAnswers = (bits.drop ((2 ^ 64 - 1) / b + 1)).map SourceAnswer.ok ++ rest))

/-! ## The parameter mappings -/

/-- R97: the encodings of the binary64 values strictly between 0 and 1. -/
def Obligations.OpenUnitEncodings : Prop :=
  ∀ w : Word,
    (inOpenUnit w = true ↔ w.getLsbD 63 = false ∧ w ≠ 0 ∧ (w.extractLsb' 52 11).toNat < 0x3FF) ∧
    (inOpenUnit w = true ↔ isFinite w = true ∧ 0 < realOf w ∧ realOf w < 1) ∧
    (inOpenUnit w = true ↔ 1 ≤ w.toNat ∧ w.toNat ≤ 0x3FEF_FFFF_FFFF_FFFF)

/-- R214, the exact rational form: `bofp` returns the least `n >= 1` with `(2 - p)(1 - p)^n < 1`, saturated at 2^64 - 1; nothing
else changes. -/
def Obligations.BofpCompletesWithLeastModulus : Prop :=
  ∀ (o : BitOrder) (s : State), s.running (.bofp o) → s.phase = .calculating → inOpenUnit s.lp = true →
    ∃ c : Nat, IsLeast {n : Nat | 1 ≤ n ∧ (2 - realOf s.lp) * (1 - realOf s.lp) ^ n < 1} c ∧
      exec (.bofp o) s = .next { s with
        result := BitVec.ofNat 64 (min c (2 ^ 64 - 1))
        nbits := 0, q := 0, r := 0, ioerr := 0, phase := .idle
        status := { s.status with
          busy := false, done := true, n64 := false, sat := decide (2 ^ 64 - 1 < c), err := .ok } }

/-- R210: `bofp` returns `ceil(-ln(2 - p) / ln(1 - p))`, saturated, with SAT set when it saturates. -/
def Obligations.BofpIsTheRealCeiling : Prop :=
  ∀ (o : BitOrder) (s : State), s.running (.bofp o) → s.phase = .calculating → inOpenUnit s.lp = true →
    let p : ℝ := (realOf s.lp : ℝ)
    let c : ℤ := ⌈-Real.log (2 - p) / Real.log (1 - p)⌉
    1 ≤ c ∧ ∃ t, exec (.bofp o) s = .next t ∧
      (t.result.toNat : ℤ) = min c (2 ^ 64 - 1) ∧ (t.status.sat = true ↔ 2 ^ 64 - 1 < c)

/-- R212: which encodings saturate, and the value next to them. -/
def Obligations.BofpSaturation : Prop :=
  (∀ w : Word, inOpenUnit w = true →
    (bofpSat w = true ↔ 0x0000_0000_0000_0001 ≤ w.toNat ∧ w.toNat ≤ 0x3BE6_2E42_FEFA_39EF) ∧
    (bofpSat w = true → bofpValue w = 0xFFFF_FFFF_FFFF_FFFF)) ∧
  bofpValue 0x3BE6_2E42_FEFA_39F0 = 18446744073709549278#64 ∧ bofpSat 0x3BE6_2E42_FEFA_39F0 = false

/-- R211 and the ends of R214: the result is positive, does not increase with `p`, and is 1 from 0x3FD8_7221_91A0_2D61 on. -/
def Obligations.BofpIsPositiveAndAntitone : Prop :=
  (∀ w : Word, inOpenUnit w = true → 1 ≤ (bofpValue w).toNat) ∧
  (∀ v w : Word, inOpenUnit v = true → inOpenUnit w = true → v.toNat ≤ w.toNat →
    (bofpValue w).toNat ≤ (bofpValue v).toNat) ∧
  (∀ w : Word, inOpenUnit w = true → (bofpValue w = 1 ↔ 0x3FD8_7221_91A0_2D61 ≤ w.toNat))

/-- R215, R216: `pofb` returns the binary64 value nearest to `2^(-1/b)`, and no other is as near; nothing else changes. -/
def Obligations.PofbCompletesWithNearestValue : Prop :=
  ∀ (o : BitOrder) (s : State), s.running (.pofb o) → s.phase = .calculating → s.lb ≠ 0 →
    let y : ℝ := (2 : ℝ) ^ (-(1 : ℝ) / (s.lb.toNat : ℝ))
    ∃ v : Word, exec (.pofb o) s = .next { s with
        result := v
        nbits := 0, q := 0, r := 0, ioerr := 0, phase := .idle
        status := { s.status with busy := false, done := true, n64 := false, sat := false, err := .ok } } ∧
      isFinite v = true ∧ v.getLsbD 63 = false ∧
      ∀ v' : Word, isFinite v' = true → v' ≠ v → |(realOf v : ℝ) - y| < |(realOf v' : ℝ) - y|

/-- R217: the range of `pofb`'s result, and that it does not decrease with `b`. -/
def Obligations.PofbRangeAndMonotone : Prop :=
  (∀ b : Nat, 1 ≤ b → b < 2 ^ 64 → isFinite (pofbValue b) = true ∧
    1 / 2 ≤ realOf (pofbValue b) ∧ realOf (pofbValue b) ≤ 1) ∧
  (∀ a b : Nat, 1 ≤ a → a ≤ b → b < 2 ^ 64 → realOf (pofbValue a) ≤ realOf (pofbValue b))

/-- R218, first part: `bofp` of a `pofb` result below 1.0 is 1, and where the result is 1.0 it is outside `bofp`'s domain. -/
def Obligations.BofpDoesNotInvertPofb : Prop :=
  ∀ b : Nat, 1 ≤ b → b < 2 ^ 64 →
    (realOf (pofbValue b) < 1 → inOpenUnit (pofbValue b) = true ∧ bofpValue (pofbValue b) = 1) ∧
    (realOf (pofbValue b) = 1 → inOpenUnit (pofbValue b) = false)

/-! ## The register window -/

/-- R20, R22, R23: what each offset of the window reads as; ID and CMD are hard-wired, reserved offsets read 0. -/
def Obligations.WindowReads : Prop :=
  ∀ s : State,
    readOffset 0x00 s = 0x0000_0001_474F_4C42#64 ∧ readOffset 0x08 s = 0 ∧ readOffset 0x10 s = s.status.word ∧
    readOffset 0x18 s = s.x ∧ readOffset 0x20 s = s.b ∧ readOffset 0x28 s = s.p ∧ readOffset 0x30 s = s.result ∧
    readOffset 0x38 s = s.nbits ∧ readOffset 0x40 s = s.q ∧ readOffset 0x48 s = s.r ∧ readOffset 0x50 s = s.ioerr ∧
    readOffset 0x58 s = 0 ∧ readOffset 0x60 s = 0 ∧ readOffset 0x68 s = 0 ∧ readOffset 0x70 s = 0 ∧ readOffset 0x78 s = 0

/-- R24: the fields of the STATUS word; every other bit is 0. -/
def Obligations.StatusLayout : Prop :=
  ∀ f : Status,
    f.word.getLsbD 0 = f.busy ∧ f.word.getLsbD 1 = f.done ∧ f.word.getLsbD 2 = f.rej ∧ f.word.getLsbD 3 = f.n64 ∧
    f.word.getLsbD 4 = f.sat ∧ f.word.extractLsb' 5 3 = 0 ∧ f.word.extractLsb' 8 4 = f.err.code ∧
    f.word.extractLsb' 12 4 = 0 ∧ f.word.extractLsb' 16 4 = f.lastOp ∧
    (f.word.getLsbD 20 = true ↔ f.lastOrd = .le) ∧ f.word.extractLsb' 21 43 = 0

/-- R60: the window, and an access outside it. The third clause is the model's: that an access is outside by its first
byte, one that overlaps the window included (log 13), and that it is recorded in the trace as not decoded and changes
nothing (logs 5 and 14). That BASE is a state field is the model's too (log 1). -/
def Obligations.WindowDecoding : Prop :=
  (∀ s : State, s.base % 0x80 = 0) ∧
  (∀ (s : State) (addr off : Nat), windowOffset s addr = some off ↔ addr = s.base + off ∧ off < 0x80) ∧
  (∀ (s : State) (a : BusAccess), windowOffset s a.addr = none →
    busAccess a s = .next { s with trace := .bus a .notDecoded :: s.trace }) ∧
  (∀ s t : State, step s = .next t → t.base = s.base)

/-- R63: which accesses the window accepts, and what each does. -/
def Obligations.WindowAccessRule : Prop :=
  ∀ (s : State) (off width : Nat), off < 0x80 → s.resetAsserted = false →
    let seen := fun (k : AccessKind) (resp : BusResponse) => { s with
      trace := .bus ⟨s.base + off, width, k⟩ resp :: s.trace }
    (¬ (width = 8 ∧ off % 8 = 0) → ∀ k,
      busAccess ⟨s.base + off, width, k⟩ s = .next (seen k (.busError 0))) ∧
    (width = 8 ∧ off % 8 = 0 →
      busAccess ⟨s.base + off, width, .read⟩ s = .next (seen .read (.readData (readOffset off s))) ∧
      (off = 0x08 ∨ 0x58 ≤ off → readOffset off s = 0) ∧
      ∀ v,
        let t := seen (.write v) .writeDone
        busAccess ⟨s.base + off, width, .write v⟩ s =
          if off = 0x18 then .next { t with x := v }
          else if off = 0x20 then .next { t with b := v }
          else if off = 0x28 then .next { t with p := v }
          else if off = 0x08 then writeCmd v t
          else .next t)

/-- While the reset input is asserted every bus access leaves the block as it is, and only its response is seen. That a write has
no effect then is the model's reading of R260 (log 2). -/
def Obligations.HeldResetIgnoresAccesses : Prop :=
  ∀ (s : State) (a : BusAccess), s.resetAsserted = true →
    ∃ resp, busAccess a s = .next { s with trace := .bus a resp :: s.trace }

/-- R43: when the ports are idle. -/
def Obligations.IdlePorts : Prop :=
  ∀ s : State,
    (s.phase = .idle ∨ s.phase = .calculating → sinkPort s = none ∧ sourcePort s = none) ∧
    (sinkPort s ≠ none → sourcePort s = none) ∧ (sourcePort s ≠ none → sinkPort s = none) ∧
    sinkPort (assertReset s) = none ∧ sourcePort (assertReset s) = none

/-! ## Rules about the whole machine -/

/-- What every command leaves alone, whatever its phase: the operand registers, the window's bytes outside STATUS and the result
registers, the moves to come, BASE, the reset input, and the answers of a port it does not use. -/
def Obligations.CommandFrame : Prop :=
  ∀ (i : Instr) (s t : State), exec i s = .next t →
    t.x = s.x ∧ t.b = s.b ∧ t.p = s.p ∧ t.moves = s.moves ∧ t.baseIndex = s.baseIndex ∧
    t.resetAsserted = s.resetAsserted ∧
    (∀ off, off < 0x10 ∨ (0x18 ≤ off ∧ off < 0x30) ∨ (0x58 ≤ off ∧ off < 0x80) → windowByte t off = windowByte s off) ∧
    (t.status.busy = true → ∀ off, off < 0x10 ∨ (0x18 ≤ off ∧ off < 0x80) → windowByte t off = windowByte s off) ∧
    ((∀ o, i ≠ .enc o) → t.sinkAnswers = s.sinkAnswers) ∧
    ((∀ o, i ≠ .dec o) → t.sourceAnswers = s.sourceAnswers) ∧
    ((∀ o, i ≠ .enc o) → (∀ o, i ≠ .dec o) → t.trace = s.trace)

/-- Only host writes, and the reset input, change X, B and P (R21). -/
def Obligations.OperandRegistersAreTheHosts : Prop :=
  ∀ s t : State, step s = .next t → ¬ s.nextResets →
    (t.x ≠ s.x → ∃ v, s.nextWrites .x v ∧ t.x = v) ∧
    (t.b ≠ s.b → ∃ v, s.nextWrites .b v ∧ t.b = v) ∧
    (t.p ≠ s.p → ∃ v, s.nextWrites .p v ∧ t.p = v)

/-- R33, R70: the result registers and ERR, N64 and SAT change only at a completion, apart from a reset. -/
def Obligations.ResultsChangeOnlyAtCompletion : Prop :=
  ∀ s t : State, step s = .next t → ¬ s.nextResets →
    (t.result = s.result ∧ t.nbits = s.nbits ∧ t.q = s.q ∧ t.r = s.r ∧ t.ioerr = s.ioerr ∧
      t.status.err = s.status.err ∧ t.status.n64 = s.status.n64 ∧ t.status.sat = s.status.sat) ∨
    (t.phase = .idle ∧ t.status.busy = false ∧ t.status.done = true ∧
      (s.status.busy = true ∨ ∃ w, s.nextWrites .cmd w))

/-- R25: BUSY is set by an acceptance, and cleared by a completion or by a reset. -/
def Obligations.BusyFollowsAcceptanceAndCompletion : Prop :=
  ∀ s t : State, step s = .next t →
    (s.status.busy = false → t.status.busy = true →
      ∃ w i, s.nextWrites .cmd w ∧ decode w = .ok i ∧ t.running i ∧ t.phase ≠ .idle) ∧
    (s.status.busy = true → t.status.busy = false → s.nextResets ∨ (t.status.done = true ∧ t.phase = .idle))

/-- R27: REJ is set by a CMD write while BUSY = 1, and cleared only by a later acceptance or a reset. -/
def Obligations.RejectedIsSticky : Prop :=
  ∀ s t : State, step s = .next t →
    (s.status.rej = false → t.status.rej = true → s.status.busy = true ∧ ∃ w, s.nextWrites .cmd w) ∧
    (s.status.rej = true → t.status.rej = false → s.nextResets ∨ (s.status.busy = false ∧ ∃ w, s.nextWrites .cmd w)) ∧
    (s.status.busy = true → s.resetAsserted = false → (∃ w, s.nextWrites .cmd w) → t.status.rej = true)

/-- Only `enc` takes sink answers and only `dec` takes source answers; `len`, `bofp` and `pofb` make no transfer (R62). The
answers and the trace are the model's lists (logs 4 and 5). -/
def Obligations.PortsBelongToEncAndDec : Prop :=
  ∀ s t : State, step s = .next t →
    (t.sinkAnswers ≠ s.sinkAnswers → ∃ o, s.running (.enc o)) ∧
    (t.sourceAnswers ≠ s.sourceAnswers → ∃ o, s.running (.dec o)) ∧
    (t.trace.filter Event.isSink ≠ s.trace.filter Event.isSink → ∃ o, s.running (.enc o)) ∧
    (t.trace.filter Event.isSource ≠ s.trace.filter Event.isSource → ∃ o, s.running (.dec o))

/-- R271: a running command takes the same step whatever X, B and P hold by now. -/
def Obligations.RunningCommandIgnoresOperandWrites : Prop :=
  ∀ (i : Instr) (s t : State) (x b p : Word), s.running i → exec i s = .next t →
    exec i { s with x := x, b := b, p := p } = .next { t with x := x, b := b, p := p }

/-- With BUSY = 0 the block's own step changes nothing, and so the results stay until a CMD write or a reset (R252, R72). -/
def Obligations.FreeBlockKeepsItsResults : Prop :=
  ∀ s t : State, step s = .next t → s.free → ¬ s.nextResets → (∀ w, ¬ s.nextWrites .cmd w) →
    t.free ∧ t.phase = s.phase ∧ t.status = s.status ∧ t.result = s.result ∧ t.nbits = s.nbits ∧ t.q = s.q ∧ t.r = s.r ∧
    t.ioerr = s.ioerr ∧ t.sinkAnswers = s.sinkAnswers ∧ t.sourceAnswers = s.sourceAnswers ∧
    (s.moves = [] ∨ s.moves.head? = some .block → t.x = s.x ∧ t.b = s.b ∧ t.p = s.p ∧ t.trace = s.trace)

/-- A silent collaborator hangs the command (R275): with no answer and no other move, no number of steps changes anything.
The lists of moves and answers are the model's (logs 3 and 4). -/
def Obligations.SilentCollaboratorHangs : Prop :=
  ∀ (o : BitOrder) (s : State) (n : Nat), s.moves = [] →
    ((s.running (.enc o) ∧ (∃ c, sinkPort s = some c) ∧ s.sinkAnswers = []) ∨
      (s.running (.dec o) ∧ (∃ c, sourcePort s = some c) ∧ s.sourceAnswers = [])) →
    run n s = .next s

/-- R260, R261: asserting reset gives every register its reset value and abandons a running command without a completion;
the collaborator's streams stay as they are. Releasing it changes no register, and a late answer changes nothing. The third
clause is the model's: R261 speaks of an answer after a reset, and here a late answer may stand anywhere (log 10). That
reset is a level with moves of its own is the model's too (logs 2 and 3). -/
def Obligations.ResetRule : Prop :=
  ∀ (s : State) (ms : List Move),
    (s.moves = .assertReset :: ms → ∃ t, step s = .next t ∧ t.resetAsserted = true ∧
      (∀ g : Reg, readReg g t = if g = .id then 0x0000_0001_474F_4C42 else 0) ∧ t.status = Status.reset ∧ t.phase = .idle ∧
      t.lx = 0 ∧ t.lb = 0 ∧ t.lp = 0 ∧ t.lop = 0 ∧ t.lord = .be ∧ t.cnt = 0 ∧ sinkPort t = none ∧ sourcePort t = none ∧
      t.sinkAnswers = s.sinkAnswers ∧ t.sourceAnswers = s.sourceAnswers ∧ t.trace = s.trace ∧ t.moves = ms) ∧
    (s.moves = .releaseReset :: ms → s.resetAsserted = true →
      step s = .next { State.reset with
        baseIndex := s.baseIndex, moves := ms, sinkAnswers := s.sinkAnswers, sourceAnswers := s.sourceAnswers
        trace := s.trace }) ∧
    (s.moves = .lateAnswer :: ms → step s = .next { s with moves := ms })

/-- R260: what reset leaves, while it is asserted, when it is released, and in `State.reset`. -/
def Obligations.ResetValues : Prop :=
  ∀ s t : State, (t = assertReset s ∨ (s.resetAsserted = true ∧ t = releaseReset s) ∨ t = State.reset) →
    readReg .id t = 0x0000_0001_474F_4C42 ∧ (∀ g : Reg, g ≠ .id → readReg g t = 0) ∧
    t.status = { busy := false, done := false, rej := false, n64 := false, sat := false, err := .ok, lastOp := 0
                 lastOrd := .be } ∧
    t.phase = .idle ∧ t.lx = 0 ∧ t.lb = 0 ∧ t.lp = 0 ∧ t.lop = 0 ∧ t.lord = .be ∧ t.cnt = 0 ∧
    sinkPort t = none ∧ sourcePort t = none

/-! ## The invariant -/

/-- The invariant of Safety.lean holds at reset. -/
def Obligations.ResetMeetsInvariant : Prop := State.reset.Inv

/-- Every step keeps the invariant, from every state that has it. -/
def Obligations.EveryStepKeepsInvariant : Prop :=
  ∀ s t : State, s.Inv → step s = .next t → t.Inv

/-- No state with the invariant stops: every step of the block, the host, the collaborator and the platform has a next state. -/
def Obligations.InvariantStatesNeverStop : Prop :=
  ∀ s : State, s.Inv → ∃ t, step s = .next t

/-- R278: a run is over only with BUSY = 0, and stays over. Whatever moves of the block and the collaborator still come, its end
state stays as it is; only a move of the reset input can change the registers. The moves are the model's (log 3). -/
def Obligations.FinishedRunStays : Prop :=
  ∀ (s : State) (n : Nat), s.Inv → s.over →
    s.status.busy = false ∧
    (∃ t, run n s = .next t ∧ t.over) ∧
    ((∀ m ∈ s.moves, m.isReset = false) →
      ∃ t, run n s = .next t ∧ t = { s with moves := s.moves.drop n } ∧ ∀ g, t.endState g = s.endState g)
end

