-- ==== Sys2Proof/Laws/Decode.lean ====
section
/-! SUPPORT. The fields of an encoded command (R90, R91). -/

namespace Sys2Proof

@[simp] theorem cmdOp_encode (i : Instr) : cmdOp (encode i) = i.op := by
  cases i <;> rename_i o <;> cases o <;> rfl

@[simp] theorem cmdOrd_encode (i : Instr) : cmdOrd (encode i) = i.ord := by
  cases i <;> rename_i o <;> cases o <;> rfl

/-- An OP names an operation exactly when it is 1 to 5 (R91, R94). -/
theorem ofOp_isSome (op : BitVec 4) (o : BitOrder) : (∃ i, Instr.ofOp op o = some i) ↔ op.toNat ∈ [1, 2, 3, 4, 5] := by
  unfold Instr.ofOp
  split <;> simp_all

/-- A command named by an OP has that OP and that order. -/
theorem ofOp_eq_some {op : BitVec 4} {o : BitOrder} {i : Instr} (h : Instr.ofOp op o = some i) : i.op = op ∧ i.ord = o := by
  have hop : op = BitVec.ofNat 4 op.toNat := by simp
  unfold Instr.ofOp at h
  split at h <;>
    first | (obtain rfl := Option.some.inj h; exact ⟨by rw [hop, ‹op.toNat = _›]; rfl, rfl⟩) | simp at h

@[simp] theorem ofOp_op (i : Instr) : Instr.ofOp i.op i.ord = some i := by
  cases i <;> rfl

end Sys2Proof
end

