-- ==== Sys2Proof/Laws/Flags.lean ====
section
/-! SUPPORT. The fields of STATUS after each of its updates (R93, R235, R236, R270). -/

namespace Sys2Proof.Machine

@[simp] theorem Status.accept_busy (w : Word) (f : Status) : (f.accept w).busy = true := rfl
@[simp] theorem Status.accept_done (w : Word) (f : Status) : (f.accept w).done = false := rfl
@[simp] theorem Status.accept_rej (w : Word) (f : Status) : (f.accept w).rej = false := rfl
@[simp] theorem Status.accept_n64 (w : Word) (f : Status) : (f.accept w).n64 = f.n64 := rfl
@[simp] theorem Status.accept_sat (w : Word) (f : Status) : (f.accept w).sat = f.sat := rfl
@[simp] theorem Status.accept_err (w : Word) (f : Status) : (f.accept w).err = f.err := rfl
@[simp] theorem Status.accept_lastOp (w : Word) (f : Status) : (f.accept w).lastOp = cmdOp w := rfl
@[simp] theorem Status.accept_lastOrd (w : Word) (f : Status) : (f.accept w).lastOrd = cmdOrd w := rfl

@[simp] theorem Status.complete_busy (n c : Bool) (k : ErrKind) (f : Status) : (f.complete n c k).busy = false := rfl
@[simp] theorem Status.complete_done (n c : Bool) (k : ErrKind) (f : Status) : (f.complete n c k).done = true := rfl
@[simp] theorem Status.complete_rej (n c : Bool) (k : ErrKind) (f : Status) : (f.complete n c k).rej = f.rej := rfl
@[simp] theorem Status.complete_n64 (n c : Bool) (k : ErrKind) (f : Status) : (f.complete n c k).n64 = n := rfl
@[simp] theorem Status.complete_sat (n c : Bool) (k : ErrKind) (f : Status) : (f.complete n c k).sat = c := rfl
@[simp] theorem Status.complete_err (n c : Bool) (k : ErrKind) (f : Status) : (f.complete n c k).err = k := rfl
@[simp] theorem Status.complete_lastOp (n c : Bool) (k : ErrKind) (f : Status) : (f.complete n c k).lastOp = f.lastOp := rfl
@[simp] theorem Status.complete_lastOrd (n c : Bool) (k : ErrKind) (f : Status) :
    (f.complete n c k).lastOrd = f.lastOrd := rfl

@[simp] theorem Status.reject_busy (f : Status) : f.reject.busy = f.busy := rfl
@[simp] theorem Status.reject_done (f : Status) : f.reject.done = f.done := rfl
@[simp] theorem Status.reject_rej (f : Status) : f.reject.rej = true := rfl
@[simp] theorem Status.reject_n64 (f : Status) : f.reject.n64 = f.n64 := rfl
@[simp] theorem Status.reject_sat (f : Status) : f.reject.sat = f.sat := rfl
@[simp] theorem Status.reject_err (f : Status) : f.reject.err = f.err := rfl
@[simp] theorem Status.reject_lastOp (f : Status) : f.reject.lastOp = f.lastOp := rfl
@[simp] theorem Status.reject_lastOrd (f : Status) : f.reject.lastOrd = f.lastOrd := rfl

/-- BUSY is bit 0 of the STATUS word (R24). -/
@[simp] theorem Status.word_busy (f : Status) : f.word.getLsbD 0 = f.busy := by
  simp only [Status.word, BitVec.getLsbD_append]
  cases f.busy <;> simp

end Sys2Proof.Machine
end

