-- ==== Sys2Proof/Laws/State.lean ====
section
/-! SUPPORT. One lemma per field and per state update, each true by rfl, so that no later proof unfolds a record update. -/

namespace Sys2Proof.Machine

/-! ## latch -/

@[simp] theorem latch_status (w : Word) (s : State) : (latch w s).status = s.status.accept w := rfl
@[simp] theorem latch_x (w : Word) (s : State) : (latch w s).x = s.x := rfl
@[simp] theorem latch_b (w : Word) (s : State) : (latch w s).b = s.b := rfl
@[simp] theorem latch_p (w : Word) (s : State) : (latch w s).p = s.p := rfl
@[simp] theorem latch_result (w : Word) (s : State) : (latch w s).result = s.result := rfl
@[simp] theorem latch_nbits (w : Word) (s : State) : (latch w s).nbits = s.nbits := rfl
@[simp] theorem latch_q (w : Word) (s : State) : (latch w s).q = s.q := rfl
@[simp] theorem latch_r (w : Word) (s : State) : (latch w s).r = s.r := rfl
@[simp] theorem latch_ioerr (w : Word) (s : State) : (latch w s).ioerr = s.ioerr := rfl
@[simp] theorem latch_lx (w : Word) (s : State) : (latch w s).lx = s.x := rfl
@[simp] theorem latch_lb (w : Word) (s : State) : (latch w s).lb = s.b := rfl
@[simp] theorem latch_lp (w : Word) (s : State) : (latch w s).lp = s.p := rfl
@[simp] theorem latch_lop (w : Word) (s : State) : (latch w s).lop = cmdOp w := rfl
@[simp] theorem latch_lord (w : Word) (s : State) : (latch w s).lord = cmdOrd w := rfl
@[simp] theorem latch_phase (w : Word) (s : State) : (latch w s).phase = s.phase := rfl
@[simp] theorem latch_cnt (w : Word) (s : State) : (latch w s).cnt = 0 := rfl
@[simp] theorem latch_resetAsserted (w : Word) (s : State) : (latch w s).resetAsserted = s.resetAsserted := rfl
@[simp] theorem latch_baseIndex (w : Word) (s : State) : (latch w s).baseIndex = s.baseIndex := rfl
@[simp] theorem latch_moves (w : Word) (s : State) : (latch w s).moves = s.moves := rfl
@[simp] theorem latch_sinkAnswers (w : Word) (s : State) : (latch w s).sinkAnswers = s.sinkAnswers := rfl
@[simp] theorem latch_sourceAnswers (w : Word) (s : State) : (latch w s).sourceAnswers = s.sourceAnswers := rfl
@[simp] theorem latch_trace (w : Word) (s : State) : (latch w s).trace = s.trace := rfl

/-! ## complete -/

@[simp] theorem complete_status (v : Word) (n : Count) (q r : Word) (c : Bool) (s : State) : (complete v n q r c s).status = s.status.complete (n.getLsbD 64) c .ok := rfl
@[simp] theorem complete_x (v : Word) (n : Count) (q r : Word) (c : Bool) (s : State) : (complete v n q r c s).x = s.x := rfl
@[simp] theorem complete_b (v : Word) (n : Count) (q r : Word) (c : Bool) (s : State) : (complete v n q r c s).b = s.b := rfl
@[simp] theorem complete_p (v : Word) (n : Count) (q r : Word) (c : Bool) (s : State) : (complete v n q r c s).p = s.p := rfl
@[simp] theorem complete_result (v : Word) (n : Count) (q r : Word) (c : Bool) (s : State) : (complete v n q r c s).result = v := rfl
@[simp] theorem complete_nbits (v : Word) (n : Count) (q r : Word) (c : Bool) (s : State) : (complete v n q r c s).nbits = n.setWidth 64 := rfl
@[simp] theorem complete_q (v : Word) (n : Count) (q r : Word) (c : Bool) (s : State) : (complete v n q r c s).q = q := rfl
@[simp] theorem complete_r (v : Word) (n : Count) (q r : Word) (c : Bool) (s : State) : (complete v n q r c s).r = r := rfl
@[simp] theorem complete_ioerr (v : Word) (n : Count) (q r : Word) (c : Bool) (s : State) : (complete v n q r c s).ioerr = 0 := rfl
@[simp] theorem complete_lx (v : Word) (n : Count) (q r : Word) (c : Bool) (s : State) : (complete v n q r c s).lx = s.lx := rfl
@[simp] theorem complete_lb (v : Word) (n : Count) (q r : Word) (c : Bool) (s : State) : (complete v n q r c s).lb = s.lb := rfl
@[simp] theorem complete_lp (v : Word) (n : Count) (q r : Word) (c : Bool) (s : State) : (complete v n q r c s).lp = s.lp := rfl
@[simp] theorem complete_lop (v : Word) (n : Count) (q r : Word) (c : Bool) (s : State) : (complete v n q r c s).lop = s.lop := rfl
@[simp] theorem complete_lord (v : Word) (n : Count) (q r : Word) (c : Bool) (s : State) : (complete v n q r c s).lord = s.lord := rfl
@[simp] theorem complete_phase (v : Word) (n : Count) (q r : Word) (c : Bool) (s : State) : (complete v n q r c s).phase = .idle := rfl
@[simp] theorem complete_cnt (v : Word) (n : Count) (q r : Word) (c : Bool) (s : State) : (complete v n q r c s).cnt = s.cnt := rfl
@[simp] theorem complete_resetAsserted (v : Word) (n : Count) (q r : Word) (c : Bool) (s : State) : (complete v n q r c s).resetAsserted = s.resetAsserted := rfl
@[simp] theorem complete_baseIndex (v : Word) (n : Count) (q r : Word) (c : Bool) (s : State) : (complete v n q r c s).baseIndex = s.baseIndex := rfl
@[simp] theorem complete_moves (v : Word) (n : Count) (q r : Word) (c : Bool) (s : State) : (complete v n q r c s).moves = s.moves := rfl
@[simp] theorem complete_sinkAnswers (v : Word) (n : Count) (q r : Word) (c : Bool) (s : State) : (complete v n q r c s).sinkAnswers = s.sinkAnswers := rfl
@[simp] theorem complete_sourceAnswers (v : Word) (n : Count) (q r : Word) (c : Bool) (s : State) : (complete v n q r c s).sourceAnswers = s.sourceAnswers := rfl
@[simp] theorem complete_trace (v : Word) (n : Count) (q r : Word) (c : Bool) (s : State) : (complete v n q r c s).trace = s.trace := rfl

/-! ## raiseError -/

@[simp] theorem raiseError_status (k : ErrKind) (e : IoCode) (q r : Word) (s : State) : (raiseError k e q r s).status = s.status.complete (s.cnt.getLsbD 64) false k := rfl
@[simp] theorem raiseError_x (k : ErrKind) (e : IoCode) (q r : Word) (s : State) : (raiseError k e q r s).x = s.x := rfl
@[simp] theorem raiseError_b (k : ErrKind) (e : IoCode) (q r : Word) (s : State) : (raiseError k e q r s).b = s.b := rfl
@[simp] theorem raiseError_p (k : ErrKind) (e : IoCode) (q r : Word) (s : State) : (raiseError k e q r s).p = s.p := rfl
@[simp] theorem raiseError_result (k : ErrKind) (e : IoCode) (q r : Word) (s : State) : (raiseError k e q r s).result = 0 := rfl
@[simp] theorem raiseError_nbits (k : ErrKind) (e : IoCode) (q r : Word) (s : State) : (raiseError k e q r s).nbits = s.cnt.setWidth 64 := rfl
@[simp] theorem raiseError_q (k : ErrKind) (e : IoCode) (q r : Word) (s : State) : (raiseError k e q r s).q = q := rfl
@[simp] theorem raiseError_r (k : ErrKind) (e : IoCode) (q r : Word) (s : State) : (raiseError k e q r s).r = r := rfl
@[simp] theorem raiseError_ioerr (k : ErrKind) (e : IoCode) (q r : Word) (s : State) : (raiseError k e q r s).ioerr = ioerrOf k e := rfl
@[simp] theorem raiseError_lx (k : ErrKind) (e : IoCode) (q r : Word) (s : State) : (raiseError k e q r s).lx = s.lx := rfl
@[simp] theorem raiseError_lb (k : ErrKind) (e : IoCode) (q r : Word) (s : State) : (raiseError k e q r s).lb = s.lb := rfl
@[simp] theorem raiseError_lp (k : ErrKind) (e : IoCode) (q r : Word) (s : State) : (raiseError k e q r s).lp = s.lp := rfl
@[simp] theorem raiseError_lop (k : ErrKind) (e : IoCode) (q r : Word) (s : State) : (raiseError k e q r s).lop = s.lop := rfl
@[simp] theorem raiseError_lord (k : ErrKind) (e : IoCode) (q r : Word) (s : State) : (raiseError k e q r s).lord = s.lord := rfl
@[simp] theorem raiseError_phase (k : ErrKind) (e : IoCode) (q r : Word) (s : State) : (raiseError k e q r s).phase = .idle := rfl
@[simp] theorem raiseError_cnt (k : ErrKind) (e : IoCode) (q r : Word) (s : State) : (raiseError k e q r s).cnt = s.cnt := rfl
@[simp] theorem raiseError_resetAsserted (k : ErrKind) (e : IoCode) (q r : Word) (s : State) : (raiseError k e q r s).resetAsserted = s.resetAsserted := rfl
@[simp] theorem raiseError_baseIndex (k : ErrKind) (e : IoCode) (q r : Word) (s : State) : (raiseError k e q r s).baseIndex = s.baseIndex := rfl
@[simp] theorem raiseError_moves (k : ErrKind) (e : IoCode) (q r : Word) (s : State) : (raiseError k e q r s).moves = s.moves := rfl
@[simp] theorem raiseError_sinkAnswers (k : ErrKind) (e : IoCode) (q r : Word) (s : State) : (raiseError k e q r s).sinkAnswers = s.sinkAnswers := rfl
@[simp] theorem raiseError_sourceAnswers (k : ErrKind) (e : IoCode) (q r : Word) (s : State) : (raiseError k e q r s).sourceAnswers = s.sourceAnswers := rfl
@[simp] theorem raiseError_trace (k : ErrKind) (e : IoCode) (q r : Word) (s : State) : (raiseError k e q r s).trace = s.trace := rfl

/-! ## dropCommand -/

@[simp] theorem dropCommand_status (s : State) : (dropCommand s).status = s.status.reject := rfl
@[simp] theorem dropCommand_x (s : State) : (dropCommand s).x = s.x := rfl
@[simp] theorem dropCommand_b (s : State) : (dropCommand s).b = s.b := rfl
@[simp] theorem dropCommand_p (s : State) : (dropCommand s).p = s.p := rfl
@[simp] theorem dropCommand_result (s : State) : (dropCommand s).result = s.result := rfl
@[simp] theorem dropCommand_nbits (s : State) : (dropCommand s).nbits = s.nbits := rfl
@[simp] theorem dropCommand_q (s : State) : (dropCommand s).q = s.q := rfl
@[simp] theorem dropCommand_r (s : State) : (dropCommand s).r = s.r := rfl
@[simp] theorem dropCommand_ioerr (s : State) : (dropCommand s).ioerr = s.ioerr := rfl
@[simp] theorem dropCommand_lx (s : State) : (dropCommand s).lx = s.lx := rfl
@[simp] theorem dropCommand_lb (s : State) : (dropCommand s).lb = s.lb := rfl
@[simp] theorem dropCommand_lp (s : State) : (dropCommand s).lp = s.lp := rfl
@[simp] theorem dropCommand_lop (s : State) : (dropCommand s).lop = s.lop := rfl
@[simp] theorem dropCommand_lord (s : State) : (dropCommand s).lord = s.lord := rfl
@[simp] theorem dropCommand_phase (s : State) : (dropCommand s).phase = s.phase := rfl
@[simp] theorem dropCommand_cnt (s : State) : (dropCommand s).cnt = s.cnt := rfl
@[simp] theorem dropCommand_resetAsserted (s : State) : (dropCommand s).resetAsserted = s.resetAsserted := rfl
@[simp] theorem dropCommand_baseIndex (s : State) : (dropCommand s).baseIndex = s.baseIndex := rfl
@[simp] theorem dropCommand_moves (s : State) : (dropCommand s).moves = s.moves := rfl
@[simp] theorem dropCommand_sinkAnswers (s : State) : (dropCommand s).sinkAnswers = s.sinkAnswers := rfl
@[simp] theorem dropCommand_sourceAnswers (s : State) : (dropCommand s).sourceAnswers = s.sourceAnswers := rfl
@[simp] theorem dropCommand_trace (s : State) : (dropCommand s).trace = s.trace := rfl

/-! ## observe -/

@[simp] theorem State.observe_status (e : Event) (s : State) : (s.observe e).status = s.status := rfl
@[simp] theorem State.observe_x (e : Event) (s : State) : (s.observe e).x = s.x := rfl
@[simp] theorem State.observe_b (e : Event) (s : State) : (s.observe e).b = s.b := rfl
@[simp] theorem State.observe_p (e : Event) (s : State) : (s.observe e).p = s.p := rfl
@[simp] theorem State.observe_result (e : Event) (s : State) : (s.observe e).result = s.result := rfl
@[simp] theorem State.observe_nbits (e : Event) (s : State) : (s.observe e).nbits = s.nbits := rfl
@[simp] theorem State.observe_q (e : Event) (s : State) : (s.observe e).q = s.q := rfl
@[simp] theorem State.observe_r (e : Event) (s : State) : (s.observe e).r = s.r := rfl
@[simp] theorem State.observe_ioerr (e : Event) (s : State) : (s.observe e).ioerr = s.ioerr := rfl
@[simp] theorem State.observe_lx (e : Event) (s : State) : (s.observe e).lx = s.lx := rfl
@[simp] theorem State.observe_lb (e : Event) (s : State) : (s.observe e).lb = s.lb := rfl
@[simp] theorem State.observe_lp (e : Event) (s : State) : (s.observe e).lp = s.lp := rfl
@[simp] theorem State.observe_lop (e : Event) (s : State) : (s.observe e).lop = s.lop := rfl
@[simp] theorem State.observe_lord (e : Event) (s : State) : (s.observe e).lord = s.lord := rfl
@[simp] theorem State.observe_phase (e : Event) (s : State) : (s.observe e).phase = s.phase := rfl
@[simp] theorem State.observe_cnt (e : Event) (s : State) : (s.observe e).cnt = s.cnt := rfl
@[simp] theorem State.observe_resetAsserted (e : Event) (s : State) : (s.observe e).resetAsserted = s.resetAsserted := rfl
@[simp] theorem State.observe_baseIndex (e : Event) (s : State) : (s.observe e).baseIndex = s.baseIndex := rfl
@[simp] theorem State.observe_moves (e : Event) (s : State) : (s.observe e).moves = s.moves := rfl
@[simp] theorem State.observe_sinkAnswers (e : Event) (s : State) : (s.observe e).sinkAnswers = s.sinkAnswers := rfl
@[simp] theorem State.observe_sourceAnswers (e : Event) (s : State) : (s.observe e).sourceAnswers = s.sourceAnswers := rfl
@[simp] theorem State.observe_trace (e : Event) (s : State) : (s.observe e).trace = e :: s.trace := rfl

/-! ## takeSink -/

@[simp] theorem takeSink_status (c : Bool) (a : SinkAnswer) (l : List SinkAnswer) (s : State) : (takeSink c a l s).status = s.status := rfl
@[simp] theorem takeSink_x (c : Bool) (a : SinkAnswer) (l : List SinkAnswer) (s : State) : (takeSink c a l s).x = s.x := rfl
@[simp] theorem takeSink_b (c : Bool) (a : SinkAnswer) (l : List SinkAnswer) (s : State) : (takeSink c a l s).b = s.b := rfl
@[simp] theorem takeSink_p (c : Bool) (a : SinkAnswer) (l : List SinkAnswer) (s : State) : (takeSink c a l s).p = s.p := rfl
@[simp] theorem takeSink_result (c : Bool) (a : SinkAnswer) (l : List SinkAnswer) (s : State) : (takeSink c a l s).result = s.result := rfl
@[simp] theorem takeSink_nbits (c : Bool) (a : SinkAnswer) (l : List SinkAnswer) (s : State) : (takeSink c a l s).nbits = s.nbits := rfl
@[simp] theorem takeSink_q (c : Bool) (a : SinkAnswer) (l : List SinkAnswer) (s : State) : (takeSink c a l s).q = s.q := rfl
@[simp] theorem takeSink_r (c : Bool) (a : SinkAnswer) (l : List SinkAnswer) (s : State) : (takeSink c a l s).r = s.r := rfl
@[simp] theorem takeSink_ioerr (c : Bool) (a : SinkAnswer) (l : List SinkAnswer) (s : State) : (takeSink c a l s).ioerr = s.ioerr := rfl
@[simp] theorem takeSink_lx (c : Bool) (a : SinkAnswer) (l : List SinkAnswer) (s : State) : (takeSink c a l s).lx = s.lx := rfl
@[simp] theorem takeSink_lb (c : Bool) (a : SinkAnswer) (l : List SinkAnswer) (s : State) : (takeSink c a l s).lb = s.lb := rfl
@[simp] theorem takeSink_lp (c : Bool) (a : SinkAnswer) (l : List SinkAnswer) (s : State) : (takeSink c a l s).lp = s.lp := rfl
@[simp] theorem takeSink_lop (c : Bool) (a : SinkAnswer) (l : List SinkAnswer) (s : State) : (takeSink c a l s).lop = s.lop := rfl
@[simp] theorem takeSink_lord (c : Bool) (a : SinkAnswer) (l : List SinkAnswer) (s : State) : (takeSink c a l s).lord = s.lord := rfl
@[simp] theorem takeSink_phase (c : Bool) (a : SinkAnswer) (l : List SinkAnswer) (s : State) : (takeSink c a l s).phase = s.phase := rfl
@[simp] theorem takeSink_cnt (c : Bool) (a : SinkAnswer) (l : List SinkAnswer) (s : State) : (takeSink c a l s).cnt = s.cnt := rfl
@[simp] theorem takeSink_resetAsserted (c : Bool) (a : SinkAnswer) (l : List SinkAnswer) (s : State) : (takeSink c a l s).resetAsserted = s.resetAsserted := rfl
@[simp] theorem takeSink_baseIndex (c : Bool) (a : SinkAnswer) (l : List SinkAnswer) (s : State) : (takeSink c a l s).baseIndex = s.baseIndex := rfl
@[simp] theorem takeSink_moves (c : Bool) (a : SinkAnswer) (l : List SinkAnswer) (s : State) : (takeSink c a l s).moves = s.moves := rfl
@[simp] theorem takeSink_sinkAnswers (c : Bool) (a : SinkAnswer) (l : List SinkAnswer) (s : State) : (takeSink c a l s).sinkAnswers = l := rfl
@[simp] theorem takeSink_sourceAnswers (c : Bool) (a : SinkAnswer) (l : List SinkAnswer) (s : State) : (takeSink c a l s).sourceAnswers = s.sourceAnswers := rfl
@[simp] theorem takeSink_trace (c : Bool) (a : SinkAnswer) (l : List SinkAnswer) (s : State) : (takeSink c a l s).trace = .sink c s.lord a :: s.trace := rfl

/-! ## takeSource -/

@[simp] theorem takeSource_status (a : SourceAnswer) (l : List SourceAnswer) (s : State) : (takeSource a l s).status = s.status := rfl
@[simp] theorem takeSource_x (a : SourceAnswer) (l : List SourceAnswer) (s : State) : (takeSource a l s).x = s.x := rfl
@[simp] theorem takeSource_b (a : SourceAnswer) (l : List SourceAnswer) (s : State) : (takeSource a l s).b = s.b := rfl
@[simp] theorem takeSource_p (a : SourceAnswer) (l : List SourceAnswer) (s : State) : (takeSource a l s).p = s.p := rfl
@[simp] theorem takeSource_result (a : SourceAnswer) (l : List SourceAnswer) (s : State) : (takeSource a l s).result = s.result := rfl
@[simp] theorem takeSource_nbits (a : SourceAnswer) (l : List SourceAnswer) (s : State) : (takeSource a l s).nbits = s.nbits := rfl
@[simp] theorem takeSource_q (a : SourceAnswer) (l : List SourceAnswer) (s : State) : (takeSource a l s).q = s.q := rfl
@[simp] theorem takeSource_r (a : SourceAnswer) (l : List SourceAnswer) (s : State) : (takeSource a l s).r = s.r := rfl
@[simp] theorem takeSource_ioerr (a : SourceAnswer) (l : List SourceAnswer) (s : State) : (takeSource a l s).ioerr = s.ioerr := rfl
@[simp] theorem takeSource_lx (a : SourceAnswer) (l : List SourceAnswer) (s : State) : (takeSource a l s).lx = s.lx := rfl
@[simp] theorem takeSource_lb (a : SourceAnswer) (l : List SourceAnswer) (s : State) : (takeSource a l s).lb = s.lb := rfl
@[simp] theorem takeSource_lp (a : SourceAnswer) (l : List SourceAnswer) (s : State) : (takeSource a l s).lp = s.lp := rfl
@[simp] theorem takeSource_lop (a : SourceAnswer) (l : List SourceAnswer) (s : State) : (takeSource a l s).lop = s.lop := rfl
@[simp] theorem takeSource_lord (a : SourceAnswer) (l : List SourceAnswer) (s : State) : (takeSource a l s).lord = s.lord := rfl
@[simp] theorem takeSource_phase (a : SourceAnswer) (l : List SourceAnswer) (s : State) : (takeSource a l s).phase = s.phase := rfl
@[simp] theorem takeSource_cnt (a : SourceAnswer) (l : List SourceAnswer) (s : State) : (takeSource a l s).cnt = s.cnt := rfl
@[simp] theorem takeSource_resetAsserted (a : SourceAnswer) (l : List SourceAnswer) (s : State) : (takeSource a l s).resetAsserted = s.resetAsserted := rfl
@[simp] theorem takeSource_baseIndex (a : SourceAnswer) (l : List SourceAnswer) (s : State) : (takeSource a l s).baseIndex = s.baseIndex := rfl
@[simp] theorem takeSource_moves (a : SourceAnswer) (l : List SourceAnswer) (s : State) : (takeSource a l s).moves = s.moves := rfl
@[simp] theorem takeSource_sinkAnswers (a : SourceAnswer) (l : List SourceAnswer) (s : State) : (takeSource a l s).sinkAnswers = s.sinkAnswers := rfl
@[simp] theorem takeSource_sourceAnswers (a : SourceAnswer) (l : List SourceAnswer) (s : State) : (takeSource a l s).sourceAnswers = l := rfl
@[simp] theorem takeSource_trace (a : SourceAnswer) (l : List SourceAnswer) (s : State) : (takeSource a l s).trace = .source s.lord a :: s.trace := rfl

/-! ## countTransfer -/

@[simp] theorem countTransfer_status (s : State) : (countTransfer s).status = s.status := rfl
@[simp] theorem countTransfer_x (s : State) : (countTransfer s).x = s.x := rfl
@[simp] theorem countTransfer_b (s : State) : (countTransfer s).b = s.b := rfl
@[simp] theorem countTransfer_p (s : State) : (countTransfer s).p = s.p := rfl
@[simp] theorem countTransfer_result (s : State) : (countTransfer s).result = s.result := rfl
@[simp] theorem countTransfer_nbits (s : State) : (countTransfer s).nbits = s.nbits := rfl
@[simp] theorem countTransfer_q (s : State) : (countTransfer s).q = s.q := rfl
@[simp] theorem countTransfer_r (s : State) : (countTransfer s).r = s.r := rfl
@[simp] theorem countTransfer_ioerr (s : State) : (countTransfer s).ioerr = s.ioerr := rfl
@[simp] theorem countTransfer_lx (s : State) : (countTransfer s).lx = s.lx := rfl
@[simp] theorem countTransfer_lb (s : State) : (countTransfer s).lb = s.lb := rfl
@[simp] theorem countTransfer_lp (s : State) : (countTransfer s).lp = s.lp := rfl
@[simp] theorem countTransfer_lop (s : State) : (countTransfer s).lop = s.lop := rfl
@[simp] theorem countTransfer_lord (s : State) : (countTransfer s).lord = s.lord := rfl
@[simp] theorem countTransfer_phase (s : State) : (countTransfer s).phase = s.phase := rfl
@[simp] theorem countTransfer_cnt (s : State) : (countTransfer s).cnt = s.cnt + 1 := rfl
@[simp] theorem countTransfer_resetAsserted (s : State) : (countTransfer s).resetAsserted = s.resetAsserted := rfl
@[simp] theorem countTransfer_baseIndex (s : State) : (countTransfer s).baseIndex = s.baseIndex := rfl
@[simp] theorem countTransfer_moves (s : State) : (countTransfer s).moves = s.moves := rfl
@[simp] theorem countTransfer_sinkAnswers (s : State) : (countTransfer s).sinkAnswers = s.sinkAnswers := rfl
@[simp] theorem countTransfer_sourceAnswers (s : State) : (countTransfer s).sourceAnswers = s.sourceAnswers := rfl
@[simp] theorem countTransfer_trace (s : State) : (countTransfer s).trace = s.trace := rfl

/-! ## The whole block at reset -/

@[simp] theorem resetBlock_status (s : State) : (resetBlock s).status = Status.reset := rfl
@[simp] theorem resetBlock_x (s : State) : (resetBlock s).x = 0 := rfl
@[simp] theorem resetBlock_b (s : State) : (resetBlock s).b = 0 := rfl
@[simp] theorem resetBlock_p (s : State) : (resetBlock s).p = 0 := rfl
@[simp] theorem resetBlock_result (s : State) : (resetBlock s).result = 0 := rfl
@[simp] theorem resetBlock_nbits (s : State) : (resetBlock s).nbits = 0 := rfl
@[simp] theorem resetBlock_q (s : State) : (resetBlock s).q = 0 := rfl
@[simp] theorem resetBlock_r (s : State) : (resetBlock s).r = 0 := rfl
@[simp] theorem resetBlock_ioerr (s : State) : (resetBlock s).ioerr = 0 := rfl
@[simp] theorem resetBlock_lx (s : State) : (resetBlock s).lx = 0 := rfl
@[simp] theorem resetBlock_lb (s : State) : (resetBlock s).lb = 0 := rfl
@[simp] theorem resetBlock_lp (s : State) : (resetBlock s).lp = 0 := rfl
@[simp] theorem resetBlock_lop (s : State) : (resetBlock s).lop = 0 := rfl
@[simp] theorem resetBlock_lord (s : State) : (resetBlock s).lord = .be := rfl
@[simp] theorem resetBlock_phase (s : State) : (resetBlock s).phase = .idle := rfl
@[simp] theorem resetBlock_cnt (s : State) : (resetBlock s).cnt = 0 := rfl
@[simp] theorem resetBlock_resetAsserted (s : State) : (resetBlock s).resetAsserted = s.resetAsserted := rfl
@[simp] theorem resetBlock_baseIndex (s : State) : (resetBlock s).baseIndex = s.baseIndex := rfl
@[simp] theorem resetBlock_moves (s : State) : (resetBlock s).moves = s.moves := rfl
@[simp] theorem resetBlock_sinkAnswers (s : State) : (resetBlock s).sinkAnswers = s.sinkAnswers := rfl
@[simp] theorem resetBlock_sourceAnswers (s : State) : (resetBlock s).sourceAnswers = s.sourceAnswers := rfl
@[simp] theorem resetBlock_trace (s : State) : (resetBlock s).trace = s.trace := rfl

theorem resetBlock_idem (s : State) : resetBlock (resetBlock s) = resetBlock s := rfl

end Sys2Proof.Machine
end

