-- ==== Sys2Proof/Laws/Subcodes.lean ====
section
/-! SUPPORT. The sub-codes: what each function says once (R99, R101, R132, R192). -/

namespace Sys2Proof.Machine

/-! ## Bit sequences -/

@[simp] theorem BitSeq.length_toList (s : BitSeq) : s.toList.length = s.length := by
  simp [BitSeq.toList, BitSeq.length]

theorem BitSeq.bit?_eq (s : BitSeq) (i : Nat) : s.bit? i = s.toList[i]? := by
  unfold BitSeq.bit? BitSeq.toList
  split
  · rw [List.getElem?_append_left (by simpa)]; simp [*]
  · rw [List.getElem?_append_right (by simpa using Nat.le_of_not_lt ‹_›)]; simp

theorem BitSeq.bit?_isSome {s : BitSeq} {i : Nat} (h : i < s.length) : ∃ c, s.bit? i = some c := by
  rw [bit?_eq]
  exact ⟨s.toList[i]'(by simpa), List.getElem?_eq_getElem _⟩

@[simp] theorem BitSeq.toList_append (s : BitSeq) (t : List Bool) : (s.append t).toList = s.toList ++ t := by
  simp [BitSeq.toList, BitSeq.append]

@[simp] theorem BitSeq.length_append (s : BitSeq) (t : List Bool) : (s.append t).length = s.length + t.length := by
  simp [BitSeq.length, BitSeq.append, Nat.add_assoc]

@[simp] theorem length_unaryBits (q : Nat) : (unaryBits q).length = q + 1 := rfl

@[simp] theorem toList_unaryBits (q : Nat) : (unaryBits q).toList = List.replicate q false ++ [true] := rfl

/-! ## Fields -/

@[simp] theorem length_lowBits (v n : Nat) : (lowBits v n).length = n := by
  induction n <;> simp [lowBits, *]

theorem getElem?_lowBits (v n j : Nat) : (lowBits v n)[j]? = if j < n then some (v.testBit j) else none := by
  induction n with
  | zero => simp [lowBits]
  | succ n ih =>
    rcases Nat.lt_trichotomy j n with h | rfl | h
    · rw [lowBits, List.getElem?_append_left (by simpa), ih, if_pos h, if_pos (by omega)]
    · rw [lowBits, List.getElem?_append_right (by simp)]; simp
    · rw [List.getElem?_eq_none (by simpa using h), if_neg (by omega)]

@[simp] theorem length_fieldBits (v n : Nat) (o : BitOrder) : (fieldBits v n o).length = n := by
  cases o <;> simp [fieldBits]

/-! ## Parameters of the minimal-binary code -/

theorem two_pow_minBinK_le {m : Nat} (h : m ≠ 0) : 2 ^ minBinK m ≤ m := Nat.log2_self_le h

theorem lt_two_pow_minBinK (m : Nat) : m < 2 ^ (minBinK m + 1) := Nat.lt_log2_self

theorem minBinU_pos (m : Nat) : 0 < minBinU m := Nat.sub_pos_of_lt (lt_two_pow_minBinK m)

theorem minBinU_le {m : Nat} (h : m ≠ 0) : minBinU m ≤ 2 ^ minBinK m := by
  have := two_pow_minBinK_le h
  simp only [minBinU, pow_succ]
  omega

theorem minBinU_add (m : Nat) : minBinU m + m = 2 ^ (minBinK m + 1) := by
  have := lt_two_pow_minBinK m
  simp only [minBinU]
  omega

theorem minBinK_le {m n : Nat} (h : m < 2 ^ (n + 1)) : minBinK m ≤ n := by
  rcases Nat.eq_zero_or_pos m with rfl | hm
  · simp [minBinK, ilog2]
  · have h2 : 2 ^ minBinK m < 2 ^ (n + 1) := lt_of_le_of_lt (two_pow_minBinK_le hm.ne') h
    exact Nat.lt_succ_iff.mp ((Nat.pow_lt_pow_iff_right (by norm_num)).mp h2)

@[simp] theorem length_minBinBits (r m : Nat) (o : BitOrder) : (minBinBits r m o).length = lenMinBin r m := by
  unfold minBinBits lenMinBin
  split <;> simp_all

@[simp] theorem length_golombBits (x b : Nat) (o : BitOrder) : (golombBits x b o).length = golombLen x b := by
  simp [golombBits, golombLen, lenUnary, split]

theorem golombLen_pos (x b : Nat) : 0 < golombLen x b := by
  simp only [golombLen, lenUnary]
  omega

theorem lenMinBin_le {r m : Nat} : lenMinBin r m ≤ minBinK m + 1 := by
  unfold lenMinBin
  split <;> omega

/-- A code length fits its 65 bits (R104, R131). -/
theorem golombLen_le {x b : Nat} (hx : x < 2 ^ 64) (hb : 0 < b) (hb' : b < 2 ^ 64) : golombLen x b ≤ 2 ^ 64 := by
  have hk : minBinK b ≤ 63 := minBinK_le hb'
  have hl : lenMinBin (x % b) b ≤ minBinK b + 1 := lenMinBin_le
  have hq : x / b ≤ x / 2 ^ minBinK b := Nat.div_le_div_left (two_pow_minBinK_le hb.ne') (by positivity)
  simp only [golombLen, lenUnary, split]
  rcases Nat.eq_zero_or_pos (minBinK b) with hz | hp
  · have hone : b = 1 := by have := lt_two_pow_minBinK b; rw [hz] at this; omega
    subst hone
    have : lenMinBin (x % 1) 1 = 0 := by rw [Nat.mod_one]; decide
    simp only [Nat.div_one, this]
    omega
  · have : x / 2 ^ minBinK b ≤ x / 2 ^ 1 := Nat.div_le_div_left (Nat.pow_le_pow_right (by norm_num) hp) (by norm_num)
    omega

/-! ## The decoder's bound -/

theorem mul_le_of_le_qlim {q b : Nat} (h : q ≤ qlim b) : q * b ≤ Config.maxWord :=
  le_trans (Nat.mul_le_mul_right b h) (Nat.div_mul_le_self _ _)

theorem le_qlim_iff {q b : Nat} (hb : 0 < b) : q ≤ qlim b ↔ q * b ≤ Config.maxWord := Nat.le_div_iff_mul_le hb

theorem qlim_le (b : Nat) : qlim b ≤ Config.maxWord := Nat.div_le_self _ _

theorem prefixStep_lt {o : BitOrder} {j acc : Nat} {c : Bool} (h : acc < 2 ^ j) : prefixStep o j acc c < 2 ^ (j + 1) := by
  have : c.toNat ≤ 1 := Bool.toNat_le c
  cases o <;> simp only [prefixStep, pow_succ]
  · omega
  · nlinarith [Nat.mul_le_mul_right (2 ^ j) this]

end Sys2Proof.Machine
end

