-- ==== Sys2Proof/Laws/Ops.lean ====
section
/-! SUPPORT. Each shared operation, said once: all it can do, guards included. -/

namespace Sys2Proof.Machine

/-! ## Acceptance and the frame of a command -/

/-- Acceptance either raises the check's error or enters the first phase (R93). -/
theorem accept_cases (i : Instr) (check : State → Option ErrKind) (first : State → Phase) (s : State) :
    (∃ k, check (latch (encode i) s) = some k ∧
      accept i check first s = raiseError k 0 0 0 (latch (encode i) s)) ∨
    (check (latch (encode i) s) = none ∧
      accept i check first s = { latch (encode i) s with phase := first (latch (encode i) s) }) := by
  unfold accept
  cases h : check (latch (encode i) s) with
  | none => exact .inr ⟨rfl, rfl⟩
  | some k => exact .inl ⟨k, rfl, rfl⟩

/-- A command's meaning: acceptance, its running step, or a dropped write. -/
theorem command_cases (i : Instr) (check : State → Option ErrKind) (first : State → Phase) (go : State → Result) (s : State) :
    (s.status.busy = false ∧ command i check first go s = .next (accept i check first s)) ∨
    (s.status.busy = true ∧ s.latched = some i ∧ command i check first go s = go s) ∨
    (s.status.busy = true ∧ s.latched ≠ some i ∧ command i check first go s = .next (dropCommand s)) := by
  unfold command
  cases hb : s.status.busy
  · exact .inl ⟨rfl, by simp⟩
  · by_cases hl : s.latched = some i
    · exact .inr (.inl ⟨rfl, hl, by simp [hl]⟩)
    · exact .inr (.inr ⟨rfl, hl, by simp [hl]⟩)

theorem command_free {i : Instr} {check : State → Option ErrKind} {first : State → Phase} {go : State → Result} {s : State}
    (h : s.status.busy = false) : command i check first go s = .next (accept i check first s) := by
  simp [command, h]

theorem command_running {i : Instr} {check : State → Option ErrKind} {first : State → Phase} {go : State → Result} {s : State}
    (h : s.status.busy = true) (hl : s.latched = some i) : command i check first go s = go s := by
  simp [command, h, hl]

/-! ## The checks (R232, R233) -/

theorem checkModulus_eq_none {s : State} : checkModulus s = none ↔ s.lb ≠ 0 := by
  by_cases h : s.lb = 0 <;> simp [checkModulus, h]

theorem checkModulus_eq_some {s : State} {k : ErrKind} :
    checkModulus s = some k ↔ s.lb = 0 ∧ .invalidModulus = k := by
  by_cases h : s.lb = 0 <;> simp [checkModulus, h]

theorem checkParameter_eq_none {s : State} : checkParameter s = none ↔ inOpenUnit s.lp = true := by
  cases h : inOpenUnit s.lp <;> simp [checkParameter, h]

theorem checkParameter_eq_some {s : State} {k : ErrKind} :
    checkParameter s = some k ↔ inOpenUnit s.lp = false ∧ .invalidParameter = k := by
  cases h : inOpenUnit s.lp <;> simp [checkParameter, h]

/-! ## Acceptance under each check (R93) -/

theorem accept_modulus_zero {i : Instr} {first : State → Phase} {s : State} (h : s.b = 0) :
    accept i checkModulus first s = raiseError .invalidModulus 0 0 0 (latch (encode i) s) := by
  simp [accept, checkModulus, h]

theorem accept_modulus {i : Instr} {first : State → Phase} {s : State} (h : s.b ≠ 0) :
    accept i checkModulus first s = { latch (encode i) s with phase := first (latch (encode i) s) } := by
  unfold accept checkModulus
  rw [latch_lb, if_neg h]

theorem accept_parameter_outside {i : Instr} {first : State → Phase} {s : State} (h : inOpenUnit s.p = false) :
    accept i checkParameter first s = raiseError .invalidParameter 0 0 0 (latch (encode i) s) := by
  simp [accept, checkParameter, h]

theorem accept_parameter {i : Instr} {first : State → Phase} {s : State} (h : inOpenUnit s.p = true) :
    accept i checkParameter first s = { latch (encode i) s with phase := first (latch (encode i) s) } := by
  unfold accept checkParameter
  rw [latch_lp, if_pos h]

/-- Latching an encoded command, written out (R93, R34). -/
theorem latch_encode (i : Instr) (s : State) : latch (encode i) s = { s with
    status := { s.status with busy := true, done := false, rej := false, lastOp := i.op, lastOrd := i.ord }
    lx := s.x, lb := s.b, lp := s.p, lop := i.op, lord := i.ord, cnt := 0 } := by
  simp only [latch, Status.accept, cmdOp_encode, cmdOrd_encode]

/-! ## Transfers -/

/-- A source transfer waits, fails, or goes on with a bit (R137 to R139). -/
theorem sourceTransfer_cases (q : Nat) (onBit : Bool → State → State) (s : State) :
    (s.sourceAnswers = [] ∧ sourceTransfer q onBit s = s) ∨
    (∃ e rest, s.sourceAnswers = .err e :: rest ∧
      sourceTransfer q onBit s = raiseError .ioError e (BitVec.ofNat 64 q) 0 (takeSource (.err e) rest s)) ∨
    (∃ c rest, s.sourceAnswers = .ok c :: rest ∧
      sourceTransfer q onBit s = onBit c (countTransfer (takeSource (.ok c) rest s))) := by
  unfold sourceTransfer
  split
  · exact .inl ⟨‹_›, rfl⟩
  · exact .inr (.inl ⟨_, _, ‹_›, rfl⟩)
  · exact .inr (.inr ⟨_, _, ‹_›, rfl⟩)

/-! ## The window -/

@[simp] theorem Reg.ofOffset_offset (g : Reg) : Reg.ofOffset g.offset = some g := by
  cases g <;> rfl

theorem Reg.offset_lt (g : Reg) : g.offset < Config.windowSize := by
  cases g <;> decide

theorem Reg.offset_mod (g : Reg) : g.offset % 8 = 0 := by
  cases g <;> rfl

theorem windowOffset_base (s : State) {off : Nat} (h : off < Config.windowSize) : windowOffset s (s.base + off) = some off := by
  simp [windowOffset, h]

/-! ## Reset -/

theorem releaseReset_cases (s : State) :
    (s.resetAsserted = true ∧ releaseReset s = { resetBlock s with resetAsserted := false }) ∨
    (s.resetAsserted = false ∧ releaseReset s = s) := by
  unfold releaseReset
  cases h : s.resetAsserted <;> simp

end Sys2Proof.Machine
end

