-- ==== Sys2Proof/Laws/Commands.lean ====
section
/-! SUPPORT. The running step of each command, said once: what a next state can be, guards included. -/

namespace Sys2Proof.Machine

theorem lenRun_next {s t : State} (h : lenRun s = .next t) : s.phase = .calculating ∧ t = lenCalc s := by
  unfold lenRun at h
  split at h
  · exact ⟨‹_›, by simpa using h.symm⟩
  · simp at h

theorem bofpRun_next {s t : State} (h : bofpRun s = .next t) : s.phase = .calculating ∧ t = bofpCalc s := by
  unfold bofpRun at h
  split at h
  · exact ⟨‹_›, by simpa using h.symm⟩
  · simp at h

theorem pofbRun_next {s t : State} (h : pofbRun s = .next t) : s.phase = .calculating ∧ t = pofbCalc s := by
  unfold pofbRun at h
  split at h
  · exact ⟨‹_›, by simpa using h.symm⟩
  · simp at h

/-- A sink transfer waits, goes on, ends the command, or fails (R136). -/
theorem encTransfer_cases (u : BitSeq) (i : Nat) (c : Bool) (s : State) :
    (s.sinkAnswers = [] ∧ encTransfer u i c s = s) ∨
    (∃ rest, s.sinkAnswers = .ok :: rest ∧ i + 1 < u.length ∧
      encTransfer u i c s = { countTransfer (takeSink c .ok rest s) with phase := .encSend u (i + 1) }) ∨
    (∃ rest, s.sinkAnswers = .ok :: rest ∧ u.length ≤ i + 1 ∧
      encTransfer u i c s = complete ((s.cnt + 1).setWidth 64) (s.cnt + 1) (encQ s) (encR s) false
        (countTransfer (takeSink c .ok rest s))) ∨
    (∃ e rest, s.sinkAnswers = .err e :: rest ∧
      encTransfer u i c s = raiseError .ioError e (encQ s) (encR s) (takeSink c (.err e) rest s)) := by
  unfold encTransfer
  split
  · exact .inl ⟨‹_›, rfl⟩
  · unfold encAdvance
    split
    · exact .inr (.inl ⟨_, ‹_›, ‹_›, rfl⟩)
    · exact .inr (.inr (.inl ⟨_, ‹_›, by omega, rfl⟩))
  · exact .inr (.inr (.inr ⟨_, _, ‹_›, rfl⟩))

theorem encRun_next {s t : State} (h : encRun s = .next t) :
    ∃ u i c, s.phase = .encSend u i ∧ u.bit? i = some c ∧ t = encTransfer u i c s := by
  unfold encRun at h
  split at h
  · split at h
    · exact ⟨_, _, _, ‹_›, ‹_›, by simpa using h.symm⟩
    · simp at h
  · simp at h

theorem decRun_next {s t : State} (h : decRun s = .next t) :
    (∃ qc, s.phase = .decU qc ∧ t = sourceTransfer qc (decUnaryBit qc) s) ∨
    (∃ q j acc, s.phase = .decP q j acc ∧ t = sourceTransfer q (decPrefixBit q j acc) s) ∨
    (∃ q acc, s.phase = .decX q acc ∧ t = sourceTransfer q (decExtraBit q acc) s) := by
  unfold decRun at h
  split at h
  · exact .inl ⟨_, ‹_›, by simpa using h.symm⟩
  · exact .inr (.inl ⟨_, _, _, ‹_›, by simpa using h.symm⟩)
  · exact .inr (.inr ⟨_, _, ‹_›, by simpa using h.symm⟩)
  · simp at h

/-- Recombination completes or overflows (R140). -/
theorem recombine_cases (q r : Nat) (s : State) :
    (q * s.bVal + r ≤ Config.maxWord ∧
      recombine q r s = complete (BitVec.ofNat 64 (q * s.bVal + r)) s.cnt (BitVec.ofNat 64 q) (BitVec.ofNat 64 r) false s) ∨
    (Config.maxWord < q * s.bVal + r ∧
      recombine q r s = raiseError .decOverflow 0 (BitVec.ofNat 64 q) (BitVec.ofNat 64 r) s) := by
  unfold recombine
  split
  · exact .inl ⟨‹_›, rfl⟩
  · exact .inr ⟨by omega, rfl⟩

/-- The shape of every end of a command that `recombine` makes. -/
theorem recombine_ends (q r : Nat) (s : State) :
    (∃ v n a c k, recombine q r s = complete v n a c k s) ∨ ∃ k e a c, recombine q r s = raiseError k e a c s := by
  rcases recombine_cases q r s with ⟨-, h⟩ | ⟨-, h⟩
  · exact .inl ⟨_, _, _, _, _, h⟩
  · exact .inr ⟨_, _, _, _, h⟩

/-- What the unary reader does with a bit (R137). -/
theorem decUnaryBit_cases (qc : Nat) (c : Bool) (s : State) :
    (c = true ∧ minBinK s.bVal = 0 ∧ decUnaryBit qc c s = recombine qc 0 s) ∨
    (c = true ∧ minBinK s.bVal ≠ 0 ∧ decUnaryBit qc c s = { s with phase := .decP qc 0 0 }) ∨
    (c = false ∧ qlim s.bVal < qc + 1 ∧ decUnaryBit qc c s =
      raiseError .decOverflow 0 (BitVec.ofNat 64 (min (qc + 1) Config.maxWord)) 0 s) ∨
    (c = false ∧ qc + 1 ≤ qlim s.bVal ∧ decUnaryBit qc c s = { s with phase := .decU (qc + 1) }) := by
  unfold decUnaryBit
  cases c
  · by_cases hq : qlim s.bVal < qc + 1
    · exact .inr (.inr (.inl ⟨rfl, hq, by simp [hq]⟩))
    · exact .inr (.inr (.inr ⟨rfl, by omega, by simp [hq]⟩))
  · by_cases hk : minBinK s.bVal = 0
    · exact .inl ⟨rfl, hk, by simp [hk]⟩
    · exact .inr (.inl ⟨rfl, hk, by simp [hk]⟩)

/-- What the prefix reader does with a bit (R138). -/
theorem decPrefixBit_cases (q j acc : Nat) (c : Bool) (s : State) :
    (j + 1 < minBinK s.bVal ∧
      decPrefixBit q j acc c s = { s with phase := .decP q (j + 1) (prefixStep s.lord j acc c) }) ∨
    (minBinK s.bVal ≤ j + 1 ∧ prefixStep s.lord j acc c < minBinU s.bVal ∧
      decPrefixBit q j acc c s = recombine q (prefixStep s.lord j acc c) s) ∨
    (minBinK s.bVal ≤ j + 1 ∧ minBinU s.bVal ≤ prefixStep s.lord j acc c ∧
      decPrefixBit q j acc c s = { s with phase := .decX q (prefixStep s.lord j acc c) }) := by
  unfold decPrefixBit
  split
  · exact .inl ⟨‹_›, rfl⟩
  · split
    · exact .inr (.inl ⟨by omega, ‹_›, rfl⟩)
    · exact .inr (.inr ⟨by omega, by omega, rfl⟩)

end Sys2Proof.Machine
end

