-- ==== Sys2Proof/Laws/Exec.lean ====
section
/-! SUPPORT. What `exec` of any command can do, said once: rules that hold of every command are derived from it. -/

namespace Sys2Proof.Machine

/-- How a command goes on from `s` after the answer to a transfer: to another phase, or to one of its two ends. -/
inductive Progress (s t : State) : Prop where
  | goes (ph : Phase) (hp : ph ≠ .idle) (h : t = { countTransfer s with phase := ph })
  | completes (v : Word) (n : Count) (q r : Word) (c : Bool) (h : t = complete v n q r c (countTransfer s))
  | overflows (q r : Word) (h : t = raiseError .decOverflow 0 q r (countTransfer s))
  | fails (e : IoCode) (q r : Word) (h : t = raiseError .ioError e q r s)

/-- What a command's meaning did. -/
inductive ExecEffect (i : Instr) (s t : State) : Prop where
  /-- The command was accepted and runs. -/
  | started (hb : s.status.busy = false) (ph : Phase) (hp : ph ≠ .idle) (h : t = { latch (encode i) s with phase := ph })
  /-- The command was accepted and its operand check failed. -/
  | failedCheck (hb : s.status.busy = false) (k : ErrKind) (hk : k = .invalidModulus ∨ k = .invalidParameter)
      (h : t = raiseError k 0 0 0 (latch (encode i) s))
  /-- Another command runs. -/
  | dropped (hb : s.status.busy = true) (hl : s.latched ≠ some i) (h : t = dropCommand s)
  /-- The collaborator is silent. -/
  | waits (hr : s.running i) (h : t = s)
  /-- A CALC command completed. -/
  | calculated (hr : s.running i) (hp : s.phase = .calculating) (he : ∀ o, i ≠ .enc o) (hd : ∀ o, i ≠ .dec o) (v : Word) (n : Count)
      (q r : Word) (c : Bool) (h : t = complete v n q r c s)
  /-- The sink answered. -/
  | sent (o : BitOrder) (hi : i = .enc o) (hr : s.running i) (c : Bool) (a : SinkAnswer) (rest : List SinkAnswer)
      (hs : s.sinkAnswers = a :: rest) (h : Progress (takeSink c a rest s) t)
  /-- The source answered. -/
  | received (o : BitOrder) (hi : i = .dec o) (hr : s.running i) (a : SourceAnswer) (rest : List SourceAnswer)
      (hs : s.sourceAnswers = a :: rest) (h : Progress (takeSource a rest s) t)

theorem recombine_progress (q r : Nat) (s : State) : Progress s (recombine q r (countTransfer s)) := by
  rcases recombine_cases q r (countTransfer s) with ⟨-, h⟩ | ⟨-, h⟩
  · exact .completes _ _ _ _ _ h
  · exact .overflows _ _ h

theorem sourceTransfer_effect {i : Instr} {o : BitOrder} {s t : State} {q : Nat} {onBit : Bool → State → State}
    (hi : i = .dec o) (hr : s.running i) (hon : ∀ c u, Progress u (onBit c (countTransfer u)))
    (h : t = sourceTransfer q onBit s) : ExecEffect i s t := by
  rcases sourceTransfer_cases q onBit s with ⟨-, h'⟩ | ⟨e, rest, hs, h'⟩ | ⟨c, rest, hs, h'⟩
  · exact .waits hr (h.trans h')
  · exact .received o hi hr _ rest hs (.fails _ _ _ (h.trans h'))
  · exact .received o hi hr _ rest hs (h.trans h' ▸ hon c _)

theorem decUnaryBit_progress (qc : Nat) (c : Bool) (u : State) : Progress u (decUnaryBit qc c (countTransfer u)) := by
  rcases decUnaryBit_cases qc c (countTransfer u) with ⟨-, -, h⟩ | ⟨-, -, h⟩ | ⟨-, -, h⟩ | ⟨-, -, h⟩
  · exact h ▸ recombine_progress _ _ _
  · exact .goes _ (by simp) h
  · exact .overflows _ _ h
  · exact .goes _ (by simp) h

theorem decPrefixBit_progress (q j acc : Nat) (c : Bool) (u : State) :
    Progress u (decPrefixBit q j acc c (countTransfer u)) := by
  rcases decPrefixBit_cases q j acc c (countTransfer u) with ⟨-, h⟩ | ⟨-, -, h⟩ | ⟨-, -, h⟩
  · exact .goes _ (by simp) h
  · exact h ▸ recombine_progress _ _ _
  · exact .goes _ (by simp) h

theorem decExtraBit_progress (q acc : Nat) (c : Bool) (u : State) : Progress u (decExtraBit q acc c (countTransfer u)) :=
  recombine_progress _ _ _

/-- Acceptance, as an effect. -/
theorem accept_effect {i : Instr} {check : State → Option ErrKind} {first : State → Phase} {s : State}
    (hb : s.status.busy = false) (hc : ∀ u k, check u = some k → k = .invalidModulus ∨ k = .invalidParameter)
    (hf : ∀ u, first u ≠ .idle) : ExecEffect i s (accept i check first s) := by
  rcases accept_cases i check first s with ⟨k, hk, h⟩ | ⟨-, h⟩
  · exact .failedCheck hb k (hc _ _ hk) h
  · exact .started hb _ (hf _) h

theorem checkModulus_kind (u : State) (k : ErrKind) (h : checkModulus u = some k) :
    k = .invalidModulus ∨ k = .invalidParameter := .inl (checkModulus_eq_some.mp h).2.symm

theorem checkParameter_kind (u : State) (k : ErrKind) (h : checkParameter u = some k) :
    k = .invalidModulus ∨ k = .invalidParameter := .inr (checkParameter_eq_some.mp h).2.symm

/-- The one inversion lemma of `exec`. -/
theorem exec_effect {i : Instr} {s t : State} (h : exec i s = .next t) : ExecEffect i s t := by
  cases i with
  | len o =>
    rcases command_cases (.len o) checkModulus (fun _ => .calculating) lenRun s with ⟨hb, h'⟩ | ⟨hb, hl, h'⟩ | ⟨hb, hl, h'⟩
    · obtain rfl := Host.Outcome.next.inj (h.symm.trans h')
      exact accept_effect hb checkModulus_kind (by simp)
    · obtain ⟨hp, rfl⟩ := lenRun_next (h'.symm.trans h)
      exact .calculated ⟨hb, hl⟩ hp (by simp) (by simp) _ _ _ _ _ rfl
    · exact .dropped hb hl (Host.Outcome.next.inj (h.symm.trans h'))
  | enc o =>
    rcases command_cases (.enc o) checkModulus encFirst encRun s with ⟨hb, h'⟩ | ⟨hb, hl, h'⟩ | ⟨hb, hl, h'⟩
    · obtain rfl := Host.Outcome.next.inj (h.symm.trans h')
      exact accept_effect hb checkModulus_kind (by simp [encFirst])
    · obtain ⟨u, i, c, -, -, ht⟩ := encRun_next (h'.symm.trans h)
      rcases encTransfer_cases u i c s with ⟨-, e⟩ | ⟨rest, hs, -, e⟩ | ⟨rest, hs, -, e⟩ | ⟨_, rest, hs, e⟩
      · exact .waits ⟨hb, hl⟩ (ht.trans e)
      · exact .sent o rfl ⟨hb, hl⟩ c _ rest hs (.goes _ (by simp) (ht.trans e))
      · exact .sent o rfl ⟨hb, hl⟩ c _ rest hs (.completes _ _ _ _ _ (ht.trans e))
      · exact .sent o rfl ⟨hb, hl⟩ c _ rest hs (.fails _ _ _ (ht.trans e))
    · exact .dropped hb hl (Host.Outcome.next.inj (h.symm.trans h'))
  | dec o =>
    rcases command_cases (.dec o) checkModulus (fun _ => .decU 0) decRun s with ⟨hb, h'⟩ | ⟨hb, hl, h'⟩ | ⟨hb, hl, h'⟩
    · obtain rfl := Host.Outcome.next.inj (h.symm.trans h')
      exact accept_effect hb checkModulus_kind (by simp)
    · rcases decRun_next (h'.symm.trans h) with ⟨qc, -, ht⟩ | ⟨q, j, acc, -, ht⟩ | ⟨q, acc, -, ht⟩
      · exact sourceTransfer_effect rfl ⟨hb, hl⟩ (decUnaryBit_progress qc) ht
      · exact sourceTransfer_effect rfl ⟨hb, hl⟩ (decPrefixBit_progress q j acc) ht
      · exact sourceTransfer_effect rfl ⟨hb, hl⟩ (decExtraBit_progress q acc) ht
    · exact .dropped hb hl (Host.Outcome.next.inj (h.symm.trans h'))
  | bofp o =>
    rcases command_cases (.bofp o) checkParameter (fun _ => .calculating) bofpRun s with ⟨hb, h'⟩ | ⟨hb, hl, h'⟩ | ⟨hb, hl, h'⟩
    · obtain rfl := Host.Outcome.next.inj (h.symm.trans h')
      exact accept_effect hb checkParameter_kind (by simp)
    · obtain ⟨hp, rfl⟩ := bofpRun_next (h'.symm.trans h)
      exact .calculated ⟨hb, hl⟩ hp (by simp) (by simp) _ _ _ _ _ rfl
    · exact .dropped hb hl (Host.Outcome.next.inj (h.symm.trans h'))
  | pofb o =>
    rcases command_cases (.pofb o) checkModulus (fun _ => .calculating) pofbRun s with ⟨hb, h'⟩ | ⟨hb, hl, h'⟩ | ⟨hb, hl, h'⟩
    · obtain rfl := Host.Outcome.next.inj (h.symm.trans h')
      exact accept_effect hb checkModulus_kind (by simp)
    · obtain ⟨hp, rfl⟩ := pofbRun_next (h'.symm.trans h)
      exact .calculated ⟨hb, hl⟩ hp (by simp) (by simp) _ _ _ _ _ rfl
    · exact .dropped hb hl (Host.Outcome.next.inj (h.symm.trans h'))

/-- With BUSY = 0 every command is accepted (R93). -/
theorem exec_free {i : Instr} {s : State} (h : s.status.busy = false) :
    ∃ check first, exec i s = .next (accept i check first s) := by
  cases i <;> simp only [exec, execLen, execEnc, execDec, execBofp, execPofb, command_free h] <;> exact ⟨_, _, rfl⟩

/-- What no command changes, whatever it did: the operand registers, the moves to come, BASE and the reset input. -/
theorem exec_keeps {i : Instr} {s t : State} (h : exec i s = .next t) :
    t.x = s.x ∧ t.b = s.b ∧ t.p = s.p ∧ t.moves = s.moves ∧ t.baseIndex = s.baseIndex ∧
      t.resetAsserted = s.resetAsserted := by
  rcases exec_effect h with ⟨-, _, -, rfl⟩ | ⟨-, _, -, rfl⟩ | ⟨-, -, rfl⟩ | ⟨-, rfl⟩ | ⟨-, -, -, -, _, _, _, _, _, rfl⟩ |
    ⟨_, -, -, _, _, _, -, h⟩ | ⟨_, -, -, _, _, -, h⟩
  · exact ⟨rfl, rfl, rfl, rfl, rfl, rfl⟩
  · exact ⟨rfl, rfl, rfl, rfl, rfl, rfl⟩
  · exact ⟨rfl, rfl, rfl, rfl, rfl, rfl⟩
  · exact ⟨rfl, rfl, rfl, rfl, rfl, rfl⟩
  · exact ⟨rfl, rfl, rfl, rfl, rfl, rfl⟩
  all_goals rcases h with ⟨_, -, rfl⟩ | ⟨_, _, _, _, _, rfl⟩ | ⟨_, _, rfl⟩ | ⟨_, _, _, rfl⟩ <;>
    exact ⟨rfl, rfl, rfl, rfl, rfl, rfl⟩

end Sys2Proof.Machine
end

