-- ==== Sys2Proof/Laws/Numeric.lean ====
section
/-! SUPPORT. The exact arithmetic of the parameter mappings: the fixed-point powers are bounds, so the tests are the exact ones,
and the search finds the last value that fails its test (R213, R214, R216). -/

namespace Sys2Proof.Machine

/-! ## Fixed-point powers are bounds -/

theorem le_ceilDiv (n : Nat) {d : Nat} (hd : 0 < d) : (n : ℚ) / d ≤ ceilDiv n d := by
  have hnat : n ≤ ceilDiv n d * d := by
    have := Nat.div_add_mod (n + (d - 1)) d
    have := Nat.mod_lt (n + (d - 1)) hd
    simp only [ceilDiv]
    rw [Nat.mul_comm]
    omega
  rw [div_le_iff₀ (by exact_mod_cast hd)]
  exact_mod_cast hnat

theorem pow_split (T : ℚ) (n : Nat) : T ^ n = (T ^ (n / 2)) ^ 2 * T ^ (n % 2) := by
  rw [← pow_mul, ← pow_add]
  congr 1
  omega

theorem powDown_le {k t : Nat} {T : ℚ} (ht : (t : ℚ) ≤ T * 2 ^ k) :
    ∀ fuel n, n < 2 ^ fuel → (powDown k t fuel n : ℚ) ≤ T ^ n * 2 ^ k := by
  intro fuel
  induction fuel with
  | zero =>
    intro n hn
    obtain rfl : n = 0 := by simpa using hn
    simp [powDown]
  | succ fuel ih =>
    intro n hn
    have hH := ih (n / 2) (by rw [pow_succ] at hn; omega)
    have hsq : ((powDown k t fuel (n / 2) ^ 2 / 2 ^ k : Nat) : ℚ) ≤ (T ^ (n / 2)) ^ 2 * 2 ^ k := by
      refine le_trans Nat.cast_div_le ?_
      push_cast
      rw [div_le_iff₀ (by positivity)]
      calc (powDown k t fuel (n / 2) : ℚ) ^ 2 ≤ (T ^ (n / 2) * 2 ^ k) ^ 2 := by gcongr
        _ = _ := by ring
    rw [powDown, pow_split T n]
    split
    next hodd =>
      rw [hodd, pow_one]
      refine le_trans Nat.cast_div_le ?_
      rw [div_le_iff₀ (by positivity), Nat.cast_mul]
      calc _ ≤ ((T ^ (n / 2)) ^ 2 * 2 ^ k) * (T * 2 ^ k) := by gcongr
        _ = _ := by push_cast; ring
    next heven =>
      rw [show n % 2 = 0 by omega, pow_zero, mul_one]
      exact hsq

theorem le_powUp {k t : Nat} {T : ℚ} (hT : 0 ≤ T) (ht : T * 2 ^ k ≤ (t : ℚ)) :
    ∀ fuel n, n < 2 ^ fuel → T ^ n * 2 ^ k ≤ (powUp k t fuel n : ℚ) := by
  intro fuel
  induction fuel with
  | zero =>
    intro n hn
    obtain rfl : n = 0 := by simpa using hn
    simp [powUp]
  | succ fuel ih =>
    intro n hn
    have hH := ih (n / 2) (by rw [pow_succ] at hn; omega)
    have hsq : (T ^ (n / 2)) ^ 2 * 2 ^ k ≤ (ceilDiv (powUp k t fuel (n / 2) ^ 2) (2 ^ k) : ℚ) := by
      refine le_trans ?_ (le_ceilDiv _ (by positivity))
      push_cast
      rw [le_div_iff₀ (by positivity)]
      calc _ = (T ^ (n / 2) * 2 ^ k) ^ 2 := by ring
        _ ≤ (powUp k t fuel (n / 2) : ℚ) ^ 2 := by gcongr
    rw [powUp, pow_split T n]
    split
    next hodd =>
      rw [hodd, pow_one]
      refine le_trans ?_ (le_ceilDiv _ (by positivity))
      rw [le_div_iff₀ (by positivity), Nat.cast_mul]
      calc _ = ((T ^ (n / 2)) ^ 2 * 2 ^ k) * (T * 2 ^ k) := by push_cast; ring
        _ ≤ _ := by gcongr
    next heven =>
      rw [show n % 2 = 0 by omega, pow_zero, mul_one]
      exact hsq

/-! ## The tests are exact -/

theorem firstDecided_eq {approx : Nat → Option Bool} {exact : Unit → Bool}
    (h : ∀ k c, approx k = some c → exact () = c) : ∀ ks, firstDecided approx exact ks = exact ()
  | [] => rfl
  | k :: ks => by
    rw [firstDecided]
    split
    · exact (h k _ ‹_›).symm
    · exact firstDecided_eq h ks

/-- The test of R214 as a statement about `1 - p = (2^e - m) / 2^e`. -/
theorem bofpExact_iff {m e : Nat} (hm : m ≤ 2 ^ e) (n : Nat) :
    bofpExact m e n = true ↔ (2 - (m : ℚ) / 2 ^ e) * (1 - (m : ℚ) / 2 ^ e) ^ n < 1 := by
  have hm2 : m ≤ 2 ^ (e + 1) := hm.trans (Nat.pow_le_pow_right (by norm_num) (by omega))
  have hE : (2 : ℚ) ^ e ≠ 0 := by positivity
  have e1 : (2 - (m : ℚ) / 2 ^ e) = ((2 ^ (e + 1) - m : Nat) : ℚ) / 2 ^ e := by
    push_cast [Nat.cast_sub hm2]; rw [pow_succ]; field_simp
  have e2 : (1 - (m : ℚ) / 2 ^ e) = ((2 ^ e - m : Nat) : ℚ) / 2 ^ e := by
    push_cast [Nat.cast_sub hm]; field_simp
  rw [bofpExact, decide_eq_true_iff, e1, e2, div_pow, div_mul_div_comm, div_lt_one (by positivity), ← pow_mul, ← pow_add,
    show e * (n + 1) = e + e * n by ring]
  exact_mod_cast Iff.rfl

theorem bofpApprox_sound {m e n k : Nat} {c : Bool} (hm : m ≤ 2 ^ e) (hn : n < 2 ^ 64) (h : bofpApprox m e n k = some c) :
    bofpExact m e n = c := by
  have hm2 : m ≤ 2 ^ (e + 1) := hm.trans (Nat.pow_le_pow_right (by norm_num) (by omega))
  have hT : (0 : ℚ) ≤ 1 - (m : ℚ) / 2 ^ e := by
    rw [sub_nonneg, div_le_one (by positivity)]; exact_mod_cast hm
  have e1 : (2 - (m : ℚ) / 2 ^ e) = ((2 ^ (e + 1) - m : Nat) : ℚ) / 2 ^ e := by
    push_cast [Nat.cast_sub hm2]; rw [pow_succ]; field_simp
  have e2 : (1 - (m : ℚ) / 2 ^ e) * 2 ^ k = ((2 ^ e - m) * 2 ^ k : Nat) / ((2 ^ e : Nat) : ℚ) := by
    push_cast [Nat.cast_sub hm]; field_simp
  have hup := le_powUp hT (by rw [e2]; exact le_ceilDiv ((2 ^ e - m) * 2 ^ k) (by positivity : 0 < 2 ^ e)) 64 n hn
  have hdn := powDown_le (T := 1 - (m : ℚ) / 2 ^ e) (k := k) (by rw [e2]; exact Nat.cast_div_le) 64 n hn
  unfold bofpApprox at h
  split at h
  next hlt =>
    obtain rfl : c = true := by simpa using h.symm
    have hlt' : ((2 ^ (e + 1) - m : Nat) : ℚ) * powUp k (ceilDiv ((2 ^ e - m) * 2 ^ k) (2 ^ e)) 64 n < 2 ^ k * 2 ^ e := by
      rw [← pow_add]; exact_mod_cast hlt
    rw [bofpExact_iff hm, e1, div_mul_eq_mul_div, div_lt_one (by positivity)]
    refine lt_of_mul_lt_mul_right (a := (2 : ℚ) ^ k) ?_ (by positivity)
    calc _ = ((2 ^ (e + 1) - m : Nat) : ℚ) * ((1 - (m : ℚ) / 2 ^ e) ^ n * 2 ^ k) := by ring
      _ ≤ ((2 ^ (e + 1) - m : Nat) : ℚ) * powUp k (ceilDiv ((2 ^ e - m) * 2 ^ k) (2 ^ e)) 64 n := by gcongr
      _ < 2 ^ k * 2 ^ e := hlt'
      _ = _ := by ring
  next =>
    split at h
    next hle =>
      obtain rfl : c = false := by simpa using h.symm
      have hle' : (2 : ℚ) ^ k * 2 ^ e ≤ ((2 ^ (e + 1) - m : Nat) : ℚ) * powDown k ((2 ^ e - m) * 2 ^ k / 2 ^ e) 64 n := by
        rw [← pow_add]; exact_mod_cast hle
      rw [Bool.eq_false_iff, ne_eq, bofpExact_iff hm, e1, div_mul_eq_mul_div, div_lt_one (by positivity), not_lt]
      refine le_of_mul_le_mul_right (a := (2 : ℚ) ^ k) ?_ (by positivity)
      calc _ = (2 : ℚ) ^ k * 2 ^ e := by ring
        _ ≤ ((2 ^ (e + 1) - m : Nat) : ℚ) * powDown k ((2 ^ e - m) * 2 ^ k / 2 ^ e) 64 n := hle'
        _ ≤ ((2 ^ (e + 1) - m : Nat) : ℚ) * ((1 - (m : ℚ) / 2 ^ e) ^ n * 2 ^ k) := by gcongr
        _ = _ := by ring
    next => simp at h

theorem bofpTest_eq {m e n : Nat} (hm : m ≤ 2 ^ e) (hn : n < 2 ^ 64) : bofpTest m e n = bofpExact m e n :=
  firstDecided_eq (exact := fun _ => bofpExact m e n) (fun _ _ h => bofpApprox_sound hm hn h) _

theorem pofbExact_iff (h b : Nat) : pofbExact h b = true ↔ 1 < 2 * ((h : ℚ) / 2 ^ 54) ^ b := by
  rw [pofbExact, decide_eq_true_iff, div_pow, mul_div_assoc', lt_div_iff₀ (by positivity), one_mul, ← pow_mul]
  exact_mod_cast Iff.rfl

theorem pofbApprox_sound {h b k : Nat} {c : Bool} (hb : b < 2 ^ 64) (hc : pofbApprox h b k = some c) : pofbExact h b = c := by
  have hT : (0 : ℚ) ≤ (h : ℚ) / 2 ^ 54 := by positivity
  have e2 : (h : ℚ) / 2 ^ 54 * 2 ^ k = ((h * 2 ^ k : Nat) : ℚ) / ((2 ^ 54 : Nat) : ℚ) := by push_cast; ring
  have hup := le_powUp hT (by rw [e2]; exact le_ceilDiv (h * 2 ^ k) (by positivity : 0 < 2 ^ 54)) 64 b hb
  have hdn := powDown_le (T := (h : ℚ) / 2 ^ 54) (k := k) (by rw [e2]; exact Nat.cast_div_le) 64 b hb
  unfold pofbApprox at hc
  split at hc
  next hle =>
    obtain rfl : c = false := by simpa using hc.symm
    have hle' : 2 * (powUp k (ceilDiv (h * 2 ^ k) (2 ^ 54)) 64 b : ℚ) ≤ 2 ^ k := by exact_mod_cast hle
    rw [Bool.eq_false_iff, ne_eq, pofbExact_iff, not_lt]
    refine le_of_mul_le_mul_right (a := (2 : ℚ) ^ k) ?_ (by positivity)
    rw [mul_assoc, one_mul]
    exact le_trans (mul_le_mul_of_nonneg_left hup (by norm_num)) hle'
  next =>
    split at hc
    next hlt =>
      obtain rfl : c = true := by simpa using hc.symm
      have hlt' : (2 : ℚ) ^ k < 2 * powDown k (h * 2 ^ k / 2 ^ 54) 64 b := by exact_mod_cast hlt
      rw [pofbExact_iff]
      refine lt_of_mul_lt_mul_right (a := (2 : ℚ) ^ k) ?_ (by positivity)
      rw [mul_assoc, one_mul]
      exact lt_of_lt_of_le hlt' (mul_le_mul_of_nonneg_left hdn (by norm_num))
    next => simp at hc

theorem pofbTest_eq {h b : Nat} (hb : b < 2 ^ 64) : pofbTest b h = pofbExact h b := by
  unfold pofbTest
  split
  next hh =>
    symm
    rw [pofbExact_iff]
    have : (1 : ℚ) ≤ (h : ℚ) / 2 ^ 54 := by rw [one_le_div (by positivity)]; exact_mod_cast hh
    linarith [one_le_pow₀ (n := b) this]
  next => exact firstDecided_eq (exact := fun _ => pofbExact h b) (fun _ _ hc => pofbApprox_sound hb hc) _

/-! ## The search -/

/-- For a test that goes on holding once it holds, the search ends at the last value that fails it. -/
theorem largestFailing_spec {test : Nat → Bool} : ∀ (bits acc : Nat), test acc = false →
    (∀ a c, a ≤ c → c < acc + 2 ^ bits → test a = true → test c = true) →
    acc ≤ largestFailing test bits acc ∧ largestFailing test bits acc < acc + 2 ^ bits ∧
      test (largestFailing test bits acc) = false ∧
      ∀ c, largestFailing test bits acc < c → c < acc + 2 ^ bits → test c = true := by
  intro bits
  induction bits with
  | zero =>
    intro acc h0 _
    refine ⟨le_refl _, by simp [largestFailing], h0, fun c h1 h2 => ?_⟩
    simp only [largestFailing, pow_zero] at h1 h2
    omega
  | succ bits ih =>
    intro acc h0 hm
    have hp : 2 ^ (bits + 1) = 2 ^ bits + 2 ^ bits := by rw [pow_succ]; omega
    have hpos : 0 < 2 ^ bits := by positivity
    rw [largestFailing]
    split
    next ht =>
      obtain ⟨h1, h2, h3, h4⟩ := ih acc h0 (fun a c hac hc => hm a c hac (by omega))
      refine ⟨h1, by omega, h3, fun c hc1 hc2 => ?_⟩
      rcases Nat.lt_or_ge c (acc + 2 ^ bits) with hlt | hge
      · exact h4 c hc1 hlt
      · exact hm _ c hge hc2 ht
    next ht =>
      obtain ⟨h1, h2, h3, h4⟩ := ih (acc + 2 ^ bits) (by simpa using ht) (fun a c hac hc => hm a c hac (by omega))
      exact ⟨by omega, by omega, h3, fun c hc1 hc2 => h4 c hc1 (by omega)⟩

/-- `2 - p > 1`, so the test of R214 fails at `n = 0`. -/
theorem bofpExact_zero {m e : Nat} (hm : m ≤ 2 ^ e) : bofpExact m e 0 = false := by
  rw [Bool.eq_false_iff, ne_eq, bofpExact_iff hm, pow_zero, mul_one, not_lt]
  have : (m : ℚ) / 2 ^ e ≤ 1 := by rw [div_le_one (by positivity)]; exact_mod_cast hm
  linarith

/-- The test of R214 goes on holding as `n` grows. -/
theorem bofpExact_mono {m e a c : Nat} (hm : m ≤ 2 ^ e) (hac : a ≤ c) (h : bofpExact m e a = true) : bofpExact m e c = true := by
  rw [bofpExact_iff hm] at h ⊢
  have h1 : (m : ℚ) / 2 ^ e ≤ 1 := by rw [div_le_one (by positivity)]; exact_mod_cast hm
  have h0 : (0 : ℚ) ≤ (m : ℚ) / 2 ^ e := by positivity
  refine lt_of_le_of_lt (mul_le_mul_of_nonneg_left (pow_le_pow_of_le_one ?_ ?_ hac) ?_) h <;> linarith

/-- `h / 2^54 > 2^(-1/b)` goes on holding as `h` grows. -/
theorem pofbExact_mono {a c b : Nat} (hac : a ≤ c) (h : pofbExact a b = true) : pofbExact c b = true := by
  rw [pofbExact, decide_eq_true_iff] at h ⊢
  exact lt_of_lt_of_le h (Nat.mul_le_mul_left 2 (Nat.pow_le_pow_left hac b))

/-! ## binary64 operands in the open unit interval (R97) -/

theorem inOpenUnit_bounds {w : Word} (h : inOpenUnit w = true) : 0 < significand w ∧ significand w < 2 ^ scale w := by
  simp only [inOpenUnit, Bool.and_eq_true, Bool.not_eq_true', bne_iff_ne, ne_eq, decide_eq_true_iff] at h
  obtain ⟨⟨hs, h0⟩, he⟩ := h
  have hf : fracField w < 2 ^ 52 := (w.extractLsb' 0 52).isLt
  unfold significand scale
  split
  next hz =>
    refine ⟨Nat.pos_of_ne_zero fun hf0 => h0 ?_, hf.trans (Nat.pow_lt_pow_right Nat.one_lt_two (by decide))⟩
    have hz' : w.extractLsb' 52 11 = 0 := BitVec.eq_of_toNat_eq hz
    have hf0' : w.extractLsb' 0 52 = 0 := BitVec.eq_of_toNat_eq hf0
    apply BitVec.eq_of_getLsbD_eq
    intro i hi
    rcases Nat.lt_or_ge i 52 with h52 | h52
    · have := congrArg (fun v => v.getLsbD i) hf0'
      simpa [h52] using this
    · rcases Nat.lt_or_ge i 63 with h63 | h63
      · have := congrArg (fun v => v.getLsbD (i - 52)) hz'
        simpa [show i - 52 < 11 by omega, show 52 + (i - 52) = i by omega] using this
      · obtain rfl : i = 63 := by omega
        simpa using hs
  next hz =>
    refine ⟨by omega, lt_of_lt_of_le (b := 2 ^ 53) (by omega) (Nat.pow_le_pow_right (by norm_num) (by omega))⟩

/-- What `bofp`'s search finds: the last `n < 2^64` that fails the exact test (R214). -/
theorem bofpBelow_spec {w : Word} (h : inOpenUnit w = true) :
    bofpBelow w < 2 ^ 64 ∧ bofpExact (significand w) (scale w) (bofpBelow w) = false ∧
      ∀ c, bofpBelow w < c → c < 2 ^ 64 → bofpExact (significand w) (scale w) c = true := by
  have hm := (inOpenUnit_bounds h).2.le
  obtain ⟨-, h2, h3, h4⟩ := largestFailing_spec (test := bofpTest (significand w) (scale w)) 64 0
    (by rw [bofpTest_eq hm (by norm_num), bofpExact_zero hm])
    (fun a c hac hc ha => by
      rw [bofpTest_eq hm (by omega)] at ha ⊢
      exact bofpExact_mono hm hac ha)
  rw [zero_add] at h2 h4
  change bofpBelow w < _ at h2
  change bofpTest _ _ (bofpBelow w) = false at h3
  refine ⟨h2, ?_, fun c h5 h6 => ?_⟩
  · rw [← bofpTest_eq hm h2]; exact h3
  · rw [← bofpTest_eq hm h6]; exact h4 c h5 h6

/-- What `pofb`'s search finds: the last step count whose lower midpoint is below `2^(-1/b)` (R215). -/
theorem pofbSteps_spec {b : Nat} (hb0 : 0 < b) (hb : b < 2 ^ 64) :
    pofbSteps b ≤ 2 ^ 52 ∧ pofbExact (2 * (2 ^ 52 + pofbSteps b) - 1) b = false ∧
      pofbExact (2 * (2 ^ 52 + pofbSteps b) + 1) b = true := by
  have h0 : pofbExact (2 * (2 ^ 52 + 0) - 1) b = false := by
    rw [Bool.eq_false_iff, ne_eq, pofbExact_iff, not_lt]
    have : (((2 * (2 ^ 52 + 0) - 1 : Nat) : ℚ) / 2 ^ 54) ^ b ≤ (((2 * (2 ^ 52 + 0) - 1 : Nat) : ℚ) / 2 ^ 54) ^ 1 :=
      pow_le_pow_of_le_one (by positivity) (by norm_num) hb0
    refine le_trans (mul_le_mul_of_nonneg_left this (by norm_num)) ?_
    norm_num
  obtain ⟨-, h2, h3, h4⟩ := largestFailing_spec (test := fun d => pofbTest b (2 * (2 ^ 52 + d) - 1)) 53 0
    (by rw [pofbTest_eq hb]; exact h0)
    (fun a c hac _ ha => by
      rw [pofbTest_eq hb] at ha ⊢
      exact pofbExact_mono (by omega) ha)
  rw [pofbTest_eq hb] at h3
  change pofbSteps b < _ at h2
  change pofbExact (2 * (2 ^ 52 + pofbSteps b) - 1) b = false at h3
  have hle : pofbSteps b ≤ 2 ^ 52 := by
    by_contra hgt
    rw [← pofbTest_eq hb, pofbTest, if_pos (by omega)] at h3
    simp at h3
  refine ⟨hle, h3, ?_⟩
  have := h4 (pofbSteps b + 1) (Nat.lt_succ_self _) (by norm_num at hle ⊢; omega)
  rw [pofbTest_eq hb] at this
  exact this

end Sys2Proof.Machine
end

