-- ==== Sys2Proof/Laws/PerInstr.lean ====
section
/-! SUPPORT. Statements made per command, one lemma per constructor. -/

namespace Sys2Proof.Laws.EncodesLegal

/-- The command is well-formed and its word is legal (R94). -/
def Statement (i : Instr) : Prop := i.wf = true ∧ legalWord (encode i) = true

theorem len (ord : BitOrder) : Statement (.len ord) := by cases ord <;> exact ⟨rfl, rfl⟩
theorem enc (ord : BitOrder) : Statement (.enc ord) := by cases ord <;> exact ⟨rfl, rfl⟩
theorem dec (ord : BitOrder) : Statement (.dec ord) := by cases ord <;> exact ⟨rfl, rfl⟩
theorem bofp (ord : BitOrder) : Statement (.bofp ord) := by cases ord <;> exact ⟨rfl, rfl⟩
theorem pofb (ord : BitOrder) : Statement (.pofb ord) := by cases ord <;> exact ⟨rfl, rfl⟩

end Sys2Proof.Laws.EncodesLegal
end

