-- ==== Sys2Proof/Laws/Step.lean ====
section
/-! SUPPORT. What one step can do, said once; every rule about the whole machine is derived from it. -/

namespace Sys2Proof.Machine

/-- `s` with other moves to come and another record of what the outside has seen: the part of the state no rule reads. -/
def State.around (s : State) (ms : List Move) (tr : List Event) : State := { s with moves := ms, trace := tr }

@[simp] theorem around_status (s : State) (ms tr) : (s.around ms tr).status = s.status := rfl
@[simp] theorem around_x (s : State) (ms tr) : (s.around ms tr).x = s.x := rfl
@[simp] theorem around_b (s : State) (ms tr) : (s.around ms tr).b = s.b := rfl
@[simp] theorem around_p (s : State) (ms tr) : (s.around ms tr).p = s.p := rfl
@[simp] theorem around_result (s : State) (ms tr) : (s.around ms tr).result = s.result := rfl
@[simp] theorem around_nbits (s : State) (ms tr) : (s.around ms tr).nbits = s.nbits := rfl
@[simp] theorem around_q (s : State) (ms tr) : (s.around ms tr).q = s.q := rfl
@[simp] theorem around_r (s : State) (ms tr) : (s.around ms tr).r = s.r := rfl
@[simp] theorem around_ioerr (s : State) (ms tr) : (s.around ms tr).ioerr = s.ioerr := rfl
@[simp] theorem around_lx (s : State) (ms tr) : (s.around ms tr).lx = s.lx := rfl
@[simp] theorem around_lb (s : State) (ms tr) : (s.around ms tr).lb = s.lb := rfl
@[simp] theorem around_lp (s : State) (ms tr) : (s.around ms tr).lp = s.lp := rfl
@[simp] theorem around_lop (s : State) (ms tr) : (s.around ms tr).lop = s.lop := rfl
@[simp] theorem around_lord (s : State) (ms tr) : (s.around ms tr).lord = s.lord := rfl
@[simp] theorem around_phase (s : State) (ms tr) : (s.around ms tr).phase = s.phase := rfl
@[simp] theorem around_cnt (s : State) (ms tr) : (s.around ms tr).cnt = s.cnt := rfl
@[simp] theorem around_resetAsserted (s : State) (ms tr) : (s.around ms tr).resetAsserted = s.resetAsserted := rfl
@[simp] theorem around_baseIndex (s : State) (ms tr) : (s.around ms tr).baseIndex = s.baseIndex := rfl
@[simp] theorem around_sinkAnswers (s : State) (ms tr) : (s.around ms tr).sinkAnswers = s.sinkAnswers := rfl
@[simp] theorem around_sourceAnswers (s : State) (ms tr) : (s.around ms tr).sourceAnswers = s.sourceAnswers := rfl
@[simp] theorem around_moves (s : State) (ms tr) : (s.around ms tr).moves = ms := rfl
@[simp] theorem around_trace (s : State) (ms tr) : (s.around ms tr).trace = tr := rfl
@[simp] theorem around_latched (s : State) (ms tr) : (s.around ms tr).latched = s.latched := rfl
@[simp] theorem around_xVal (s : State) (ms tr) : (s.around ms tr).xVal = s.xVal := rfl
@[simp] theorem around_bVal (s : State) (ms tr) : (s.around ms tr).bVal = s.bVal := rfl

/-- What one step did, with the move that made it. `s₁` is the state before, the move taken off and the bus event recorded. -/
inductive StepEffect (s s₁ t : State) : Prop where
  /-- Nothing in the block. -/
  | quiet (h : t = s₁)
  /-- A host write replaced X. -/
  | wroteX (v : Word) (hm : s.nextWrites .x v) (hr : s.resetAsserted = false) (h : t = { s₁ with x := v })
  /-- A host write replaced B. -/
  | wroteB (v : Word) (hm : s.nextWrites .b v) (hr : s.resetAsserted = false) (h : t = { s₁ with b := v })
  /-- A host write replaced P. -/
  | wroteP (v : Word) (hm : s.nextWrites .p v) (hr : s.resetAsserted = false) (h : t = { s₁ with p := v })
  /-- A host write to CMD was dropped. -/
  | dropped (w : Word) (hm : s.nextWrites .cmd w) (hr : s.resetAsserted = false) (hb : s.status.busy = true)
      (h : t = dropCommand s₁)
  /-- A host write to CMD was accepted and its word is illegal. -/
  | illegal (w : Word) (hm : s.nextWrites .cmd w) (hr : s.resetAsserted = false) (hb : s.status.busy = false)
      (hd : ∃ e, decode w = .error e) (h : t = acceptIllegal w s₁)
  /-- A host write to CMD was accepted as the command `i`. -/
  | accepted (w : Word) (i : Instr) (hm : s.nextWrites .cmd w) (hr : s.resetAsserted = false) (hb : s.status.busy = false)
      (hd : decode w = .ok i) (h : exec i s₁ = .next t)
  /-- The running command took its step. -/
  | ran (i : Instr) (hb : s.status.busy = true) (hl : s.latched = some i) (h : exec i s₁ = .next t)
  /-- The reset input was asserted. -/
  | asserted (hm : s.moves.head? = some .assertReset) (h : t = assertReset s₁)
  /-- The reset input was released. -/
  | released (hm : s.moves.head? = some .releaseReset) (h : t = releaseReset s₁)

/-- A step whose move is an accepted host write. -/
theorem step_nextWrites {s : State} {g : Reg} {v : Word} (h : s.nextWrites g v) :
    step s = writeOffset g.offset v (s.around s.moves.tail (.bus (writeAccess s g v) .writeDone :: s.trace)) := by
  obtain ⟨ms, hms⟩ := List.head?_eq_some_iff.mp h
  have hw : windowOffset { s with moves := ms } (s.base + g.offset) = some g.offset :=
    windowOffset_base { s with moves := ms } g.offset_lt
  simp only [step, hms, doMove, busAccess]
  rw [show (writeAccess s g v).addr = s.base + g.offset from rfl, hw]
  simp only [show (writeAccess s g v).width = 8 from rfl, g.offset_mod, and_self, if_true]
  rfl

/-- The block's own step while a command runs. -/
theorem blockStep_running {s : State} {i : Instr} (h : s.running i) : blockStep s = exec i s := by
  simp only [blockStep, h.1, h.2, if_true]

/-- With BUSY = 0 the block's own step changes nothing (R252). -/
theorem blockStep_free {s : State} (h : s.free) : blockStep s = .next s := by
  unfold State.free at h
  simp [blockStep, h]

theorem blockStep_effect {s t : State} {ms : List Move} {tr : List Event} (h : blockStep (s.around ms tr) = .next t) :
    StepEffect s (s.around ms tr) t := by
  unfold blockStep at h
  split at h
  next hb =>
    split at h
    next i hl => exact .ran i hb hl h
    next => simp at h
  next => exact .quiet (by simpa using h.symm)

theorem Reg.offset_of_ofOffset {off : Nat} {g : Reg} (h : Reg.ofOffset off = some g) : off = g.offset := by
  unfold Reg.ofOffset at h
  split at h <;> first | (obtain rfl := Option.some.inj h; rfl) | simp at h

theorem windowOffset_eq_some {s : State} {addr off : Nat} :
    windowOffset s addr = some off ↔ addr = s.base + off ∧ off < Config.windowSize := by
  unfold windowOffset
  split <;> simp only [Option.some.injEq, reduceCtorEq, false_iff] <;> omega

theorem nextWrites_of_access {s : State} {a : BusAccess} {off : Nat} {v : Word} {g : Reg}
    (hm : s.moves.head? = some (.bus a)) (hk : a.kind = .write v) (hw : a.width = 8) (ho : windowOffset s a.addr = some off)
    (hg : Reg.ofOffset off = some g) : s.nextWrites g v := by
  obtain ⟨addr, width, kind⟩ := a
  simp only at hk hw ho
  rw [State.nextWrites, hm, writeAccess, ← Reg.offset_of_ofOffset hg, ← (windowOffset_eq_some.mp ho).1, hk, hw]

theorem writeOffset_effect {s t : State} {off : Nat} {v : Word} {a : BusAccess} {ms : List Move} {tr : List Event}
    (hm : s.moves.head? = some (.bus a)) (hk : a.kind = .write v) (hw : a.width = 8) (ho : windowOffset s a.addr = some off)
    (h : writeOffset off v (s.around ms tr) = .next t) : StepEffect s (s.around ms tr) t := by
  unfold writeOffset at h
  split at h
  next => exact .quiet (by simpa using h.symm)
  next hr =>
    have hr : s.resetAsserted = false := by simpa using hr
    have hn : ∀ {g}, Reg.ofOffset off = some g → s.nextWrites g v := nextWrites_of_access hm hk hw ho
    split at h
    next hg => exact .wroteX v (hn hg) hr (by simpa using h.symm)
    next hg => exact .wroteB v (hn hg) hr (by simpa using h.symm)
    next hg => exact .wroteP v (hn hg) hr (by simpa using h.symm)
    next hg =>
      unfold writeCmd at h
      split at h
      next hb => exact .dropped v (hn hg) hr hb (by simpa using h.symm)
      next hb =>
        have hb : s.status.busy = false := by simpa using hb
        split at h
        next i hd => exact .accepted v i (hn hg) hr hb hd h
        next e hd => exact .illegal v (hn hg) hr hb ⟨e, hd⟩ (by simpa using h.symm)
    next => exact .quiet (by simpa using h.symm)

/-- The one inversion lemma of `step`. The step adds at most one bus event of its own to the trace. -/
theorem step_effect {s t : State} (h : step s = .next t) :
    ∃ ms tr, (tr = s.trace ∨ ∃ a resp, tr = .bus a resp :: s.trace) ∧ StepEffect s (s.around ms tr) t := by
  unfold step at h
  split at h
  next => exact ⟨s.moves, s.trace, .inl rfl, blockStep_effect (s := s) h⟩
  next m rest hm =>
    cases m with
    | block => exact ⟨rest, s.trace, .inl rfl, blockStep_effect (s := s) h⟩
    | bus a =>
      simp only [doMove, busAccess] at h
      split at h
      next => exact ⟨rest, _, .inr ⟨_, _, rfl⟩, .quiet (by simpa [State.around, State.observe] using h.symm)⟩
      next off ho =>
        split at h
        next hw =>
          split at h
          next => exact ⟨rest, _, .inr ⟨_, _, rfl⟩, .quiet (by simpa [State.around, State.observe] using h.symm)⟩
          next v hk =>
            exact ⟨rest, .bus a .writeDone :: s.trace, .inr ⟨_, _, rfl⟩, writeOffset_effect (by simp [hm]) hk hw.1 ho h⟩
        next => exact ⟨rest, _, .inr ⟨_, _, rfl⟩, .quiet (by simpa [State.around, State.observe] using h.symm)⟩
    | poll =>
      simp only [doMove, pollStatus] at h
      split at h
      next => exact ⟨.poll :: rest, _, .inr ⟨_, _, rfl⟩, blockStep_effect (s := s) h⟩
      next => exact ⟨rest, _, .inr ⟨_, _, rfl⟩, .quiet (by simpa [State.around, observeStatus, State.observe] using h.symm)⟩
    | assertReset =>
      exact ⟨rest, s.trace, .inl rfl, .asserted (by simp [hm]) (by simpa [doMove, State.around] using h.symm)⟩
    | releaseReset =>
      exact ⟨rest, s.trace, .inl rfl, .released (by simp [hm]) (by simpa [doMove, State.around] using h.symm)⟩
    | lateAnswer => exact ⟨rest, s.trace, .inl rfl, .quiet (by simpa [doMove, State.around] using h.symm)⟩

end Sys2Proof.Machine
end

