-- ==== Sys2Proof/Tests/Slice0.lean ====
section
/-! SUPPORT. Tests, with values from spec/95_test_vectors.md, and one witness for every statement that has hypotheses. -/

namespace Sys2Proof.Tests

open Sys2Proof Sys2Proof.Machine

/-! ## Helpers -/

/-- The state of an answer. -/
def nextOf : Result → Option State
  | .next t => some t
  | .fault _ => none
  | .refused _ => none

/-- The reset state with operands. -/
def withOperands (x b p : Word) : State := { State.reset with x := x, b := b, p := p }

/-- Command `i` running in phase `ph`, with its operands latched. -/
def running (i : Instr) (ph : Phase) (x b p : Word) : State := { latch (encode i) (withOperands x b p) with phase := ph }

/-- RESULT, NBITS, Q, R and the STATUS word. -/
def results (s : State) : Word × Word × Word × Word × Word := (s.result, s.nbits, s.q, s.r, s.status.word)

/-- What the completed CMD write `w` leaves in STATUS. -/
def statusAfterCmd (w : Word) (s : State) : Option Word := (nextOf (writeCmd w s)).map fun t => t.status.word

/-- `s` with one bus access to come. -/
def withAccess (a : BusAccess) (s : State) : State := { s with moves := [.bus a] }

/-- `s` with one write of a register to come. -/
def withWrite (g : Reg) (v : Word) (s : State) : State := withAccess (writeAccess s g v) s

/-- An `enc` of 10 under 3, waiting at its bit `i`, with the sink's answers to come. -/
def enc103 (i : Nat) (as : List SinkAnswer) : State :=
  { running (.enc .be) (.encSend (golombBits 10 3 .be) i) 10 3 0 with cnt := BitVec.ofNat 65 i, sinkAnswers := as }

/-- A `dec` under `b` in phase `ph`, with `n` bits read and the source's answers to come. -/
def decAt (o : BitOrder) (b : Word) (ph : Phase) (n : Nat) (as : List SourceAnswer) : State :=
  { running (.dec o) ph 0 b 0 with cnt := BitVec.ofNat 65 n, sourceAnswers := as }

/-! ## What the checks refuse (R63, R94) -/

theorem test_wf_reserved_op : legalWord 0x0 = false ∧ legalWord 0x6 = false ∧ legalWord 0xF = false := by decide

theorem test_wf_rsv1 : legalWord 0x11 = false ∧ legalWord 0x85 = false := by decide

theorem test_wf_rsv2 : legalWord 0x201 = false ∧ legalWord 0x8000_0000_0000_0002 = false := by decide

theorem test_wf_legal : legalWord 0x1 = true ∧ legalWord 0x105 = true := by decide

theorem test_wf_access : accessWellFormed 4 0x18 = false ∧ accessWellFormed 8 0x1C = false ∧
    accessWellFormed 8 0x18 = true := by decide

/-! ## Words written out from R90 and R91: RSV2, ORD, RSV1, OP -/

theorem test_decode_len : decode (0#55 ++ 0#1 ++ 0b0000#4 ++ 0b0001#4) = .ok (.len .be) ∧
    decode (0#55 ++ 1#1 ++ 0b0000#4 ++ 0b0001#4) = .ok (.len .le) := ⟨rfl, rfl⟩

theorem test_decode_enc : decode (0#55 ++ 0#1 ++ 0b0000#4 ++ 0b0010#4) = .ok (.enc .be) ∧
    decode (0#55 ++ 1#1 ++ 0b0000#4 ++ 0b0010#4) = .ok (.enc .le) := ⟨rfl, rfl⟩

theorem test_decode_dec : decode (0#55 ++ 0#1 ++ 0b0000#4 ++ 0b0011#4) = .ok (.dec .be) ∧
    decode (0#55 ++ 1#1 ++ 0b0000#4 ++ 0b0011#4) = .ok (.dec .le) := ⟨rfl, rfl⟩

theorem test_decode_bofp : decode (0#55 ++ 0#1 ++ 0b0000#4 ++ 0b0100#4) = .ok (.bofp .be) ∧
    decode (0#55 ++ 1#1 ++ 0b0000#4 ++ 0b0100#4) = .ok (.bofp .le) := ⟨rfl, rfl⟩

theorem test_decode_pofb : decode (0#55 ++ 0#1 ++ 0b0000#4 ++ 0b0101#4) = .ok (.pofb .be) ∧
    decode (0#55 ++ 1#1 ++ 0b0000#4 ++ 0b0101#4) = .ok (.pofb .le) := ⟨rfl, rfl⟩

theorem test_decode_rejects : decode 0x0 = .error (.reservedOp 0) ∧ decode 0x16 = .error .reservedBits1 ∧
    decode 0x201 = .error .reservedBits2 ∧ decodeBytes [1, 0, 0] = .error (.notEightBytes 3) := ⟨rfl, rfl, rfl, rfl⟩

/-- The lowest address carries bits 7 to 0 (R64). -/
theorem test_decode_bytes : decodeBytes [0x02, 0x01, 0, 0, 0, 0, 0, 0] = .ok (.enc .le) := rfl

theorem test_table_word : decodeTableWord 64 0x103 = some (.dec .le) ∧ decodeTableWord 64 0x6 = none := ⟨rfl, rfl⟩

/-- V8, "after reset", and P4's first command, placed by the host. -/
theorem test_placed_word : (nextOf (step (State.reset.withFetchWord 64 0x2))).map (fun t => t.status.word) = some 0x2_0202 := by
  decide

/-! ## Codewords (95 V2, V4) -/

theorem test_code_7_5 : (golombBits 7 5 .be).toList = [false, true, true, false] ∧
    (golombBits 7 5 .le).toList = [false, true, false, true] := by decide

theorem test_code_18_11 : (golombBits 18 11 .be).toList = [false, true, true, true, false, false] ∧
    (golombBits 18 11 .le).toList = [false, true, false, true, true, false] := by decide

theorem test_code_long_prefix : minBinBits 1 (2 ^ 64 - 1) .be = List.replicate 62 false ++ [true, false] ∧
    minBinBits 1 (2 ^ 64 - 1) .le = true :: List.replicate 63 false := by decide

/-! ## Commands, one step each -/

/-- V3: `len` of 10 under 3. -/
theorem test_len_10_3 : (nextOf (exec (.len .be) (running (.len .be) .calculating 10 3 0))).map results =
    some (6, 6, 3, 1, 0x0001_0002) := by decide

/-- V3: the length 2^64 needs bit 64. -/
theorem test_len_longest : (nextOf (exec (.len .be) (running (.len .be) .calculating (-1) 1 0))).map results =
    some (0, 0, -1, 0, 0x0001_000A) := by decide

/-- V4: the sixth bit of 10 under 3 ends the command. -/
theorem test_enc_last_bit : (nextOf (exec (.enc .be) (enc103 5 [.ok]))).map results = some (6, 6, 3, 1, 0x0002_0002) := by decide

/-- V4: OK four times, then ERR(7). -/
theorem test_enc_error : (nextOf (exec (.enc .be) (enc103 4 [.err 7, .ok]))).map (fun t => (results t, t.ioerr, t.trace)) =
    some ((0, 4, 3, 1, 0x0002_0402), 7, [.sink true .be (.err 7)]) := by decide

/-- V5: under 11 in LE, the prefix 110 is 3, a short codeword. -/
theorem test_dec_prefix_le :
    (nextOf (exec (.dec .le) (decAt .le 11 (.decP 1 2 3) 4 [.ok false, .ok true]))).map results =
      some (14, 5, 1, 3, 0x0013_0002) := by decide

/-- V5: recombination to 2^64 overflows. -/
theorem test_dec_overflow :
    (nextOf (exec (.dec .be) (decAt .be 0x8000_0000_0000_0001 (.decX 1 (2 ^ 63 - 1)) 65 [.ok false]))).map results =
      some (0, 66, 1, 0x7FFF_FFFF_FFFF_FFFF, 0x0003_0502) := by decide

/-- V6: `bofp` of 0.1. -/
theorem test_bofp_tenth :
    (nextOf (exec (.bofp .be) (running (.bofp .be) .calculating 0 0 0x3FB9_9999_9999_999A))).map results =
      some (7, 0, 0, 0, 0x0004_0002) := by decide +kernel

/-- V6: the largest parameter that saturates. -/
theorem test_bofp_saturates :
    (nextOf (exec (.bofp .be) (running (.bofp .be) .calculating 0 0 0x3BE6_2E42_FEFA_39EF))).map results =
      some (0xFFFF_FFFF_FFFF_FFFF, 0, 0, 0, 0x0004_0012) := by decide +kernel

/-- V7: `pofb` of 2. -/
theorem test_pofb_2 :
    (nextOf (exec (.pofb .be) (running (.pofb .be) .calculating 0 2 0))).map results =
      some (0x3FE6_A09E_667F_3BCD, 0, 0, 0, 0x0005_0002) := by decide +kernel

/-- V7: the largest modulus below 1.0. -/
theorem test_pofb_below_one :
    (nextOf (exec (.pofb .be) (running (.pofb .be) .calculating 0 12486629536330718 0))).map results =
      some (0x3FEF_FFFF_FFFF_FFFF, 0, 0, 0, 0x0005_0002) := by decide +kernel

/-! ## Acceptance, hazards and the bus (95 V8) -/

theorem test_illegal_words : statusAfterCmd 0x0 State.reset = some 0x0102 ∧
    statusAfterCmd 0x6 State.reset = some 0x0006_0102 ∧ statusAfterCmd 0x11 State.reset = some 0x0001_0102 ∧
    statusAfterCmd 0x201 State.reset = some 0x0001_0102 ∧
    statusAfterCmd 0x8000_0000_0000_0002 State.reset = some 0x0002_0102 := by decide

theorem test_check_order : statusAfterCmd 0x102 State.reset = some 0x0012_0202 ∧
    statusAfterCmd 0x12 State.reset = some 0x0002_0102 ∧ statusAfterCmd 0x4 State.reset = some 0x0004_0302 ∧
    statusAfterCmd 0x1 (withOperands 0 0 0x7FF8_0000_0000_0000) = some 0x0001_0202 := by decide

theorem test_dropped_command : (nextOf (step (withWrite .cmd 1 (enc103 0 [])))).map (fun t => t.status.word) =
    some 0x0002_0005 := by decide

theorem test_status_write_ignored : (nextOf (step (withWrite .status 0xFFFF State.reset))).map (fun t => t.status.word) =
    some 0 := by decide

theorem test_narrow_read : (nextOf (step (withAccess ⟨0x18, 4, .read⟩ (withOperands 5 0 0)))).map (fun t => t.trace) =
    some [.bus ⟨0x18, 4, .read⟩ (.busError 0)] := by decide

theorem test_reads : (nextOf (step (withAccess ⟨0, 8, .read⟩ State.reset))).map (fun t => t.trace) =
      some [.bus ⟨0, 8, .read⟩ (.readData 0x0000_0001_474F_4C42)] ∧
    (nextOf (step (withAccess ⟨0x78, 8, .read⟩ State.reset))).map (fun t => t.trace) =
      some [.bus ⟨0x78, 8, .read⟩ (.readData 0)] := by decide

theorem test_outside_window : (nextOf (step (withAccess ⟨0x80, 8, .write 1⟩ State.reset))).map (fun t => t.trace) =
    some [.bus ⟨0x80, 8, .write 1⟩ .notDecoded] := by decide

/-! ## Witnesses: the hypotheses of each statement, met together -/

theorem witness_ByteLanesAreLittleEndian : (0x78 % 8 = 0 ∧ 0x78 < 0x80 ∧ 7 ≤ 7 ∧ 7 < 8) ∧ (0 % 8 = 0 ∧ 0 < 0x80 ∧ 0 ≤ 7 ∧ 0 < 8) := by
  decide

theorem witness_FieldBitsInStreamOrder : 0 ≤ 1 ∧ 1 ≤ 1 ∧ (0x2#64).getLsbD 8 = false ∧ (0x102#64).getLsbD 8 = true := by decide

/-- Modulus 1, and the largest modulus with a short and a long remainder. -/
theorem witness_MinimalBinaryCode : (1 ≤ 1 ∧ 1 ≤ 2 ^ 64 - 1 ∧ 0 < 1 ∧ 0 < 2 ^ (0 + 1) - 1) ∧
    (1 ≤ 2 ^ 64 - 1 ∧ 2 ^ 64 - 1 ≤ 2 ^ 64 - 1 ∧ 0 < 2 ^ 64 - 1 ∧ 0 < 2 ^ (63 + 1) - (2 ^ 64 - 1)) ∧
    (2 ^ 64 - 2 < 2 ^ 64 - 1 ∧ 2 ^ (63 + 1) - (2 ^ 64 - 1) ≤ 2 ^ 64 - 2) := by decide

theorem witness_MinimalBinaryLength : (1 ≤ 2 ^ 63 ∧ 2 ^ 63 ≤ 2 ^ 64 - 1 ∧ 2 ^ 63 - 1 < 2 ^ 63) ∧
    (1 ≤ 2 ^ 64 - 1 ∧ 2 ^ 64 - 2 < 2 ^ 64 - 1) ∧ (1 ≤ 1 ∧ 0 < 1) := by decide

theorem witness_CodewordLength : (2 ^ 64 - 1 < 2 ^ 64 ∧ 1 ≤ 1 ∧ 1 ≤ 2 ^ 64 - 1) ∧
    (0 < 2 ^ 64 ∧ 1 ≤ 2 ^ 64 - 1 ∧ 2 ^ 64 - 1 ≤ 2 ^ 64 - 1) := by decide

theorem witness_SpecialModuli : (1 ≤ 1 ∧ 1 ≤ 63 ∧ 1 < 2 ^ 1) ∧ (1 ≤ 63 ∧ 63 ≤ 63 ∧ 2 ^ 63 - 1 < 2 ^ 63) ∧
    0 < 2 ^ 64 - 1 ∧ 2 ^ 64 - 2 < 2 ^ 64 - 1 := by decide

theorem witness_CodewordsArePrefixFree : 1 ≤ 3 ∧ (golombBits 10 3 .be).toList <+: (golombBits 10 3 .be).toList :=
  ⟨by decide, List.prefix_refl _⟩

theorem witness_StepRunsTheDecodedCommand :
    ((withWrite .cmd 0x102 State.reset).free ∧ (withWrite .cmd 0x102 State.reset).resetAsserted = false ∧
      (withWrite .cmd 0x102 State.reset).nextWrites .cmd 0x102 ∧ decode 0x102 = .ok (.enc .le)) ∧
    ((enc103 0 [.ok]).running (.enc .be) ∧ (enc103 0 [.ok]).moves = []) ∧
    (State.running (.enc .be) { enc103 0 [.ok] with moves := [.block, .poll] } ∧
      ({ enc103 0 [.ok] with moves := [.block, .poll] } : State).moves = .block :: [.poll]) :=
  ⟨⟨rfl, rfl, rfl, rfl⟩, ⟨⟨rfl, rfl⟩, rfl⟩, ⟨rfl, rfl⟩, rfl⟩

theorem witness_PlacedWordRunsNext : decodeTableWord 64 0x102 = some (.enc .le) ∧ decodeTableWord 64 0x5 = some (.pofb .be) :=
  ⟨rfl, rfl⟩

/-- A busy block, and a free block with a word for each branch. -/
theorem witness_CmdWriteRule : (enc103 0 []).status.busy = true ∧ State.reset.status.busy = false ∧
    decode 0x11 = .error .reservedBits1 ∧ decode 0x1 = .ok (.len .be) ∧ State.reset.b = 0 ∧ decode 0x4 = .ok (.bofp .be) ∧
    inOpenUnit State.reset.p = false ∧ (withOperands 10 3 0).b ≠ 0 ∧ decode 0x2 = .ok (.enc .be) ∧
    decode 0x3 = .ok (.dec .be) ∧ inOpenUnit (withOperands 0 0 1).p = true := by
  refine ⟨rfl, rfl, rfl, rfl, rfl, rfl, by decide, by decide, rfl, rfl, by decide⟩

/-- The ends of the open unit interval. -/
theorem witness_AcceptedCommandsStart : (withOperands 10 3 1).free ∧ (withOperands 10 3 1).b ≠ 0 ∧
    inOpenUnit (withOperands 10 3 1).p = true ∧ inOpenUnit (withOperands 0 0 0x3FEF_FFFF_FFFF_FFFF).p = true :=
  ⟨rfl, by decide, by decide, by decide⟩

/-- +0.0, -0.0, 1.0 and a NaN. -/
theorem witness_FailedChecksCompleteAtOnce : State.reset.free ∧ State.reset.b = 0 ∧ inOpenUnit State.reset.p = false ∧
    inOpenUnit (withOperands 0 0 0x8000_0000_0000_0000).p = false ∧
    inOpenUnit (withOperands 0 0 0x3FF0_0000_0000_0000).p = false ∧
    inOpenUnit (withOperands 0 0 0x7FF8_0000_0000_0000).p = false :=
  ⟨rfl, rfl, by decide, by decide, by decide, by decide⟩

theorem witness_LastOpFollowsAcceptance : State.reset.status.busy = false ∧ (enc103 0 []).status.busy = true := ⟨rfl, rfl⟩

theorem witness_BusyCmdWriteIsDropped : (withWrite .cmd 1 (enc103 0 [])).status.busy = true ∧
    (withWrite .cmd 1 (enc103 0 [])).resetAsserted = false ∧ (withWrite .cmd 1 (enc103 0 [])).nextWrites .cmd 1 :=
  ⟨rfl, rfl, rfl⟩

theorem witness_ErrorWrites : ∃ t, State.reset.status.busy = false ∧ writeCmd 0 State.reset = .next t ∧ t.status.busy = false :=
  ⟨_, rfl, rfl, rfl⟩

theorem witness_LenCompletes : (running (.len .le) .calculating (-1) 1 0).running (.len .le) ∧
    (running (.len .le) .calculating (-1) 1 0).phase = .calculating ∧ (running (.len .le) .calculating (-1) 1 0).lb ≠ 0 :=
  ⟨⟨rfl, rfl⟩, rfl, by decide⟩

theorem witness_CalcTakesOneStep : (running (.len .be) .calculating 0 1 0).running (.len .be) ∧
    (running (.bofp .be) .calculating 0 0 1).running (.bofp .be) ∧
    (running (.pofb .be) .calculating 0 1 0).running (.pofb .be) ∧
    (running (.pofb .be) .calculating 0 1 0).phase = .calculating := ⟨⟨rfl, rfl⟩, ⟨rfl, rfl⟩, ⟨rfl, rfl⟩, rfl⟩

/-- The last bit of 000110, for each of the three answers. -/
theorem witness_EncTransferStep : ∀ as ∈ [[], [SinkAnswer.ok], [.err 7]],
    (enc103 5 as).running (.enc .be) ∧ (enc103 5 as).phase = .encSend (golombBits 10 3 .be) 5 ∧
      (golombBits 10 3 .be).toList[5]? = some false ∧ (enc103 5 as).sinkAnswers = as := by
  intro as _
  exact ⟨⟨rfl, rfl⟩, rfl, by decide, rfl⟩

theorem witness_WhatTheSinkSees : (withOperands 10 3 0).free ∧ (withOperands 10 3 0).b ≠ 0 ∧ (withOperands 10 3 0).moves = [] ∧
    ({ withOperands 10 3 0 with sinkAnswers := [.ok, .ok, .ok, .ok, .ok, .ok] } : State).sinkAnswers =
      List.replicate (golombBits 10 3 .be).toList.length .ok ++ [] ∧
    (golombBits 10 3 .be).toList[2]? = some false ∧
    ({ withOperands 10 3 0 with sinkAnswers := [.ok, .ok, .err 0x2A] } : State).sinkAnswers =
      List.replicate 2 .ok ++ .err 0x2A :: [] :=
  ⟨rfl, by decide, rfl, by decide, by decide, rfl⟩

theorem witness_LengthAgreement : ({ withOperands 10 3 0 with sinkAnswers := List.replicate 6 .ok } : State).sinkAnswers =
    List.replicate (golombBits 10 3 .be).length .ok ++ [] ∧ (withOperands 10 3 0).free ∧ (withOperands 10 3 0).b ≠ 0 ∧
    (withOperands 10 3 0).moves = [] := ⟨by decide, rfl, by decide, rfl⟩

/-- The first 0 bit and the last admitted one, the terminator, an error and no answer. -/
theorem witness_DecUnaryStep : ∀ as ∈ [[], [SourceAnswer.ok false], [.ok true], [.err 9]], ∀ qc ∈ [0, 1],
    (decAt .be 0x8000_0000_0000_0001 (.decU qc) qc as).running (.dec .be) ∧
      (decAt .be 0x8000_0000_0000_0001 (.decU qc) qc as).phase = .decU qc ∧
      (decAt .be 0x8000_0000_0000_0001 (.decU qc) qc as).lb ≠ 0 ∧
      (decAt .be 0x8000_0000_0000_0001 (.decU qc) qc as).sourceAnswers = as := by
  intro as _ qc _
  exact ⟨⟨rfl, rfl⟩, rfl, (by decide : (0x8000_0000_0000_0001 : Word) ≠ 0), rfl⟩

theorem witness_DecPrefixStep : ∀ as ∈ [[], [SourceAnswer.ok false], [.ok true], [.err 9]], ∀ o ∈ [BitOrder.be, .le],
    (decAt o 11 (.decP 1 2 3) 4 as).running (.dec o) ∧ (decAt o 11 (.decP 1 2 3) 4 as).phase = .decP 1 2 3 ∧
      (decAt o 11 (.decP 1 2 3) 4 as).lb ≠ 0 ∧ (decAt o 11 (.decP 1 2 3) 4 as).sourceAnswers = as := by
  intro as _ o _
  exact ⟨⟨rfl, by cases o <;> rfl⟩, rfl, (by decide : (11 : Word) ≠ 0), rfl⟩

/-- Under 11 the size of the short sub-range is 5, and the prefixes of long codewords are 5 to 7. -/
theorem witness_DecExtraStep : (∀ as ∈ [[], [SourceAnswer.ok false], [.ok true], [.err 9]],
    (decAt .be 11 (.decX 1 5) 5 as).running (.dec .be) ∧ (decAt .be 11 (.decX 1 5) 5 as).phase = .decX 1 5 ∧
      (decAt .be 11 (.decX 1 5) 5 as).lb ≠ 0 ∧ (decAt .be 11 (.decX 1 5) 5 as).sourceAnswers = as) ∧
    (minBinU 11 ≤ 5 ∧ 7 < 2 ^ minBinK 11) := by
  exact ⟨fun as _ => ⟨⟨rfl, rfl⟩, rfl, (by decide : (11 : Word) ≠ 0), rfl⟩, by decide, by decide⟩

theorem witness_RecombineRule : 1 ≤ 2 ^ 63 + 1 ∧ 1 ≤ (2 ^ 64 - 1) / (2 ^ 63 + 1) ∧ 2 ^ 63 - 1 < 2 ^ 63 + 1 ∧
    2 ^ 64 - 1 < 1 * (2 ^ 63 + 1) + (2 ^ 63 - 1) := by decide

/-- 95 V5: 000110 and then 1111. -/
def dec103 : State :=
  { withOperands 0 3 0 with sourceAnswers := (golombBits 10 3 .be).toList.map SourceAnswer.ok ++ List.replicate 4 (.ok true) }

theorem witness_DecodeOfCodewordReturnsValue : dec103.free ∧ dec103.b ≠ 0 ∧ dec103.moves = [] ∧
    dec103.sourceAnswers = (golombBits (10#64).toNat dec103.b.toNat .be).toList.map SourceAnswer.ok ++
      List.replicate 4 (.ok true) := ⟨rfl, by decide, rfl, rfl⟩

theorem witness_DecodeConsumesOneCodeword : ∃ s₁ t, dec103.free ∧ dec103.b ≠ 0 ∧ dec103.moves = [] ∧
    exec (.dec .be) dec103 = .next s₁ ∧ run 6 s₁ = .next t ∧ t.status.busy = false ∧ t.status.err = .ok :=
  ⟨_, _, rfl, by decide, rfl, rfl, rfl, rfl, rfl⟩

/-- Under 2^63 + 1: 2^64 - 1, 2^64 at recombination, and a quotient past the bound. -/
theorem witness_DecOverflowExactlyOnLargeValues : ∀ c ∈ [(1, 2 ^ 63 - 2), (1, 2 ^ 63 - 1), (2, 0)],
    let s : State := { withOperands 0 0x8000_0000_0000_0001 0 with
      sourceAnswers := ((unaryBits c.1).toList ++ minBinBits c.2 (2 ^ 63 + 1) .be).map SourceAnswer.ok }
    s.free ∧ s.b ≠ 0 ∧ s.moves = [] ∧ c.2 < s.b.toNat ∧
      s.sourceAnswers = ((unaryBits c.1).toList ++ minBinBits c.2 s.b.toNat .be).map SourceAnswer.ok ++ [] := by
  intro c hc
  refine ⟨rfl, (by decide : (0x8000_0000_0000_0001 : Word) ≠ 0), rfl, ?_, (List.append_nil _).symm⟩
  revert c
  decide

theorem witness_DecOverflow_clauses : 1 * (2 ^ 63 + 1) + (2 ^ 63 - 2) < 2 ^ 64 ∧ 2 ^ 64 ≤ 1 * (2 ^ 63 + 1) + (2 ^ 63 - 1) ∧
    1 ≤ (2 ^ 64 - 1) / (2 ^ 63 + 1) ∧ 2 ^ 64 ≤ 2 * (2 ^ 63 + 1) + 0 ∧ (2 ^ 64 - 1) / (2 ^ 63 + 1) < 2 := by decide

theorem witness_BofpCompletesWithLeastModulus : (running (.bofp .be) .calculating 0 0 1).running (.bofp .be) ∧
    (running (.bofp .be) .calculating 0 0 1).phase = .calculating ∧
    inOpenUnit (running (.bofp .be) .calculating 0 0 1).lp = true ∧
    inOpenUnit (running (.bofp .be) .calculating 0 0 0x3FEF_FFFF_FFFF_FFFF).lp = true :=
  ⟨⟨rfl, rfl⟩, rfl, by decide, by decide⟩

theorem witness_BofpIsTheRealCeiling : (running (.bofp .le) .calculating 0 0 0x3FB9_9999_9999_999A).running (.bofp .le) ∧
    (running (.bofp .le) .calculating 0 0 0x3FB9_9999_9999_999A).phase = .calculating ∧
    inOpenUnit (running (.bofp .le) .calculating 0 0 0x3FB9_9999_9999_999A).lp = true := ⟨⟨rfl, rfl⟩, rfl, by decide⟩

theorem witness_BofpSaturation : inOpenUnit 0x3BE6_2E42_FEFA_39EF = true ∧ bofpSat 0x3BE6_2E42_FEFA_39EF = true := by
  decide +kernel

theorem witness_BofpIsPositiveAndAntitone : inOpenUnit 1 = true ∧ inOpenUnit 0x3FEF_FFFF_FFFF_FFFF = true ∧
    (1#64).toNat ≤ (0x3FEF_FFFF_FFFF_FFFF#64).toNat := by decide

theorem witness_PofbCompletesWithNearestValue : (running (.pofb .be) .calculating 0 1 0).running (.pofb .be) ∧
    (running (.pofb .be) .calculating 0 1 0).phase = .calculating ∧ (running (.pofb .be) .calculating 0 1 0).lb ≠ 0 ∧
    (running (.pofb .be) .calculating 0 (-1) 0).lb ≠ 0 := ⟨⟨rfl, rfl⟩, rfl, by decide, by decide⟩

theorem witness_PofbRangeAndMonotone : 1 ≤ 1 ∧ 1 < 2 ^ 64 ∧ 1 ≤ 2 ^ 64 - 1 ∧ 2 ^ 64 - 1 < 2 ^ 64 := by decide

/-- Modulus 1 gives 0.5, and the largest modulus gives 1.0 (95 V7). -/
theorem witness_BofpDoesNotInvertPofb : realOf (pofbValue 1) < 1 ∧ realOf (pofbValue (2 ^ 64 - 1)) = 1 := by
  have h1 : pofbValue 1 = 0x3FE0_0000_0000_0000 := by decide +kernel
  have h2 : pofbValue (2 ^ 64 - 1) = 0x3FF0_0000_0000_0000 := by decide +kernel
  rw [h1, h2]
  have e1 : expField 0x3FE0_0000_0000_0000 = 1022 := by decide
  have e2 : expField 0x3FF0_0000_0000_0000 = 1023 := by decide
  have f1 : significand 0x3FE0_0000_0000_0000 = 2 ^ 52 := by decide
  have f2 : significand 0x3FF0_0000_0000_0000 = 2 ^ 52 := by decide
  have g1 : (0x3FE0_0000_0000_0000 : Word).getLsbD 63 = false := by decide
  have g2 : (0x3FF0_0000_0000_0000 : Word).getLsbD 63 = false := by decide
  simp only [realOf, e1, e2, f1, f2, g1, g2]
  norm_num

theorem witness_WindowDecoding : windowOffset State.reset 0x80 = none ∧ windowOffset State.reset 0x7F = some 0x7F ∧
    step State.reset = .next State.reset := ⟨rfl, rfl, rfl⟩

theorem witness_WindowAccessRule : (0x78 < 0x80 ∧ State.reset.resetAsserted = false ∧ (8 = 8 ∧ 0x78 % 8 = 0)) ∧
    ¬ (4 = 8 ∧ 0x18 % 8 = 0) ∧ ¬ (8 = 8 ∧ 0x7F % 8 = 0) := by decide

theorem witness_IdlePorts : State.reset.phase = .idle ∧ (running (.len .be) .calculating 0 1 0).phase = .calculating ∧
    sinkPort (enc103 0 []) ≠ none ∧ sourcePort (decAt .be 3 (.decU 0) 0 []) ≠ none := by
  refine ⟨rfl, rfl, by decide, by decide⟩

/-- A command that goes on, and one that ends. -/
theorem witness_CommandFrame : (∃ t, exec (.enc .be) (enc103 0 [.ok]) = .next t ∧ t.status.busy = true) ∧
    ∃ t, exec (.len .be) (running (.len .be) .calculating 10 3 0) = .next t ∧ t.status.busy = false :=
  ⟨⟨_, rfl, rfl⟩, _, rfl, rfl⟩

theorem witness_OperandRegistersAreTheHosts : ∀ g ∈ [Reg.x, .b, .p], ∃ t,
    step (withWrite g 7 State.reset) = .next t ∧ ¬ (withWrite g 7 State.reset).nextResets ∧ readReg g t ≠ 0 := by
  intro g hg
  have hn : ¬ (withWrite g 7 State.reset).nextResets := by
    rintro ⟨m, hm, hr⟩
    rw [← Option.some.inj hm] at hr
    simp [Move.isReset] at hr
  simp only [List.mem_cons, List.not_mem_nil, or_false] at hg
  rcases hg with rfl | rfl | rfl
  · exact ⟨_, rfl, hn, by decide⟩
  · exact ⟨_, rfl, hn, by decide⟩
  · exact ⟨_, rfl, hn, by decide⟩

/-- No move to come, so no move of the reset input. -/
theorem no_reset_move {s : State} (h : s.moves = []) : ¬ s.nextResets := by
  rintro ⟨m, hm, -⟩
  simp [h] at hm

theorem witness_ResultsChangeOnlyAtCompletion : ∃ t, step (running (.len .be) .calculating 10 3 0) = .next t ∧
    ¬ (running (.len .be) .calculating 10 3 0).nextResets ∧ t.result ≠ State.reset.result :=
  ⟨_, rfl, no_reset_move rfl, by decide⟩

theorem witness_BusyFollowsAcceptanceAndCompletion :
    (∃ t, step (withWrite .cmd 2 (withOperands 10 3 0)) = .next t ∧
      (withWrite .cmd 2 (withOperands 10 3 0)).status.busy = false ∧ t.status.busy = true) ∧
    ∃ t, step (enc103 5 [.ok]) = .next t ∧ (enc103 5 [.ok]).status.busy = true ∧ t.status.busy = false :=
  ⟨⟨_, rfl, rfl, rfl⟩, _, rfl, rfl, rfl⟩

/-- A dropped write, and the next accepted one. -/
theorem witness_RejectedIsSticky :
    (∃ t, step (withWrite .cmd 1 (enc103 0 [])) = .next t ∧ (withWrite .cmd 1 (enc103 0 [])).status.rej = false ∧
      t.status.rej = true) ∧
    (∃ t, step (withWrite .cmd 0 { State.reset with status := Status.reset.reject }) = .next t ∧
      ({ State.reset with status := Status.reset.reject } : State).status.rej = true ∧ t.status.rej = false) ∧
    (withWrite .cmd 1 (enc103 0 [])).status.busy = true ∧ (withWrite .cmd 1 (enc103 0 [])).resetAsserted = false ∧
    ∃ w, (withWrite .cmd 1 (enc103 0 [])).nextWrites .cmd w :=
  ⟨⟨_, rfl, rfl, rfl⟩, ⟨_, rfl, rfl, rfl⟩, rfl, rfl, 1, rfl⟩

theorem witness_PortsBelongToEncAndDec :
    (∃ t, step (enc103 0 [.ok]) = .next t ∧ t.sinkAnswers ≠ (enc103 0 [.ok]).sinkAnswers ∧
      t.trace.filter Event.isSink ≠ (enc103 0 [.ok]).trace.filter Event.isSink) ∧
    ∃ t, step (decAt .be 3 (.decU 0) 0 [.ok false]) = .next t ∧
      t.sourceAnswers ≠ (decAt .be 3 (.decU 0) 0 [.ok false]).sourceAnswers ∧
      t.trace.filter Event.isSource ≠ (decAt .be 3 (.decU 0) 0 [.ok false]).trace.filter Event.isSource :=
  ⟨⟨_, rfl, by decide, by decide⟩, _, rfl, by decide, by decide⟩

theorem witness_RunningCommandIgnoresOperandWrites : ∃ t, (enc103 0 [.ok]).running (.enc .be) ∧
    exec (.enc .be) (enc103 0 [.ok]) = .next t := ⟨_, ⟨rfl, rfl⟩, rfl⟩

theorem witness_FreeBlockKeepsItsResults : step State.reset = .next State.reset ∧ State.reset.free ∧ ¬ State.reset.nextResets ∧
    (∀ w, ¬ State.reset.nextWrites .cmd w) ∧ State.reset.moves = [] := by
  refine ⟨rfl, rfl, no_reset_move rfl, fun w h => ?_, rfl⟩
  simp [State.nextWrites, State.reset] at h

theorem witness_SilentCollaboratorHangs :
    ((enc103 0 []).moves = [] ∧ (enc103 0 []).running (.enc .be) ∧ (∃ c, sinkPort (enc103 0 []) = some c) ∧
      (enc103 0 []).sinkAnswers = []) ∧
    ((decAt .be 3 (.decU 0) 0 []).moves = [] ∧ (decAt .be 3 (.decU 0) 0 []).running (.dec .be) ∧
      (∃ c, sourcePort (decAt .be 3 (.decU 0) 0 []) = some c) ∧ (decAt .be 3 (.decU 0) 0 []).sourceAnswers = []) :=
  ⟨⟨rfl, ⟨rfl, rfl⟩, ⟨(false, .be), by decide⟩, rfl⟩, rfl, ⟨rfl, rfl⟩, ⟨.be, rfl⟩, rfl⟩

theorem witness_ResetRule :
    ({ enc103 0 [.ok] with moves := [.assertReset] } : State).moves = .assertReset :: [] ∧
    ({ assertReset (enc103 0 [.ok]) with moves := [.releaseReset] } : State).moves = .releaseReset :: [] ∧
    ({ assertReset (enc103 0 [.ok]) with moves := [.releaseReset] } : State).resetAsserted = true ∧
    ({ assertReset (enc103 0 [.ok]) with moves := [.lateAnswer] } : State).moves = .lateAnswer :: [] := ⟨rfl, rfl, rfl, rfl⟩

theorem witness_HeldResetIgnoresAccesses : (assertReset State.reset).resetAsserted = true := rfl

theorem witness_ResetValues : (assertReset (enc103 0 [.ok])).resetAsserted = true ∧ (enc103 0 [.ok]).status.busy = true := ⟨rfl, rfl⟩

/-- A `len` of 10 under 3 just accepted, a state with the invariant that is not the reset state. -/
theorem accepted_len_inv : (running (.len .be) .calculating 10 3 0).Inv where
  phase := ⟨rfl, rfl, .inl ⟨rfl, by decide⟩⟩
  done := fun _ => rfl
  last := fun _ => ⟨rfl, rfl⟩
  ioerr := ⟨by decide, fun _ => rfl⟩
  sat := fun h => absurd h (by decide)
  failed := fun h => absurd rfl h
  fresh := fun h => absurd h (by decide)
  held := fun h => absurd h (by decide)

theorem witness_EveryStepKeepsInvariant : ∃ t, (running (.len .be) .calculating 10 3 0).Inv ∧
    step (running (.len .be) .calculating 10 3 0) = .next t ∧ t ≠ running (.len .be) .calculating 10 3 0 :=
  ⟨_, accepted_len_inv, rfl, by decide⟩

/-- The state that the `len` of 10 under 3 ends in, with moves to come. -/
def finishedLen (ms : List Move) : State := { lenCalc (running (.len .be) .calculating 10 3 0) with moves := ms }

theorem finishedLen_inv (ms : List Move) : (finishedLen ms).Inv where
  phase := rfl
  done := fun h => absurd h Bool.false_ne_true
  last := fun h => absurd h Bool.false_ne_true
  ioerr := ⟨(by decide : (0 : Word).toNat < 2 ^ 32), fun _ => rfl⟩
  sat := fun h => absurd h Bool.false_ne_true
  failed := fun h => absurd rfl h
  fresh := fun _ h => absurd h Bool.false_ne_true.symm
  held := fun h => absurd h Bool.false_ne_true

/-- Over with a reset still to come, and over with only the block's and the collaborator's moves to come. -/
theorem witness_FinishedRunStays :
    ((finishedLen [.block, .assertReset]).Inv ∧ (finishedLen [.block, .assertReset]).over) ∧
    ((finishedLen [.block, .lateAnswer]).Inv ∧ (finishedLen [.block, .lateAnswer]).over ∧
      ∀ m ∈ (finishedLen [.block, .lateAnswer]).moves, m.isReset = false) :=
  ⟨⟨finishedLen_inv _, by decide, rfl, rfl, rfl⟩, finishedLen_inv _, ⟨by decide, rfl, rfl, rfl⟩, by decide⟩

/-- Idle with a host access to come is not over. -/
theorem test_not_over : ¬ (finishedLen [.block, .poll]).over := fun h => absurd (h.1 .poll (by decide)) (by decide)

theorem witness_InvariantStatesNeverStop : (running (.len .be) .calculating 10 3 0).Inv := accepted_len_inv

end Sys2Proof.Tests
end

section
/-! PROOFS, 10_state.md: a CMD write and its LASTOP and LASTORD (R31, R93), and the ERR field of the STATUS word (R24, R30). -/

namespace Sys2Proof

/-- A word decodes only to the command that its OP and ORD fields name (R91). -/
theorem ofOp_of_decode {w : Word} {i : Instr} (h : decode w = .ok i) : Instr.ofOp (cmdOp w) (cmdOrd w) = some i := by
  unfold decode at h
  split_ifs at h
  split at h
  next hi => exact hi.trans (congrArg some (Except.ok.inj h))
  next => cases h

end Sys2Proof

namespace Sys2Proof.Machine

/-! ## A CMD write (R93, R270) -/

theorem writeCmd_busy {w : Word} {s : State} (hb : s.status.busy = true) : writeCmd w s = .next (dropCommand s) :=
  if_pos hb

theorem writeCmd_legal {w : Word} {s : State} {i : Instr} (hb : s.status.busy = false) (hd : decode w = .ok i) :
    writeCmd w s = exec i s := by
  simp [writeCmd, hb, hd]

theorem writeCmd_illegal {w : Word} {s : State} {e : DecodeError} (hb : s.status.busy = false) (hd : decode w = .error e) :
    writeCmd w s = .next (acceptIllegal w s) := by
  simp [writeCmd, hb, hd]

/-! ## LASTOP and LASTORD at an acceptance (R31) -/

/-- An accepted command leaves its own OP and ORD in STATUS, whether it starts or its operand check fails. -/
theorem accept_last (i : Instr) (check : State → Option ErrKind) (first : State → Phase) (s : State) :
    (accept i check first s).status.lastOp = i.op ∧ (accept i check first s).status.lastOrd = i.ord := by
  rcases accept_cases i check first s with ⟨k, -, h⟩ | ⟨-, h⟩
  · simp [h]
  · simp [h]

/-- With BUSY = 0 a CMD write is an acceptance, with the OP and ORD fields of its word, legal or not. -/
theorem writeCmd_free_last (w : Word) {s : State} (hb : s.status.busy = false) :
    ∃ t, writeCmd w s = .next t ∧ t.status.lastOp = cmdOp w ∧ t.status.lastOrd = cmdOrd w := by
  cases hd : decode w with
  | error e => exact ⟨_, writeCmd_illegal hb hd, by simp [acceptIllegal]⟩
  | ok i =>
    obtain ⟨hop, hord⟩ := ofOp_eq_some (ofOp_of_decode hd)
    obtain ⟨check, first, he⟩ := exec_free (i := i) hb
    exact ⟨_, (writeCmd_legal hb hd).trans he, hop ▸ hord ▸ accept_last i check first s⟩

/-- Settles O15: a dropped write keeps both fields, and every other write is an acceptance. -/
theorem lastOpFollowsAcceptance : Obligations.LastOpFollowsAcceptance := by
  intro w s
  cases hb : s.status.busy with
  | true => exact ⟨dropCommand s, writeCmd_busy hb, nofun, fun _ => ⟨rfl, rfl⟩⟩
  | false =>
    obtain ⟨t, ht, hop, hord⟩ := writeCmd_free_last w hb
    exact ⟨t, ht, fun _ => ⟨hop, hord.trans (Bool.cond_eq_ite ..)⟩, nofun⟩

/-! ## The ERR codes (R30) -/

theorem ErrKind.code_le (k : ErrKind) : k.code.toNat ≤ 5 := by
  cases k <;> decide

/-- ERR is bits 11 to 8 of the STATUS word (R24). -/
@[simp] theorem Status.word_err (f : Status) : f.word.extractLsb' 8 4 = f.err.code := by
  simp only [Status.word, BitVec.extractLsb'_append_eq_of_le, Nat.reduceLeDiff, Nat.reduceSub]
  exact BitVec.extractLsb'_append_eq_right

/-- Settles O19: both ends of a command write ERR, and the STATUS word shows its code. -/
theorem errCodes : Obligations.ErrCodes := by
  refine ⟨rfl, rfl, rfl, rfl, rfl, rfl, ErrKind.code_le, fun v q r n c s => ?_, fun k e q r s => ?_⟩
  · simp [ErrKind.code]
  · simp

end Sys2Proof.Machine
end

section
/-! PROOFS, 20_memory.md: which bus accesses the window accepts, and what each does (R63). -/

namespace Sys2Proof.Machine

/-! ## Register offsets (R20) -/

theorem Reg.offset_le (g : Reg) : g.offset ≤ 0x50 := by
  cases g <;> decide

theorem Reg.ofOffset_eq_none_of_gt {off : Nat} (h : 0x50 < off) : Reg.ofOffset off = none := by
  cases hg : Reg.ofOffset off with
  | none => rfl
  | some g =>
    have := Reg.offset_of_ofOffset hg
    have := g.offset_le
    omega

theorem Reg.offset_ne_of_ofOffset_eq_none {off : Nat} (h : Reg.ofOffset off = none) (g : Reg) : off ≠ g.offset := by
  rintro rfl
  simp at h

/-- CMD and the reserved offsets read as 0 (R23, R63). -/
theorem readOffset_cmd_or_reserved {off : Nat} (s : State) (h : off = 0x08 ∨ 0x58 ≤ off) : readOffset off s = 0 := by
  rcases h with rfl | h
  · rfl
  · simp [readOffset, Reg.ofOffset_eq_none_of_gt (show 0x50 < off by omega)]

/-! ## A bus access inside the window (R63) -/

theorem busAccess_misaligned {s : State} {off width : Nat} (ho : off < 0x80) (h : ¬ (width = 8 ∧ off % 8 = 0))
    (k : AccessKind) :
    busAccess ⟨s.base + off, width, k⟩ s =
      .next (s.observe (.bus ⟨s.base + off, width, k⟩ (.busError 0))) := by
  simp only [busAccess, windowOffset_base s ho, if_neg h]

theorem busAccess_read {s : State} {off : Nat} (ho : off < 0x80) (h : off % 8 = 0) :
    busAccess ⟨s.base + off, 8, .read⟩ s =
      .next (s.observe (.bus ⟨s.base + off, 8, .read⟩ (.readData (readOffset off s)))) := by
  simp only [busAccess, windowOffset_base s ho, h, and_self, if_true]

theorem busAccess_write {s : State} {off : Nat} (ho : off < 0x80) (h : off % 8 = 0) (v : Word) :
    busAccess ⟨s.base + off, 8, .write v⟩ s =
      writeOffset off v (s.observe (.bus ⟨s.base + off, 8, .write v⟩ .writeDone)) := by
  simp only [busAccess, windowOffset_base s ho, h, and_self, if_true]

/-! ## An accepted write with reset released (R63) -/

theorem writeOffset_reserved {s : State} {off : Nat} (hr : s.resetAsserted = false) (h : Reg.ofOffset off = none) (v : Word) :
    writeOffset off v s = .next s := by
  simp [writeOffset, hr, h]

/-- What an accepted write does, by its offset: X, B, P and CMD are the only registers that a host write reaches. -/
theorem writeOffset_released {s : State} (hr : s.resetAsserted = false) (off : Nat) (v : Word) :
    writeOffset off v s =
      if off = 0x18 then .next { s with x := v }
      else if off = 0x20 then .next { s with b := v }
      else if off = 0x28 then .next { s with p := v }
      else if off = 0x08 then writeCmd v s
      else .next s := by
  cases hg : Reg.ofOffset off with
  | some g =>
    obtain rfl := Reg.offset_of_ofOffset hg
    simp only [writeOffset, hr, hg]
    cases g <;> rfl
  | none =>
    have hne := Reg.offset_ne_of_ofOffset_eq_none hg
    simp [writeOffset_reserved hr hg, show off ≠ 0x18 from hne .x, show off ≠ 0x20 from hne .b,
      show off ≠ 0x28 from hne .p, show off ≠ 0x08 from hne .cmd]

/-- Settles O43: a misaligned access, a read and a write, each by its own rule. -/
theorem windowAccessRule : Obligations.WindowAccessRule := by
  intro s off width ho hr
  refine ⟨busAccess_misaligned ho, ?_⟩
  rintro ⟨rfl, hal⟩
  refine ⟨busAccess_read ho hal, readOffset_cmd_or_reserved s, fun v => ?_⟩
  exact (busAccess_write ho hal v).trans (writeOffset_released (s := s.observe _) hr off v)

end Sys2Proof.Machine
end

section
/-! PROOFS, 30_encoding.md: fields in stream order, the minimal-binary code and the length of a codeword (R99 to R107). -/

namespace Sys2Proof.Machine

/-! ## Fields (R99) -/

theorem getElem?_fieldBits_be (v n j : Nat) :
    (fieldBits v n .be)[j]? = if j < n then some (v.testBit (n - 1 - j)) else none := by
  by_cases hj : j < n
  · rw [fieldBits, List.getElem?_reverse (by simpa), length_lowBits, getElem?_lowBits, if_pos (by omega), if_pos hj]
  · rw [List.getElem?_eq_none (by simpa using hj), if_neg hj]

theorem getElem?_fieldBits_le (v n j : Nat) :
    (fieldBits v n .le)[j]? = if j < n then some (v.testBit j) else none :=
  getElem?_lowBits v n j

@[simp] theorem fieldBits_zero (v : Nat) (o : BitOrder) : fieldBits v 0 o = [] :=
  List.eq_nil_of_length_eq_zero (length_fieldBits v 0 o)

/-- A field of at most one bit does not depend on the order. -/
theorem fieldBits_be_eq_le {n : Nat} (v : Nat) (h : n ≤ 1) : fieldBits v n .be = fieldBits v n .le := by
  obtain rfl | rfl := Nat.le_one_iff_eq_zero_or_eq_one.mp h
  · simp
  · rfl

theorem cmdOrd_eq_be {w : Word} (h : w.getLsbD 8 = false) : cmdOrd w = .be := by
  rw [cmdOrd, h, cond_false]

theorem cmdOrd_eq_le {w : Word} (h : w.getLsbD 8 = true) : cmdOrd w = .le := by
  rw [cmdOrd, h, cond_true]

/-- Settles O4: each position of a field, the widths 0 and 1, and the ORD bit. -/
theorem fieldBitsInStreamOrder : Obligations.FieldBitsInStreamOrder :=
  ⟨getElem?_fieldBits_be, getElem?_fieldBits_le, fun v _ => fieldBits_be_eq_le v, fieldBits_zero,
    fun _ => ⟨cmdOrd_eq_be, cmdOrd_eq_le⟩⟩

/-! ## The minimal-binary code and its parameters (R101, R102) -/

theorem minBinBits_short {r m : Nat} (o : BitOrder) (h : r < minBinU m) : minBinBits r m o = fieldBits r (minBinK m) o :=
  if_pos h

theorem minBinBits_long {r m : Nat} (o : BitOrder) (h : minBinU m ≤ r) :
    minBinBits r m o = fieldBits ((r + minBinU m) / 2) (minBinK m) o ++ fieldBits ((r + minBinU m) % 2) 1 o :=
  if_neg (Nat.not_lt.mpr h)

theorem lenMinBin_short {r m : Nat} (h : r < minBinU m) : lenMinBin r m = minBinK m := by
  simp [lenMinBin, h]

theorem lenMinBin_long {r m : Nat} (h : minBinU m ≤ r) : lenMinBin r m = minBinK m + 1 := by
  simp [lenMinBin, h]

/-- The bounds of R132 fix `k`. -/
theorem minBinK_eq {m k : Nat} (hlo : 2 ^ k ≤ m) (hhi : m < 2 ^ (k + 1)) : minBinK m = k :=
  (Nat.log2_eq_iff (Nat.ne_of_gt (Nat.lt_of_lt_of_le (Nat.two_pow_pos k) hlo))).mpr ⟨hlo, hhi⟩

@[simp] theorem minBinK_two_pow (k : Nat) : minBinK (2 ^ k) = k := Nat.log2_two_pow

@[simp] theorem minBinU_two_pow (k : Nat) : minBinU (2 ^ k) = 2 ^ k := by
  simp only [minBinU, minBinK_two_pow, pow_succ]
  omega

/-- Under a power of two every remainder is short (R107). -/
theorem minBinBits_two_pow {r k : Nat} (o : BitOrder) (h : r < 2 ^ k) : minBinBits r (2 ^ k) o = fieldBits r k o := by
  rw [minBinBits_short o (by simpa), minBinK_two_pow]

theorem lenMinBin_two_pow {r k : Nat} (h : r < 2 ^ k) : lenMinBin r (2 ^ k) = k := by
  rw [lenMinBin_short (by simpa), minBinK_two_pow]

/-- Settles O5: `k` and `u` are those of `MinBinParams`, and `r < m` bounds `r + u` by `m + u = 2^(k+1)`. -/
theorem minimalBinaryCode : Obligations.MinimalBinaryCode := by
  intro r m o h1 hm hr
  have hm0 : m ≠ 0 := Nat.ne_of_gt h1
  have hsum := minBinU_add m
  exact ⟨minBinK m, minBinU m, two_pow_minBinK_le hm0, lt_two_pow_minBinK m, minBinK_le (by omega), rfl, minBinU_pos m,
    minBinU_le hm0, minBinBits_short o, fun hu => ⟨by omega, by omega, minBinBits_long o hu⟩⟩

/-- A modulus with a long remainder is no power of two, so `k + 1` is its logarithm rounded up. -/
theorem clog_eq_minBinK_succ {r m : Nat} (hu : minBinU m ≤ r) (hr : r < m) : Nat.clog 2 m = minBinK m + 1 := by
  have hlo : 2 ^ minBinK m < m := by
    have := minBinU_add m
    rw [pow_succ] at this
    omega
  exact le_antisymm ((Nat.clog_le_iff_le_pow Nat.one_lt_two).mpr (lt_two_pow_minBinK m).le)
    ((Nat.lt_clog_iff_pow_lt Nat.one_lt_two).mpr hlo)

/-- A short code has the logarithm rounded down, a long one the logarithm rounded up (R102). -/
theorem lenMinBin_eq_log_or_clog {r m : Nat} (hr : r < m) : lenMinBin r m = Nat.log 2 m ∨ lenMinBin r m = Nat.clog 2 m := by
  rcases Nat.lt_or_ge r (minBinU m) with hs | hl
  · exact .inl ((lenMinBin_short hs).trans Nat.log2_eq_log_two)
  · exact .inr ((lenMinBin_long hl).trans (clog_eq_minBinK_succ hl hr).symm)

/-- Settles O6: the length from the two sub-ranges, and a power of two, of which 1 is the least. -/
theorem minimalBinaryLength : Obligations.MinimalBinaryLength := by
  intro r m o _ _ hr
  refine ⟨length_minBinBits r m o, rfl, lenMinBin_eq_log_or_clog hr, ?_, ?_⟩
  · rintro k rfl
    exact ⟨minBinU_two_pow k, lenMinBin_two_pow hr⟩
  · rintro rfl
    exact ⟨minBinK_two_pow 0, minBinU_two_pow 0, (minBinBits_two_pow (k := 0) o hr).trans (fieldBits_zero r o)⟩

/-! ## Codewords (R104, R107) -/

theorem golombLen_eq (x b : Nat) : golombLen x b = x / b + 1 + lenMinBin (x % b) b := rfl

/-- Modulus 1 leaves no remainder to code: the codeword is its unary part. -/
theorem golombLen_one (x : Nat) : golombLen x 1 = x + 1 := by
  have h : lenMinBin (x % 1) 1 = 0 := lenMinBin_two_pow (k := 0) (Nat.mod_lt x Nat.one_pos)
  rw [golombLen_eq, h, Nat.div_one, Nat.add_zero]

theorem golombBits_one (x : Nat) (o : BitOrder) : golombBits x 1 o = unaryBits x := by
  have h : minBinBits (x % 1) 1 o = [] :=
    (minBinBits_two_pow (k := 0) o (Nat.mod_lt x Nat.one_pos)).trans (fieldBits_zero _ o)
  simp only [golombBits, split, h, Nat.div_one]
  rfl

/-- Settles O7: the length is `golombLen`, between 1 and 2^64, and modulus 1 takes both ends. -/
theorem codewordLength : Obligations.CodewordLength := by
  refine ⟨fun x b o hx hb hb' => ?_, ?_, ?_⟩
  · rw [BitSeq.length_toList, length_golombBits]
    exact ⟨golombLen_eq x b, golombLen_pos x b, golombLen_le hx hb (by omega)⟩
  · rw [length_golombBits, golombLen_one]
  · rw [length_golombBits, golombLen_one, Nat.sub_add_cancel Nat.one_le_two_pow]

theorem minBinK_maxWord : minBinK (2 ^ 64 - 1) = 63 := minBinK_eq (by decide) (by decide)

theorem minBinU_maxWord : minBinU (2 ^ 64 - 1) = 1 := by
  rw [minBinU, minBinK_maxWord, Nat.sub_sub_self Nat.one_le_two_pow]

/-- Settles O8: modulus 1, the powers of two, and 2^64 - 1, whose short sub-range holds 0 only. -/
theorem specialModuli : Obligations.SpecialModuli := by
  refine ⟨golombBits_one, fun r k o _ _ => minBinBits_two_pow o, minBinK_maxWord, minBinU_maxWord, fun r o _ => ?_⟩
  rw [length_minBinBits]
  by_cases h0 : r = 0
  · rw [if_pos h0, lenMinBin_short (by rw [minBinU_maxWord]; omega), minBinK_maxWord]
  · rw [if_neg h0, lenMinBin_long (by rw [minBinU_maxWord]; omega), minBinK_maxWord]

end Sys2Proof.Machine
end

section
/-! PROOFS, 30_encoding.md: CMD words, their decoder and what a CMD write does (R93, R94, R108). -/

namespace Sys2Proof

/-- A word decodes to a command exactly when its reserved bits are 0 and its OP and ORD name the command (R90, R91, R94). -/
theorem decode_eq_ok_iff {w : Word} {i : Instr} :
    decode w = .ok i ↔ cmdRsv1 w = 0 ∧ cmdRsv2 w = 0 ∧ Instr.ofOp (cmdOp w) (cmdOrd w) = some i := by
  unfold decode
  split_ifs with h1 h2
  · exact ⟨nofun, fun ⟨h, _⟩ => absurd h h1⟩
  · exact ⟨nofun, fun ⟨_, h, _⟩ => absurd h h2⟩
  · cases Instr.ofOp (cmdOp w) (cmdOrd w) <;> simp_all

/-- The words that decode are the legal ones: OP is 1 to 5 and the reserved bits are 0 (R94). -/
theorem exists_decode_eq_ok_iff {w : Word} :
    (∃ i, decode w = .ok i) ↔ (cmdOp w).toNat ∈ [1, 2, 3, 4, 5] ∧ cmdRsv1 w = 0 ∧ cmdRsv2 w = 0 := by
  rw [← ofOp_isSome (cmdOp w) (cmdOrd w)]
  simp only [decode_eq_ok_iff]
  tauto

end Sys2Proof

namespace Sys2Proof.Machine

/-- Settles O1: each row of R108 is decoded and assembled by evaluation. -/
theorem mnemonicWordsDecode : Obligations.MnemonicWordsDecode :=
  ⟨rfl, rfl, rfl, rfl, rfl, rfl, rfl, rfl, rfl, rfl, rfl, rfl, rfl, rfl, rfl, rfl⟩

/-! ## Acceptance of a word (R93) -/

/-- A latched word leaves its OP and ORD only, so a legal word is latched as its command's own encoding. -/
theorem latch_encode_of_decode {w : Word} {i : Instr} (h : decode w = .ok i) (s : State) :
    latch (encode i) s = latch w s := by
  obtain ⟨hop, hord⟩ := ofOp_eq_some (ofOp_of_decode h)
  rw [latch_encode, hop, hord]
  rfl

section
variable {w : Word} {s : State} {i : Instr} (hb : s.status.busy = false) (hd : decode w = .ok i) (first : State → Phase)
  (go : State → Result)
include hb hd

theorem command_modulus_of_decode :
    command i checkModulus first go s = .next (
      if s.b = 0 then raiseError .invalidModulus 0 0 0 (latch w s)
      else { latch w s with phase := first (latch w s) }) := by
  rw [command_free hb, ← latch_encode_of_decode hd]
  split_ifs with h0
  · rw [accept_modulus_zero h0]
  · rw [accept_modulus h0]

theorem command_parameter_of_decode :
    command i checkParameter first go s = .next (
      if inOpenUnit s.p = false then raiseError .invalidParameter 0 0 0 (latch w s)
      else { latch w s with phase := first (latch w s) }) := by
  rw [command_free hb, ← latch_encode_of_decode hd]
  split_ifs with hp
  · rw [accept_parameter_outside hp]
  · rw [accept_parameter (Bool.not_eq_false _ ▸ hp)]

end

/-- ORD as CMD[8] selects it (R90). -/
theorem cmdOrd_eq_ite (w : Word) : cmdOrd w = if w.getLsbD 8 then .le else .be := Bool.cond_eq_ite ..

/-- With BUSY = 0 a legal word is accepted: OP 4 with the check of P, every other OP with the check of B (R93). -/
theorem writeCmd_accepts {w : Word} {s : State} {i : Instr} (hb : s.status.busy = false) (hd : decode w = .ok i) :
    writeCmd w s = .next (
      if i.op.toNat ∈ [1, 2, 3, 5] ∧ s.b = 0 then raiseError .invalidModulus 0 0 0 (latch w s)
      else if i.op.toNat = 4 ∧ inOpenUnit s.p = false then raiseError .invalidParameter 0 0 0 (latch w s)
      else if i.op.toNat = 2 then { latch w s with phase := encFirst (latch w s) }
      else if i.op.toNat = 3 then { latch w s with phase := .decU 0 }
      else { latch w s with phase := .calculating }) := by
  rw [writeCmd_legal hb hd]
  cases i with
  | len o => exact (command_modulus_of_decode hb hd _ lenRun).trans (by simp [Instr.op])
  | enc o => exact (command_modulus_of_decode hb hd encFirst encRun).trans (by simp [Instr.op])
  | dec o => exact (command_modulus_of_decode hb hd _ decRun).trans (by simp [Instr.op])
  | bofp o => exact (command_parameter_of_decode hb hd _ bofpRun).trans (by simp [Instr.op])
  | pofb o => exact (command_modulus_of_decode hb hd _ pofbRun).trans (by simp [Instr.op])

/-- Settles O12: a dropped write, an illegal word, and a legal one by the checks and the phase of its OP. -/
theorem cmdWriteRule : Obligations.CmdWriteRule := by
  intro w s
  simp only [← cmdOrd_eq_ite]
  refine ⟨writeCmd_busy, fun hb => ?_⟩
  by_cases hw : (w.extractLsb' 0 4).toNat ∈ [1, 2, 3, 4, 5] ∧ w.extractLsb' 4 4 = 0 ∧ w.extractLsb' 9 55 = 0
  · obtain ⟨i, hd⟩ := exists_decode_eq_ok_iff.mpr hw
    have h := writeCmd_accepts hb hd
    rw [(ofOp_eq_some (ofOp_of_decode hd)).1, cmdOp] at h
    rw [if_neg (not_not.mpr hw)]
    split_ifs at h ⊢ <;> exact h
  · rw [if_pos hw]
    cases hd : decode w with
    | error e => exact writeCmd_illegal hb hd
    | ok i => exact absurd (exists_decode_eq_ok_iff.mp ⟨i, hd⟩) hw

end Sys2Proof.Machine
end

section
/-! PROOFS, 30_encoding.md: the binary64 encodings of the open unit interval (R13, R97). -/

namespace Sys2Proof.Machine

theorem inOpenUnit_iff {w : Word} : inOpenUnit w = true ↔ w.getLsbD 63 = false ∧ w ≠ 0 ∧ expField w < 0x3FF := by
  simp [inOpenUnit, and_assoc]

/-- The biased exponent as a digit of the encoding (R32). -/
theorem expField_eq (w : Word) : expField w = w.toNat / 2 ^ 52 % 2 ^ 11 := by
  simp [expField, BitVec.extractLsb'_toNat, Nat.shiftRight_eq_div_pow]

/-- The sign bit is 0 in the lower half of the encodings (R32). -/
theorem sign_eq_false_iff {w : Word} : w.getLsbD 63 = false ↔ w.toNat < 2 ^ 63 := by
  rw [← BitVec.msb_eq_getLsbD_last (w := 64), BitVec.msb_eq_false_iff_two_mul_lt]
  omega

/-- The encodings of the open unit interval are consecutive, from the least subnormal to the last value below 1. -/
theorem inOpenUnit_iff_toNat {w : Word} : inOpenUnit w = true ↔ 1 ≤ w.toNat ∧ w.toNat ≤ 0x3FEF_FFFF_FFFF_FFFF := by
  have h0 : w ≠ 0 ↔ w.toNat ≠ 0 := not_congr BitVec.toNat_eq
  rw [inOpenUnit_iff, sign_eq_false_iff, h0, expField_eq]
  omega

/-- A finite value below 2 is its significand over `2 ^ scale`, with its sign (R13). -/
theorem realOf_eq {w : Word} (hs : w.getLsbD 63 = false) (he : expField w ≤ 1075) :
    realOf w = significand w / 2 ^ scale w := by
  have hexp : (max (expField w) 1 : ℤ) - 1075 = -(scale w : ℤ) := by
    unfold scale
    split <;> omega
  rw [realOf, hs, hexp, zpow_neg, zpow_natCast]
  simp [div_eq_mul_inv]

/-- A positive value has the sign bit 0. -/
theorem sign_of_realOf_pos {w : Word} (h : 0 < realOf w) : w.getLsbD 63 = false := by
  rw [Bool.eq_false_iff]
  intro hs
  have hm : (0 : ℚ) ≤ significand w * 2 ^ ((max (expField w) 1 : ℤ) - 1075) := by positivity
  rw [realOf, if_pos hs, mul_assoc, neg_one_mul] at h
  linarith

/-- The value of the encoding 0 is 0. -/
theorem ne_zero_of_realOf_pos {w : Word} (h : 0 < realOf w) : w ≠ 0 := by
  rintro rfl
  have hz : (significand 0 : ℚ) = 0 := Nat.cast_eq_zero.mpr rfl
  rw [realOf, hz, mul_zero, zero_mul] at h
  exact lt_irrefl 0 h

/-- From the biased exponent 0x3FF on, a value has magnitude at least 1. -/
theorem one_le_realOf {w : Word} (hs : w.getLsbD 63 = false) (he : 0x3FF ≤ expField w) : 1 ≤ realOf w := by
  have hm : (2 : ℚ) ^ (52 : ℤ) ≤ significand w := by
    have : 2 ^ 52 ≤ significand w := by
      rw [significand, if_neg (by omega)]
      exact Nat.le_add_right _ _
    exact_mod_cast this
  have hexp : (2 : ℚ) ^ (-52 : ℤ) ≤ 2 ^ ((max (expField w) 1 : ℤ) - 1075) :=
    zpow_le_zpow_right₀ one_le_two (by omega)
  calc (1 : ℚ) = 2 ^ (52 : ℤ) * 2 ^ (-52 : ℤ) := by norm_num
    _ ≤ significand w * 2 ^ ((max (expField w) 1 : ℤ) - 1075) := by gcongr
    _ = realOf w := by rw [realOf, hs, if_neg Bool.false_ne_true, one_mul]

/-- A finite encoding is in the open unit interval exactly when its value is (R97). -/
theorem inOpenUnit_iff_realOf {w : Word} : inOpenUnit w = true ↔ isFinite w = true ∧ 0 < realOf w ∧ realOf w < 1 := by
  constructor
  · intro h
    obtain ⟨hs, -, he⟩ := inOpenUnit_iff.mp h
    obtain ⟨hpos, hlt⟩ := inOpenUnit_bounds h
    have hpos' : (0 : ℚ) < significand w := by exact_mod_cast hpos
    have hlt' : (significand w : ℚ) < 2 ^ scale w := by exact_mod_cast hlt
    rw [realOf_eq hs (by omega), div_lt_one (by positivity)]
    exact ⟨decide_eq_true (by omega), by positivity, hlt'⟩
  · rintro ⟨-, hpos, hlt⟩
    have hs := sign_of_realOf_pos hpos
    exact inOpenUnit_iff.mpr ⟨hs, ne_zero_of_realOf_pos hpos, not_le.mp fun he => (one_le_realOf hs he).not_gt hlt⟩

/-- Settles O32: the check by the fields, by the value and by the range of the encodings. -/
theorem openUnitEncodings : Obligations.OpenUnitEncodings :=
  fun _ => ⟨inOpenUnit_iff, inOpenUnit_iff_realOf, inOpenUnit_iff_toNat⟩

end Sys2Proof.Machine
end

section
/-! PROOFS, 40_subcodes.md: recombination (R140). -/

namespace Sys2Proof.Machine

/-- With a remainder below the modulus, a sum above u64 makes the quotient at least QLIM (R140). -/
theorem qlim_le_of_maxWord_lt {q r b : Nat} (hr : r < b) (hv : Config.maxWord < q * b + r) : qlim b ≤ q := by
  by_contra hq
  have hmul : (q + 1) * b ≤ Config.maxWord := mul_le_of_le_qlim (not_le.mp hq)
  rw [Nat.succ_mul] at hmul
  omega

/-- Settles O28: the two cases of the recombination, and the bounds of its product and its sum. -/
theorem recombineRule : Obligations.RecombineRule := by
  refine ⟨fun q r s => ?_, fun q r b _ hq hr =>
    ⟨mul_le_of_le_qlim hq, fun hv => le_antisymm hq (qlim_le_of_maxWord_lt hr hv)⟩⟩
  rcases recombine_cases q r s with ⟨hv, h⟩ | ⟨hv, h⟩
  · exact h.trans (if_pos hv).symm
  · exact h.trans (if_neg (not_le.mpr hv)).symm

end Sys2Proof.Machine
end

section
/-! PROOFS, 41_length.md: the CALC phase (R162). -/

namespace Sys2Proof.Machine

/-! ## The step of each CALC command (R160, R210, R215) -/

section
variable {o : BitOrder} {s : State} (hp : s.phase = .calculating)
include hp

theorem exec_len_calculating (hr : s.running (.len o)) : exec (.len o) s = .next (lenCalc s) := by
  have hrun : lenRun s = .next (lenCalc s) := by simp [lenRun, hp]
  exact (command_running hr.1 hr.2).trans hrun

theorem exec_bofp_calculating (hr : s.running (.bofp o)) : exec (.bofp o) s = .next (bofpCalc s) := by
  have hrun : bofpRun s = .next (bofpCalc s) := by simp [bofpRun, hp]
  exact (command_running hr.1 hr.2).trans hrun

theorem exec_pofb_calculating (hr : s.running (.pofb o)) : exec (.pofb o) s = .next (pofbCalc s) := by
  have hrun : pofbRun s = .next (pofbCalc s) := by simp [pofbRun, hp]
  exact (command_running hr.1 hr.2).trans hrun

/-- Every CALC command completes in its one step, with results of its own (R162, R235). -/
theorem exec_calculating {i : Instr} (hi : i = .len o ∨ i = .bofp o ∨ i = .pofb o) (hr : s.running i) :
    ∃ v n q r sat, exec i s = .next (complete v n q r sat s) := by
  rcases hi with rfl | rfl | rfl
  · exact ⟨_, _, _, _, _, exec_len_calculating hp hr⟩
  · exact ⟨_, _, _, _, _, exec_bofp_calculating hp hr⟩
  · exact ⟨_, _, _, _, _, exec_pofb_calculating hp hr⟩

/-! ## The ports in the CALC phase (R43) -/

theorem sinkPort_calculating : sinkPort s = none := by
  simp [sinkPort, hp]

theorem sourcePort_calculating : sourcePort s = none := by
  simp [sourcePort, hp]

end

/-- Settles O21: a completion changes neither the answers nor what has been seen, and the ports are idle before it. -/
theorem calcTakesOneStep : Obligations.CalcTakesOneStep := by
  intro o i s hi hr hp
  obtain ⟨v, n, q, r, sat, h⟩ := exec_calculating hp hi hr
  exact ⟨complete v n q r sat s, h, rfl, rfl, rfl, rfl, rfl, rfl, rfl, rfl, sinkPort_calculating hp, sourcePort_calculating hp⟩

end Sys2Proof.Machine
end

section
/-! PROOFS, 60_exceptions.md: the two ends of a command (R235, R236). -/

namespace Sys2Proof.Machine

/-! ## The successful end (R235) -/

/-- Settles O17: the count is split into NBITS, its bits 63 to 0, and N64, its bit 64. -/
theorem completionWrites : Obligations.CompletionWrites := by
  intro res q r n sat s
  rw [complete, BitVec.setWidth_eq_extractLsb' (by decide)]
  rfl

/-! ## The failed end (R236) -/

/-- IOERR holds the collaborator's code in its low half, the high half 0 (R33). -/
theorem ioerrOf_eq_append (k : ErrKind) (e : IoCode) : ioerrOf k e = if k = .ioError then 0#32 ++ e else 0 := by
  rw [ioerrOf, BitVec.setWidth_eq_append (by decide)]
  rfl

@[simp] theorem ioerrOf_zero (k : ErrKind) : ioerrOf k 0#32 = 0 := ite_self 0

/-- A raise, with NBITS and N64 as the parts of CNT and IOERR as the extended code (R236). -/
theorem raiseError_eq (k : ErrKind) (e : IoCode) (q r : Word) (s : State) :
    raiseError k e q r s = { s with
      result := 0, nbits := s.cnt.extractLsb' 0 64, q := q, r := r, phase := .idle
      ioerr := if k = .ioError then 0#32 ++ e else 0
      status := s.status.complete (s.cnt.getLsbD 64) false k } := by
  rw [raiseError, ioerrOf_eq_append, BitVec.setWidth_eq_extractLsb' (by decide)]

/-- A command that starts has BUSY = 1, so an acceptance that leaves BUSY = 0 is the raise of a failed check. -/
theorem accept_ends {i : Instr} {check : State → Option ErrKind} {first : State → Phase} {s : State}
    (h : (accept i check first s).status.busy = false) :
    ∃ k, accept i check first s = raiseError k 0 0 0 (latch (encode i) s) := by
  rcases accept_cases i check first s with ⟨k, -, hk⟩ | ⟨-, hs⟩
  · exact ⟨k, hk⟩
  · rw [hs] at h
    simp at h

/-- A CMD write accepted and ended in one step is a raise over the latched word, without code, quotient or remainder:
ILLEGAL_CMD or a failed operand check (R231 to R233). -/
theorem writeCmd_ends {w : Word} {s t : State} (hb : s.status.busy = false) (h : writeCmd w s = .next t)
    (ht : t.status.busy = false) : ∃ k, t = raiseError k 0 0 0 (latch w s) := by
  cases hd : decode w with
  | error e => exact ⟨.illegalCmd, Host.Outcome.next.inj (h.symm.trans (writeCmd_illegal hb hd))⟩
  | ok i =>
    obtain ⟨check, first, he⟩ := exec_free (i := i) hb
    obtain rfl := Host.Outcome.next.inj (h.symm.trans ((writeCmd_legal hb hd).trans he))
    rw [← latch_encode_of_decode hd]
    exact accept_ends ht

/-- Settles O18: a raise at acceptance starts from the latched state, whose count is 0. -/
theorem errorWrites : Obligations.ErrorWrites := by
  refine ⟨fun w s t hb h ht => ?_, raiseError_eq⟩
  obtain ⟨k, rfl⟩ := writeCmd_ends hb h ht
  simp

end Sys2Proof.Machine
end

section
/-! PROOFS, 70_reset_and_hazards.md: what reset leaves (R260). -/

namespace Sys2Proof.Machine

/-! ## States at their reset values

A block at reset is one that `resetBlock` leaves as it is, as in the field `held` of the invariant. -/

@[simp] theorem resetBlock_assertReset (s : State) : resetBlock (assertReset s) = assertReset s := rfl

@[simp] theorem resetBlock_reset : resetBlock State.reset = State.reset := rfl

/-- Only the release of a reset that was asserted leaves the block at reset; any other changes nothing. -/
theorem resetBlock_releaseReset {s : State} (h : s.resetAsserted = true) : resetBlock (releaseReset s) = releaseReset s := by
  rcases releaseReset_cases s with ⟨-, hr⟩ | ⟨hn, -⟩
  · rw [hr]
    rfl
  · simp [h] at hn

/-! ## What the outside sees of them -/

@[simp] theorem Status.word_reset : Status.reset.word = 0 := by decide

theorem readReg_id (s : State) : readReg .id s = 0x0000_0001_474F_4C42 := rfl

theorem readReg_resetBlock {g : Reg} (hg : g ≠ .id) (s : State) : readReg g (resetBlock s) = 0 := by
  cases g with
  | id => exact absurd rfl hg
  | status => exact Status.word_reset
  | _ => rfl

/-- Both ports are idle when the phase is (R43). -/
theorem ports_idle {s : State} (hp : s.phase = .idle) : sinkPort s = none ∧ sourcePort s = none := by
  simp [sinkPort, sourcePort, hp]

/-- Settles O56: each of the three states is a block at reset, whose fields are the reset values. -/
theorem resetValues : Obligations.ResetValues := by
  intro s t ht
  have hreset : resetBlock t = t := by
    rcases ht with rfl | ⟨hs, rfl⟩ | rfl
    · exact resetBlock_assertReset s
    · exact resetBlock_releaseReset hs
    · exact resetBlock_reset
  rw [← hreset]
  exact ⟨readReg_id _, fun _ hg => readReg_resetBlock hg t, rfl, rfl, rfl, rfl, rfl, rfl, rfl, rfl,
    ports_idle (resetBlock_phase t)⟩

end Sys2Proof.Machine
end

section
/-! PROOFS, 30_encoding.md: decoding and encoding agree on every word and on its byte lanes (R64, R90, R94). -/

namespace Sys2Proof

/-! ## The encoder is the decoder's inverse (R90, R91) -/

@[simp] theorem cmdRsv1_encode (i : Instr) : cmdRsv1 (encode i) = 0 := by
  cases i <;> rename_i o <;> cases o <;> rfl

@[simp] theorem cmdRsv2_encode (i : Instr) : cmdRsv2 (encode i) = 0 := by
  cases i <;> rename_i o <;> cases o <;> rfl

@[simp] theorem bit_cmdOrd (w : Word) : (cmdOrd w).bit = w.extractLsb' 8 1 := by
  have h : w.extractLsb' 8 1 = BitVec.ofBool (w.getLsbD 8) := by
    ext j hj
    obtain rfl : j = 0 := by omega
    simp
  rw [h, cmdOrd]
  cases w.getLsbD 8 <;> rfl

/-- The four fields of a CMD word, put together again (R90). -/
theorem append_fields (w : Word) : cmdRsv2 w ++ (cmdOrd w).bit ++ cmdRsv1 w ++ cmdOp w = w := by
  rw [bit_cmdOrd, cmdRsv2, cmdRsv1, cmdOp,
    BitVec.extractLsb'_append_extractLsb'_eq_extractLsb' (by decide),
    BitVec.extractLsb'_append_extractLsb'_eq_extractLsb' (by decide),
    BitVec.extractLsb'_append_extractLsb'_eq_extractLsb' (by decide)]
  exact BitVec.extractLsb'_eq_self

theorem decode_eq_ok_iff_eq_encode {w : Word} {i : Instr} : decode w = .ok i ↔ w = encode i := by
  rw [decode_eq_ok_iff]
  constructor
  · rintro ⟨h1, h2, hi⟩
    obtain ⟨hop, hord⟩ := ofOp_eq_some hi
    have h := append_fields w
    rw [h1, h2, ← hop, ← hord] at h
    exact h.symm
  · rintro rfl
    simp

/-! ## Byte lanes (R64) -/

@[simp] theorem toNat_byteLane (w : Word) (i : Nat) : (byteLane w i).toNat = w.toNat / 2 ^ (8 * i) % 2 ^ 8 := by
  rw [byteLane, BitVec.extractLsb'_toNat, Nat.shiftRight_eq_div_pow]

theorem wordOfBytes_bytesOfWord (w : Word) : wordOfBytes (bytesOfWord w) = w.toNat := by
  have hw := w.isLt
  simp only [bytesOfWord, List.range, List.range.loop, List.map_cons, List.map_nil, wordOfBytes, toNat_byteLane]
  omega

theorem decodeBytes_bytesOfWord (w : Word) : decodeBytes (bytesOfWord w) = decode w := by
  rw [decodeBytes, if_pos (by simp [bytesOfWord]), wordOfBytes_bytesOfWord, BitVec.ofNat_toNat, BitVec.setWidth_eq]

/-! ## The legal words (R94) -/

theorem opLegal_iff (w : Word) : opLegal w = true ↔ (cmdOp w).toNat ∈ [1, 2, 3, 4, 5] := by
  have h : (cmdOp w).toNat = w.toNat % 2 ^ 4 := by simp [cmdOp]
  rw [h]
  simp only [opLegal, Bool.and_eq_true, decide_eq_true_iff, List.mem_cons, List.not_mem_nil, or_false]
  omega

theorem rsv1Zero_iff (w : Word) : rsv1Zero w = true ↔ cmdRsv1 w = 0 := by
  simp [rsv1Zero, cmdRsv1, BitVec.toNat_eq, Nat.shiftRight_eq_div_pow]

theorem rsv2Zero_iff (w : Word) : rsv2Zero w = true ↔ cmdRsv2 w = 0 := by
  have hw := w.isLt
  simp only [rsv2Zero, cmdRsv2, beq_iff_eq, BitVec.toNat_eq, BitVec.extractLsb'_toNat, Nat.shiftRight_eq_div_pow,
    BitVec.ofNat_eq_ofNat, BitVec.toNat_ofNat]
  omega

theorem legalWord_iff_decodes (w : Word) : legalWord w = true ↔ ∃ i, decode w = .ok i := by
  rw [exists_decode_eq_ok_iff, legalWord, Bool.and_eq_true, Bool.and_eq_true, opLegal_iff, rsv1Zero_iff, rsv2Zero_iff,
    and_assoc]

/-- Settles O2: the fields of a word are the word, its lanes are the word, and the reserved fields and OP decide. -/
theorem legalWordsAreTheEncodings : Obligations.LegalWordsAreTheEncodings :=
  ⟨fun _ _ => decode_eq_ok_iff_eq_encode, decodeBytes_bytesOfWord, fun _ => exists_decode_eq_ok_iff,
    legalWord_iff_decodes⟩

end Sys2Proof
end

section
/-! PROOFS, 10_state.md and 70_reset_and_hazards.md: the invariant holds at reset, every step keeps it, and no state that
has it stops (R26, R29, R33 to R36, R136 to R140, R260, R278). -/

namespace Sys2Proof.Machine

/-! ## States that have the invariant whatever came before: reset, and the two ends of a command -/

/-- A block at its reset values has the invariant (R260). -/
theorem resetBlock_inv (s : State) : (resetBlock s).Inv where
  phase := rfl
  done := nofun
  last := nofun
  ioerr := ⟨Nat.two_pow_pos 32, fun _ => rfl⟩
  sat := nofun
  failed _ := rfl
  fresh _ _ := ⟨rfl, rfl, rfl, rfl, rfl, rfl⟩
  held _ := resetBlock_idem s

/-- A block that `resetBlock` leaves as it is has the invariant. -/
theorem inv_of_resetBlock_eq {s : State} (h : resetBlock s = s) : s.Inv := h ▸ resetBlock_inv s

/-- Settles O57: the reset state is a block at its reset values. -/
theorem resetMeetsInvariant : Obligations.ResetMeetsInvariant := inv_of_resetBlock_eq resetBlock_reset

/-- IOERR[63:32] is 0 after a failed end (R33). -/
theorem toNat_ioerrOf_lt (k : ErrKind) (e : IoCode) : (ioerrOf k e).toNat < 2 ^ 32 := by
  unfold ioerrOf
  split
  · rw [BitVec.toNat_setWidth_of_le (by decide)]
    exact e.isLt
  · decide

/-- A transfer answered OK adds one to CNT, which is not at its end (R35). -/
theorem toNat_count_succ {n : Count} (hn : n.toNat < 2 ^ 65 - 1) : (n + 1).toNat = n.toNat + 1 := by
  bv_omega

section
variable {s : State} {v q r : Word} {n : Count} {c : Bool} {k : ErrKind} {e : IoCode} {m a : Nat}
  (hr : s.resetAsserted = false)
include hr

/-- While reset is released the invariant says nothing of the reset values. -/
theorem held_of_released : s.resetAsserted = true → resetBlock s = s := fun h => absurd (hr.symm.trans h) nofun

/-- A successful end has the invariant if it sets SAT with the saturated result only (R29, R235). -/
theorem complete_inv (hc : c = true → v.toNat = Config.maxWord) :
    (complete v n q r c s).Inv where
  phase := rfl
  done := nofun
  last := nofun
  ioerr := ⟨Nat.two_pow_pos 32, fun _ => rfl⟩
  sat h := ⟨rfl, hc h⟩
  failed h := absurd rfl h
  fresh _ h := absurd h nofun
  held := held_of_released (s := complete v n q r c s) hr

/-- A failed end has the invariant (R33, R236). -/
theorem raiseError_inv : (raiseError k e q r s).Inv where
  phase := rfl
  done := nofun
  last := nofun
  ioerr := ⟨toNat_ioerrOf_lt k e, fun h => if_neg h⟩
  sat := nofun
  failed _ := rfl
  fresh _ h := absurd h nofun
  held := held_of_released (s := raiseError k e q r s) hr

theorem recombine_inv : (recombine m a s).Inv := by
  rcases recombine_cases m a s with ⟨-, h⟩ | ⟨-, h⟩
  · exact h ▸ complete_inv hr nofun
  · exact h ▸ raiseError_inv hr

end

/-! ## Changes that keep the invariant -/

theorem toNat_pos {b : Word} (h : b ≠ 0) : 0 < b.toNat := Nat.pos_of_ne_zero fun h0 => h (BitVec.eq_of_toNat_eq h0)

/-- A codeword has at most 2^64 bits, so its length fits the 65-bit count (R104). -/
theorem length_golombBits_operands_le {x b : Word} (hb : b ≠ 0) (o : BitOrder) :
    (golombBits x.toNat b.toNat o).length ≤ 2 ^ 64 := by
  rw [length_golombBits]
  exact golombLen_le x.isLt (toNat_pos hb) b.isLt

/-- Every codeword has a first bit (R104). -/
theorem golombBits_length_pos (x b : Nat) (o : BitOrder) : 0 < (golombBits x b o).length := by
  rw [length_golombBits]
  exact golombLen_pos x b

section
variable {s : State} (h : s.Inv)
include h

/-- What surrounds the block plays no part in the invariant. -/
theorem State.Inv.surroundings (ms : List Move) (as : List SinkAnswer) (bs : List SourceAnswer) (tr : List Event) :
    ({ s with moves := ms, sinkAnswers := as, sourceAnswers := bs, trace := tr } : State).Inv where
  phase := h.phase
  done := h.done
  last := h.last
  ioerr := h.ioerr
  sat := h.sat
  failed := h.failed
  fresh := h.fresh
  held hr :=
    congrArg (fun u : State => { u with moves := ms, sinkAnswers := as, sourceAnswers := bs, trace := tr }) (h.held hr)

theorem State.Inv.around (ms : List Move) (tr : List Event) : (s.around ms tr).Inv :=
  h.surroundings ms s.sinkAnswers s.sourceAnswers tr

theorem State.Inv.takeSink (c : Bool) (a : SinkAnswer) (rest : List SinkAnswer) : (takeSink c a rest s).Inv :=
  h.surroundings s.moves rest s.sourceAnswers _

theorem State.Inv.takeSource (a : SourceAnswer) (rest : List SourceAnswer) : (takeSource a rest s).Inv :=
  h.surroundings s.moves s.sinkAnswers rest _

/-- A busy block is not held in reset (R260). -/
theorem State.Inv.released (hb : s.status.busy = true) : s.resetAsserted = false := by
  by_contra hr
  have hs := h.held (by simpa using hr)
  rw [← hs] at hb
  exact absurd hb nofun

/-- The operand registers play no part in the invariant while reset is released. -/
theorem State.Inv.operands (hr : s.resetAsserted = false) (x b p : Word) :
    ({ s with x := x, b := b, p := p } : State).Inv where
  phase := h.phase
  done := h.done
  last := h.last
  ioerr := h.ioerr
  sat := h.sat
  failed := h.failed
  fresh := h.fresh
  held := held_of_released (s := { s with x := x, b := b, p := p }) hr

theorem State.Inv.dropCommand (hb : s.status.busy = true) : (dropCommand s).Inv where
  phase := h.phase
  done := h.done
  last := h.last
  ioerr := h.ioerr
  sat := h.sat
  failed := h.failed
  fresh hf := absurd (hb.symm.trans hf) nofun
  held := held_of_released (s := Machine.dropCommand s) (h.released hb)

/-- A command that goes on to another phase keeps the invariant if the phase fits. -/
theorem State.Inv.goes (hr : s.resetAsserted = false) {ph : Phase}
    (hp : State.phaseInv { countTransfer s with phase := ph }) : ({ countTransfer s with phase := ph } : State).Inv where
  phase := hp
  done := h.done
  last := h.last
  ioerr := h.ioerr
  sat := h.sat
  failed := h.failed
  fresh := h.fresh
  held := held_of_released (s := { countTransfer s with phase := ph }) hr

/-- A command that starts keeps the invariant if its first phase fits (R31, R34, R93). -/
theorem State.Inv.starts (hr : s.resetAsserted = false) {i : Instr} {ph : Phase}
    (hp : State.phaseInv { latch (encode i) s with phase := ph }) :
    ({ latch (encode i) s with phase := ph } : State).Inv where
  phase := hp
  done _ := rfl
  last _ := ⟨rfl, rfl⟩
  ioerr := h.ioerr
  sat := h.sat
  failed := h.failed
  fresh hf := absurd hf nofun
  held := held_of_released (s := { latch (encode i) s with phase := ph }) hr

end

/-! ## The steps of a running command -/

/-- A saturated result is 2^64 - 1 (R212). -/
theorem bofpValue_of_bofpSat {w : Word} (h : bofpSat w = true) : bofpValue w = 0xFFFF_FFFF_FFFF_FFFF := by
  have hgt : Config.maxWord < bofpBelow w + 1 := of_decide_eq_true h
  rw [bofpValue, Nat.min_eq_right hgt.le]
  rfl

section
variable {s t : State} (hr : s.resetAsserted = false)
include hr

theorem lenRun_inv (ht : lenRun s = .next t) : t.Inv := by
  obtain ⟨-, rfl⟩ := lenRun_next ht
  exact complete_inv hr nofun

theorem bofpRun_inv (ht : bofpRun s = .next t) : t.Inv := by
  obtain ⟨-, rfl⟩ := bofpRun_next ht
  exact complete_inv hr fun hs => by rw [bofpValue_of_bofpSat hs]; rfl

theorem pofbRun_inv (ht : pofbRun s = .next t) : t.Inv := by
  obtain ⟨-, rfl⟩ := pofbRun_next ht
  exact complete_inv hr nofun

variable (h : s.Inv)
include h

/-- CNT is the number of bits sent and does not wrap (R136). -/
theorem encRun_inv (ht : encRun s = .next t) : t.Inv := by
  obtain ⟨u, i, c, hph, -, rfl⟩ := encRun_next ht
  have hp := h.phase
  simp only [State.phaseInv, hph] at hp
  obtain ⟨hb, hop, hlb, hu, -, hcnt⟩ := hp
  rcases encTransfer_cases u i c s with ⟨-, e⟩ | ⟨rest, -, hi, e⟩ | ⟨rest, -, -, e⟩ | ⟨_, rest, -, e⟩
  · rw [e]
    exact h
  · have hlen : u.length ≤ 2 ^ 64 := hu ▸ length_golombBits_operands_le hlb s.lord
    have hcnt' : (s.cnt + 1).toNat = i + 1 := (toNat_count_succ (by omega)).trans (by rw [hcnt])
    rw [e]
    exact (h.takeSink c .ok rest).goes hr ⟨hb, hop, hlb, hu, hi, hcnt'⟩
  · rw [e]
    exact complete_inv hr nofun
  · rw [e]
    exact raiseError_inv hr

/-- A source transfer keeps the invariant if what it does with a bit does. -/
theorem sourceTransfer_inv {q : Nat} {onBit : Bool → State → State}
    (hon : ∀ c rest, (onBit c (countTransfer (takeSource (.ok c) rest s))).Inv) : (sourceTransfer q onBit s).Inv := by
  rcases sourceTransfer_cases q onBit s with ⟨-, e⟩ | ⟨_, rest, -, e⟩ | ⟨c, rest, -, e⟩
  · rw [e]
    exact h
  · rw [e]
    exact raiseError_inv hr
  · rw [e]
    exact hon c rest

/-- The unary reader: the quotient stays within QLIM and CNT is the number of bits read (R137). -/
theorem decUnaryBit_inv {qc : Nat} (hph : s.phase = .decU qc) (c : Bool) (rest : List SourceAnswer) :
    (decUnaryBit qc c (countTransfer (takeSource (.ok c) rest s))).Inv := by
  have hp := h.phase
  simp only [State.phaseInv, hph] at hp
  obtain ⟨hb, hop, hlb, hq, hcnt⟩ := hp
  have hmax : qc < 2 ^ 64 := Nat.lt_of_le_pred (by decide) (hq.trans (qlim_le _))
  have hcnt' : (s.cnt + 1).toNat = qc + 1 := (toNat_count_succ (by omega)).trans (by rw [hcnt])
  rcases decUnaryBit_cases qc c (countTransfer (takeSource (.ok c) rest s)) with
    ⟨-, -, e⟩ | ⟨-, hk, e⟩ | ⟨-, -, e⟩ | ⟨-, hq', e⟩
  · rw [e]
    exact recombine_inv hr
  · rw [e]
    exact (h.takeSource (.ok c) rest).goes hr ⟨hb, hop, hlb, hq, Nat.pos_of_ne_zero hk, Nat.one_pos, hcnt'⟩
  · rw [e]
    exact raiseError_inv hr
  · rw [e]
    exact (h.takeSource (.ok c) rest).goes hr ⟨hb, hop, hlb, hq', hcnt'⟩

/-- The reader of the `k` leading bits: after `j` of them their value is below `2^j` in both orders (R138). -/
theorem decPrefixBit_inv {q j acc : Nat} (hph : s.phase = .decP q j acc) (c : Bool) (rest : List SourceAnswer) :
    (decPrefixBit q j acc c (countTransfer (takeSource (.ok c) rest s))).Inv := by
  have hp := h.phase
  simp only [State.phaseInv, hph] at hp
  obtain ⟨hb, hop, hlb, hq, hj, hacc, hcnt⟩ := hp
  have hmax : q < 2 ^ 64 := Nat.lt_of_le_pred (by decide) (hq.trans (qlim_le _))
  have hk : minBinK s.bVal ≤ 63 := minBinK_le s.lb.isLt
  have hcnt' : (s.cnt + 1).toNat = q + 1 + (j + 1) := (toNat_count_succ (by omega)).trans (by omega)
  have hacc' : prefixStep s.lord j acc c < 2 ^ (j + 1) := prefixStep_lt hacc
  rcases decPrefixBit_cases q j acc c (countTransfer (takeSource (.ok c) rest s)) with
    ⟨hj', e⟩ | ⟨-, -, e⟩ | ⟨hj', hu, e⟩
  · rw [e]
    exact (h.takeSource (.ok c) rest).goes hr ⟨hb, hop, hlb, hq, hj', hacc', hcnt'⟩
  · rw [e]
    exact recombine_inv hr
  · have hjk : minBinK s.bVal = j + 1 := le_antisymm hj' hj
    rw [e]
    exact (h.takeSource (.ok c) rest).goes hr ⟨hb, hop, hlb, hq, hu, hjk ▸ hacc', hjk ▸ hcnt'⟩

theorem decRun_inv (ht : decRun s = .next t) : t.Inv := by
  rcases decRun_next ht with ⟨qc, hph, rfl⟩ | ⟨q, j, acc, hph, rfl⟩ | ⟨q, acc, -, rfl⟩
  · exact sourceTransfer_inv hr h (decUnaryBit_inv hr h hph)
  · exact sourceTransfer_inv hr h (decPrefixBit_inv hr h hph)
  · exact sourceTransfer_inv hr h fun c rest => recombine_inv hr

/-! ## A command and a step -/

/-- Acceptance keeps the invariant if the first phase fits the latched command (R93). -/
theorem accept_inv {i : Instr} {check : State → Option ErrKind} {first : State → Phase}
    (hf : check (latch (encode i) s) = none →
      State.phaseInv { latch (encode i) s with phase := first (latch (encode i) s) }) :
    (accept i check first s).Inv := by
  rcases accept_cases i check first s with ⟨k, -, e⟩ | ⟨hc, e⟩
  · rw [e]
    exact raiseError_inv hr
  · rw [e]
    exact h.starts hr (hf hc)

/-- A command keeps the invariant if its first phase fits and its running step keeps it (log 6). -/
theorem command_inv {i : Instr} {check : State → Option ErrKind} {first : State → Phase} {go : State → Result}
    (hf : check (latch (encode i) s) = none →
      State.phaseInv { latch (encode i) s with phase := first (latch (encode i) s) })
    (hgo : go s = .next t → t.Inv) (ht : command i check first go s = .next t) : t.Inv := by
  rcases command_cases i check first go s with ⟨-, e⟩ | ⟨-, -, e⟩ | ⟨hb, -, e⟩
  · obtain rfl := Host.Outcome.next.inj (ht.symm.trans e)
    exact accept_inv hr h hf
  · exact hgo (e.symm.trans ht)
  · obtain rfl := Host.Outcome.next.inj (ht.symm.trans e)
    exact h.dropCommand hb

theorem exec_inv {i : Instr} (ht : exec i s = .next t) : t.Inv := by
  cases i with
  | len o =>
    refine command_inv hr h (fun hc => ?_) (lenRun_inv hr) ht
    exact ⟨rfl, rfl, .inl ⟨cmdOp_encode _, checkModulus_eq_none.mp hc⟩⟩
  | enc o =>
    refine command_inv hr h (fun hc => ?_) (encRun_inv hr h) ht
    exact ⟨rfl, cmdOp_encode _, checkModulus_eq_none.mp hc, rfl, golombBits_length_pos _ _ _, rfl⟩
  | dec o =>
    refine command_inv hr h (fun hc => ?_) (decRun_inv hr h) ht
    exact ⟨rfl, cmdOp_encode _, checkModulus_eq_none.mp hc, Nat.zero_le _, rfl⟩
  | bofp o =>
    refine command_inv hr h (fun hc => ?_) (bofpRun_inv hr) ht
    exact ⟨rfl, rfl, .inr (.inl ⟨cmdOp_encode _, checkParameter_eq_none.mp hc⟩)⟩
  | pofb o =>
    refine command_inv hr h (fun hc => ?_) (pofbRun_inv hr) ht
    exact ⟨rfl, rfl, .inr (.inr ⟨cmdOp_encode _, checkModulus_eq_none.mp hc⟩)⟩

end

theorem releaseReset_inv {s : State} (h : s.Inv) : (releaseReset s).Inv := by
  cases hr : s.resetAsserted with
  | true => exact inv_of_resetBlock_eq (resetBlock_releaseReset hr)
  | false =>
    rcases releaseReset_cases s with ⟨ht, -⟩ | ⟨-, e⟩
    · exact absurd (hr.symm.trans ht) nofun
    · rw [e]
      exact h

/-- Settles O58: by the cases of a step, each of which keeps the invariant or makes it hold. -/
theorem everyStepKeepsInvariant : Obligations.EveryStepKeepsInvariant := by
  intro s t h ht
  obtain ⟨ms, tr, -, he⟩ := step_effect ht
  have h₁ : (s.around ms tr).Inv := h.around ms tr
  cases he with
  | quiet e => exact e ▸ h₁
  | wroteX v _ hr e => exact e ▸ h₁.operands hr v _ _
  | wroteB v _ hr e => exact e ▸ h₁.operands hr _ v _
  | wroteP v _ hr e => exact e ▸ h₁.operands hr _ _ v
  | dropped w _ _ hb e => exact e ▸ h₁.dropCommand hb
  | illegal w _ hr _ _ e => exact e ▸ raiseError_inv (s := latch w (s.around ms tr)) hr
  | accepted w i _ hr _ _ e => exact exec_inv (s := s.around ms tr) hr h₁ e
  | ran i hb _ e => exact exec_inv (s := s.around ms tr) (h.released hb) h₁ e
  | asserted _ e => exact e ▸ inv_of_resetBlock_eq (resetBlock_assertReset _)
  | released _ e => exact e ▸ releaseReset_inv h₁

/-! ## No stop -/

/-- The OP of the latch names the command that runs (R34, R91). -/
theorem latched_of_lop {s : State} {i : Instr} (hop : s.lop = i.op) (hord : s.lord = i.ord) : s.latched = some i := by
  rw [State.latched, hop, hord, ofOp_op]

/-- The phase of a busy block is one in which the latched command has a next step (R35). -/
theorem State.Inv.runs {s : State} (h : s.Inv) (hb : s.status.busy = true) :
    ∃ i t, s.latched = some i ∧ exec i s = .next t := by
  have hp := h.phase
  unfold State.phaseInv at hp
  split at hp
  next => exact absurd (hb.symm.trans hp) nofun
  next hph =>
    obtain ⟨-, -, ⟨hop, -⟩ | ⟨hop, -⟩ | ⟨hop, -⟩⟩ := hp
    · exact ⟨.len s.lord, _, latched_of_lop hop rfl, exec_len_calculating hph ⟨hb, latched_of_lop hop rfl⟩⟩
    · exact ⟨.bofp s.lord, _, latched_of_lop hop rfl, exec_bofp_calculating hph ⟨hb, latched_of_lop hop rfl⟩⟩
    · exact ⟨.pofb s.lord, _, latched_of_lop hop rfl, exec_pofb_calculating hph ⟨hb, latched_of_lop hop rfl⟩⟩
  next u i hph =>
    obtain ⟨-, hop, -, -, hi, -⟩ := hp
    obtain ⟨c, hc⟩ := BitSeq.bit?_isSome hi
    have hl : s.latched = some (.enc s.lord) := latched_of_lop hop rfl
    exact ⟨.enc s.lord, encTransfer u i c s, hl, (command_running hb hl).trans (by simp [encRun, hph, hc])⟩
  next hph =>
    have hl : s.latched = some (.dec s.lord) := latched_of_lop hp.2.1 rfl
    exact ⟨.dec s.lord, _, hl, (command_running hb hl).trans (by rw [decRun, hph])⟩
  next hph =>
    have hl : s.latched = some (.dec s.lord) := latched_of_lop hp.2.1 rfl
    exact ⟨.dec s.lord, _, hl, (command_running hb hl).trans (by rw [decRun, hph])⟩
  next hph =>
    have hl : s.latched = some (.dec s.lord) := latched_of_lop hp.2.1 rfl
    exact ⟨.dec s.lord, _, hl, (command_running hb hl).trans (by rw [decRun, hph])⟩

theorem State.Inv.blockStep_next {s : State} (h : s.Inv) : ∃ t, blockStep s = .next t := by
  cases hb : s.status.busy with
  | false => exact ⟨s, blockStep_free hb⟩
  | true =>
    obtain ⟨i, t, hl, ht⟩ := h.runs hb
    exact ⟨t, (blockStep_running ⟨hb, hl⟩).trans ht⟩

theorem writeCmd_next (w : Word) (s : State) : ∃ t, writeCmd w s = .next t := by
  cases hb : s.status.busy with
  | true => exact ⟨_, writeCmd_busy hb⟩
  | false =>
    obtain ⟨t, ht, -⟩ := writeCmd_free_last w hb
    exact ⟨t, ht⟩

theorem writeOffset_next (off : Nat) (v : Word) (s : State) : ∃ t, writeOffset off v s = .next t := by
  unfold writeOffset
  split
  · exact ⟨_, rfl⟩
  · split
    · exact ⟨_, rfl⟩
    · exact ⟨_, rfl⟩
    · exact ⟨_, rfl⟩
    · exact writeCmd_next v s
    · exact ⟨_, rfl⟩

theorem busAccess_next (a : BusAccess) (s : State) : ∃ t, busAccess a s = .next t := by
  unfold busAccess
  split
  · exact ⟨_, rfl⟩
  · split
    · split
      · exact ⟨_, rfl⟩
      · exact writeOffset_next _ _ _
    · exact ⟨_, rfl⟩

theorem State.Inv.doMove_next {s : State} (h : s.Inv) (m : Move) : ∃ t, doMove m s = .next t := by
  cases m with
  | block => exact h.blockStep_next
  | bus a => exact busAccess_next a s
  | poll =>
    change ∃ t, pollStatus s = .next t
    unfold pollStatus
    split
    · exact (h.around (.poll :: s.moves) _).blockStep_next
    · exact ⟨_, rfl⟩
  | assertReset => exact ⟨_, rfl⟩
  | releaseReset => exact ⟨_, rfl⟩
  | lateAnswer => exact ⟨_, rfl⟩

/-- Settles O59: the block's own step has a next state under the invariant, and every other move always has one. -/
theorem invariantStatesNeverStop : Obligations.InvariantStatesNeverStop := by
  intro s h
  unfold step
  split
  · exact h.blockStep_next
  · exact (h.around _ s.trace).doMove_next _

/-! ## The end of a run (R278) -/

section
variable {s : State} {m : Move} {ms : List Move} (hf : s.free) (hm : s.moves = m :: ms) (hh : m.isHost = false)
include hf hm hh

/-- With BUSY = 0 a move of the block, the collaborator or the reset input leaves the block as it is, or at its reset
values. -/
theorem step_free_quiet :
    ∃ t, step s = .next t ∧ t.moves = ms ∧ (t = { s with moves := ms } ∨ resetBlock t = t) := by
  rw [step, hm]
  cases m with
  | block => exact ⟨_, blockStep_free hf, rfl, .inl rfl⟩
  | bus a => exact absurd hh nofun
  | poll => exact absurd hh nofun
  | assertReset => exact ⟨_, rfl, rfl, .inr rfl⟩
  | releaseReset =>
    refine ⟨_, rfl, ?_⟩
    rcases releaseReset_cases { s with moves := ms } with ⟨-, e⟩ | ⟨-, e⟩
    · rw [e]
      exact ⟨rfl, .inr rfl⟩
    · rw [e]
      exact ⟨rfl, .inl rfl⟩
  | lateAnswer => exact ⟨_, rfl, rfl, .inl rfl⟩

theorem step_free_without_reset (hr : m.isReset = false) : step s = .next { s with moves := ms } := by
  rw [step, hm]
  cases m with
  | block => exact blockStep_free hf
  | bus a => exact absurd hh nofun
  | poll => exact absurd hh nofun
  | assertReset => exact absurd hr nofun
  | releaseReset => exact absurd hr nofun
  | lateAnswer => rfl

end

theorem step_of_no_moves {s : State} (h : s.moves = []) : step s = blockStep s := by
  rw [step, h]

/-- A run that is over stays over: each step takes a move off and leaves the phase IDLE. -/
theorem run_over (n : Nat) : ∀ s : State, s.free → s.over → ∃ t, run n s = .next t ∧ t.over := by
  induction n with
  | zero => exact fun s _ ho => ⟨s, rfl, ho⟩
  | succ n ih =>
    intro s hf ⟨hm, hp, hports⟩
    cases hs : s.moves with
    | nil =>
      rw [run, step_of_no_moves hs, blockStep_free hf]
      exact ih s hf ⟨hm, hp, hports⟩
    | cons m ms =>
      rw [hs] at hm
      obtain ⟨u, hu, hums, hcase⟩ := step_free_quiet hf hs (hm m List.mem_cons_self)
      have hu' : u.free ∧ u.phase = .idle := by
        rcases hcase with rfl | hreset
        · exact ⟨hf, hp⟩
        · rw [← hreset]
          exact ⟨rfl, rfl⟩
      rw [run, hu]
      exact ih u hu'.1 ⟨hums ▸ fun m' hm' => hm m' (List.mem_cons_of_mem m hm'), hu'.2, ports_idle hu'.2⟩

/-- Without a reset to come the steps of a run that is over only take the moves off. -/
theorem run_over_without_reset (n : Nat) : ∀ s : State, s.free → (∀ m ∈ s.moves, m.isHost = false) →
    (∀ m ∈ s.moves, m.isReset = false) → run n s = .next { s with moves := s.moves.drop n } := by
  induction n with
  | zero => exact fun s _ _ _ => rfl
  | succ n ih =>
    intro s hf hh hr
    cases hs : s.moves with
    | nil =>
      rw [run, step_of_no_moves hs, blockStep_free hf]
      exact (ih s hf hh hr).trans (by rw [hs, List.drop_nil, List.drop_nil])
    | cons m ms =>
      rw [hs] at hh hr
      rw [run, step_free_without_reset hf hs (hh m List.mem_cons_self) (hr m List.mem_cons_self)]
      exact ih { s with moves := ms } hf (fun m' hm' => hh m' (List.mem_cons_of_mem m hm'))
        fun m' hm' => hr m' (List.mem_cons_of_mem m hm')

/-- Settles O60: under the invariant the phase IDLE means BUSY = 0, and the rest is by induction on the steps. -/
theorem finishedRunStays : Obligations.FinishedRunStays := by
  intro s n h ho
  have hf : s.status.busy = false := by
    have hp := h.phase
    rwa [State.phaseInv, ho.2.1] at hp
  exact ⟨hf, run_over n s hf ho, fun hr => ⟨_, run_over_without_reset n s hf ho.1 hr, rfl, fun _ => rfl⟩⟩

end Sys2Proof.Machine
end

section
/-! PROOFS, 10_state.md and 20_memory.md: the register window, the STATUS word and the idle ports (R24, R43, R60, R64). -/

namespace Sys2Proof.Machine

/-! ## Reads of the window (R20, R64) -/

/-- Settles O3: the lane of offset `off + i` is lane `i` of the aligned offset. -/
theorem byteLanesAreLittleEndian : Obligations.ByteLanesAreLittleEndian := by
  intro s off i j hal _ hi hj
  have hword : (off + i) / 8 * 8 = off := by omega
  have hlane : (off + i) % 8 = i := by omega
  rw [windowByte, hword, hlane, byteLane, BitVec.getLsbD_extractLsb', decide_eq_true hj, Bool.true_and]

/-- Settles O40: each offset of the window names its register or none. -/
theorem windowReads : Obligations.WindowReads :=
  fun _ => ⟨rfl, rfl, rfl, rfl, rfl, rfl, rfl, rfl, rfl, rfl, rfl, rfl, rfl, rfl, rfl, rfl⟩

/-! ## The STATUS word (R24) -/

theorem BitOrder.getLsbD_bit (o : BitOrder) : o.bit.getLsbD 0 = true ↔ o = .le := by
  cases o <;> decide

/-- The five flags are bits 0 to 4. -/
theorem Status.word_flags (f : Status) :
    f.word.getLsbD 0 = f.busy ∧ f.word.getLsbD 1 = f.done ∧ f.word.getLsbD 2 = f.rej ∧ f.word.getLsbD 3 = f.n64 ∧
      f.word.getLsbD 4 = f.sat := by
  simp only [Status.word, BitVec.getLsbD_append, BitVec.getLsbD_ofBool]
  simp

/-- The zeros between the fields, LASTOP, and the zeros above LASTORD. -/
theorem Status.word_fields (f : Status) :
    f.word.extractLsb' 5 3 = 0 ∧ f.word.extractLsb' 12 4 = 0 ∧ f.word.extractLsb' 16 4 = f.lastOp ∧
      f.word.extractLsb' 21 43 = 0 := by
  simp only [Status.word, BitVec.extractLsb'_append_eq_of_le, Nat.reduceLeDiff, Nat.reduceSub]
  exact ⟨BitVec.extractLsb'_append_eq_right, BitVec.extractLsb'_append_eq_right, BitVec.extractLsb'_append_eq_right,
    BitVec.extractLsb'_eq_self⟩

theorem Status.word_lastOrd (f : Status) : f.word.getLsbD 20 = true ↔ f.lastOrd = .le := by
  rw [← BitOrder.getLsbD_bit]
  simp only [Status.word, BitVec.getLsbD_append]
  simp

/-- Settles O41: the word is the concatenation of its fields, so each is found at its place. -/
theorem statusLayout : Obligations.StatusLayout := by
  intro f
  obtain ⟨hbusy, hdone, hrej, hn64, hsat⟩ := f.word_flags
  obtain ⟨h5, h12, hop, h21⟩ := f.word_fields
  exact ⟨hbusy, hdone, hrej, hn64, hsat, h5, f.word_err, h12, hop, f.word_lastOrd, h21⟩

/-! ## Bus accesses (R60, R260) -/

theorem busAccess_outside {s : State} {a : BusAccess} (h : windowOffset s a.addr = none) :
    busAccess a s = .next (s.observe (.bus a .notDecoded)) := by
  rw [busAccess, h]

theorem releaseReset_baseIndex (s : State) : (releaseReset s).baseIndex = s.baseIndex := by
  rcases releaseReset_cases s with ⟨-, e⟩ | ⟨-, e⟩
  · rw [e]
    rfl
  · rw [e]

/-- No step moves the window (log 1). -/
theorem step_baseIndex {s t : State} (h : step s = .next t) : t.baseIndex = s.baseIndex := by
  obtain ⟨ms, tr, -, he⟩ := step_effect h
  cases he with
  | quiet e => rw [e, around_baseIndex]
  | wroteX v _ _ e => rw [e, around_baseIndex]
  | wroteB v _ _ e => rw [e, around_baseIndex]
  | wroteP v _ _ e => rw [e, around_baseIndex]
  | dropped w _ _ _ e => rw [e, dropCommand_baseIndex, around_baseIndex]
  | illegal w _ _ _ _ e => rw [e, acceptIllegal, raiseError_baseIndex, latch_baseIndex, around_baseIndex]
  | accepted w i _ _ _ _ e =>
    obtain ⟨-, -, -, -, hbase, -⟩ := exec_keeps e
    exact hbase
  | ran i _ _ e =>
    obtain ⟨-, -, -, -, hbase, -⟩ := exec_keeps e
    exact hbase
  | asserted _ e => rw [e]; rfl
  | released _ e => rw [e, releaseReset_baseIndex, around_baseIndex]

/-- Settles O42: the window is `0x80` bytes from a multiple of `0x80`, and stays there. -/
theorem windowDecoding : Obligations.WindowDecoding :=
  ⟨fun s => Nat.mul_mod_right 0x80 s.baseIndex, fun _ _ _ => windowOffset_eq_some, fun _ _ => busAccess_outside,
    fun _ _ h => congrArg (Config.windowSize * ·) (step_baseIndex h)⟩

theorem writeOffset_held {s : State} (hr : s.resetAsserted = true) (off : Nat) (v : Word) : writeOffset off v s = .next s :=
  if_pos hr

/-- Settles O44: each access is recorded with its response, and a write is then ignored. -/
theorem heldResetIgnoresAccesses : Obligations.HeldResetIgnoresAccesses := by
  intro s a hr
  unfold busAccess
  split
  next => exact ⟨_, rfl⟩
  next off _ =>
    split
    next =>
      split
      next => exact ⟨_, rfl⟩
      next v _ => exact ⟨_, writeOffset_held (s := s.observe _) hr off v⟩
    next => exact ⟨_, rfl⟩

/-! ## The ports (R43) -/

theorem sinkPort_eq_none {s : State} (h : ∀ u i, s.phase ≠ .encSend u i) : sinkPort s = none := by
  unfold sinkPort
  split
  next hp => exact absurd hp (h _ _)
  next => rfl

theorem sourcePort_encSend {s : State} {u : BitSeq} {i : Nat} (h : s.phase = .encSend u i) : sourcePort s = none := by
  rw [sourcePort, h]

/-- The phase is one of a single command, so at most one port is busy (R35). -/
theorem sinkPort_or_sourcePort_idle (s : State) : sinkPort s = none ∨ sourcePort s = none := by
  cases hp : s.phase with
  | encSend u i => exact .inr (sourcePort_encSend hp)
  | _ => exact .inl (sinkPort_eq_none (by simp [hp]))

/-- Settles O45: by the phase, IDLE once reset is asserted. -/
theorem idlePorts : Obligations.IdlePorts := by
  intro s
  refine ⟨?_, (sinkPort_or_sourcePort_idle s).resolve_left, (sinkPort_or_sourcePort_idle s).symm.resolve_left,
    ports_idle rfl⟩
  rintro (hp | hp)
  · exact ports_idle hp
  · exact ⟨sinkPort_calculating hp, sourcePort_calculating hp⟩

end Sys2Proof.Machine
end

section
/-! PROOFS, 30_encoding.md and 70_reset_and_hazards.md: the command that a step runs, and the acceptance of a command
(R90, R93, R232, R233, R270, R272). -/

namespace Sys2Proof

/-- A table word of 64 bits is decoded as the command word it is. -/
theorem decode_of_decodeTableWord {w : Nat} {i : Instr} (h : decodeTableWord 64 w = some i) :
    decode (BitVec.ofNat 64 (w % 2 ^ 64)) = .ok i := by
  rw [decodeTableWord, if_pos (Nat.mod_lt _ (Nat.two_pow_pos 64)), decodeBytes_bytesOfWord] at h
  cases hd : decode (BitVec.ofNat 64 (w % 2 ^ 64)) with
  | error e =>
    rw [hd] at h
    cases h
  | ok j =>
    rw [hd] at h
    exact congrArg _ (Option.some.inj h)

end Sys2Proof

namespace Sys2Proof.Machine

/-! ## Steps -/

theorem writeOffset_cmd {s : State} (hr : s.resetAsserted = false) (w : Word) :
    writeOffset Reg.cmd.offset w s = writeCmd w s :=
  writeOffset_released hr _ w

/-- A step whose move is a CMD write, with reset released. -/
theorem step_writeCmd {s : State} {w : Word} (hr : s.resetAsserted = false) (hw : s.nextWrites .cmd w) :
    step s = writeCmd w (s.around s.moves.tail (.bus (writeAccess s .cmd w) .writeDone :: s.trace)) := by
  rw [step_nextWrites hw, writeOffset_cmd]
  exact hr

/-- With no move to come a running command takes its step (R272). -/
theorem step_running {s : State} {i : Instr} (hr : s.running i) (hm : s.moves = []) : step s = exec i s :=
  (step_of_no_moves hm).trans (blockStep_running hr)

/-- Settles O10: a CMD write reaches `exec` by the decoder, the block's own step by the latches. -/
theorem stepRunsTheDecodedCommand : Obligations.StepRunsTheDecodedCommand := by
  refine ⟨fun s w i hf hr hw hd => ?_, fun s i => step_running, fun s i ms hrun hm => ?_⟩
  · exact (step_writeCmd hr hw).trans (writeCmd_legal hf hd)
  · rw [step, hm]
    exact blockStep_running (s := { s with moves := ms }) hrun

/-- Settles O11: the placed word is the encoding of its command, and its write is the next move of a free block. -/
theorem placedWordRunsNext : Obligations.PlacedWordRunsNext := by
  intro s w i h
  have hd := decode_of_decodeTableWord h
  have hstep := stepRunsTheDecodedCommand.1 (s.withFetchWord 64 w) _ i rfl rfl rfl hd
  rw [decode_eq_ok_iff_eq_encode.mp hd] at hstep
  exact hstep

/-- Settles O16: the write is recorded and dropped. -/
theorem busyCmdWriteIsDropped : Obligations.BusyCmdWriteIsDropped :=
  fun _ _ hb hr hw => (step_writeCmd hr hw).trans (writeCmd_busy hb)

/-! ## Acceptance (R93) -/

section
variable {s : State} (hf : s.free) (i : Instr) (first : State → Phase) (go : State → Result)
include hf

theorem command_modulus_starts (hb : s.b ≠ 0) :
    command i checkModulus first go s = .next { latch (encode i) s with phase := first (latch (encode i) s) } := by
  rw [command_free hf, accept_modulus hb]

theorem command_modulus_fails (hb : s.b = 0) :
    command i checkModulus first go s = .next (raiseError .invalidModulus 0 0 0 (latch (encode i) s)) := by
  rw [command_free hf, accept_modulus_zero hb]

theorem command_parameter_starts (hp : inOpenUnit s.p = true) :
    command i checkParameter first go s = .next { latch (encode i) s with phase := first (latch (encode i) s) } := by
  rw [command_free hf, accept_parameter hp]

theorem command_parameter_fails (hp : inOpenUnit s.p = false) :
    command i checkParameter first go s = .next (raiseError .invalidParameter 0 0 0 (latch (encode i) s)) := by
  rw [command_free hf, accept_parameter_outside hp]

end

/-- Settles O13: by the operand check of each command. -/
theorem acceptedCommandsStart : Obligations.AcceptedCommandsStart := by
  intro o s hf
  refine ⟨fun hb => ⟨?_, ?_, ?_, ?_⟩, fun hp => ?_⟩
  · exact (command_modulus_starts hf (.len o) _ lenRun hb).trans (by rw [latch_encode]; rfl)
  · exact (command_modulus_starts hf (.enc o) encFirst encRun hb).trans (by rw [latch_encode]; rfl)
  · exact (command_modulus_starts hf (.dec o) _ decRun hb).trans (by rw [latch_encode]; rfl)
  · exact (command_modulus_starts hf (.pofb o) _ pofbRun hb).trans (by rw [latch_encode]; rfl)
  · exact (command_parameter_starts hf (.bofp o) _ bofpRun hp).trans (by rw [latch_encode]; rfl)

/-- A command that ends in its acceptance step, written out (R236). -/
theorem raiseError_latch_encode (k : ErrKind) (i : Instr) (s : State) :
    raiseError k 0 0 0 (latch (encode i) s) = { s with
      status := {
        busy := false, done := true, rej := false, n64 := false, sat := false, err := k, lastOp := i.op, lastOrd := i.ord }
      lx := s.x, lb := s.b, lp := s.p, lop := i.op, lord := i.ord, cnt := 0, phase := .idle
      result := 0, nbits := 0, q := 0, r := 0, ioerr := 0 } := by
  have hn64 : (0 : Count).getLsbD 64 = false := by decide
  have hnbits : (0 : Count).setWidth 64 = 0 := by decide
  simp only [latch_encode, raiseError, Status.complete, BitVec.ofNat_eq_ofNat, ioerrOf_zero] at hn64 hnbits ⊢
  rw [hn64, hnbits]

/-- Settles O14: a raise over the latched state, whose count is 0. -/
theorem failedChecksCompleteAtOnce : Obligations.FailedChecksCompleteAtOnce := by
  intro o s hf
  refine ⟨fun hb => ⟨?_, ?_, ?_, ?_⟩, fun hp => ?_⟩
  · exact (command_modulus_fails hf (.len o) _ lenRun hb).trans (by rw [raiseError_latch_encode]; rfl)
  · exact (command_modulus_fails hf (.enc o) encFirst encRun hb).trans (by rw [raiseError_latch_encode]; rfl)
  · exact (command_modulus_fails hf (.dec o) _ decRun hb).trans (by rw [raiseError_latch_encode]; rfl)
  · exact (command_modulus_fails hf (.pofb o) _ pofbRun hb).trans (by rw [raiseError_latch_encode]; rfl)
  · exact (command_parameter_fails hf (.bofp o) _ bofpRun hp).trans (by rw [raiseError_latch_encode]; rfl)

end Sys2Proof.Machine
end

section
/-! PROOFS, 40_subcodes.md: one transfer step of `enc` and of `dec` (R136 to R139). -/

namespace Sys2Proof.Machine

theorem minBinK_eq_log (m : Nat) : minBinK m = Nat.log 2 m := Nat.log2_eq_log_two

/-! ## enc (R136) -/

section
variable {s : State} {u : BitSeq} {i : Nat} {c : Bool}

theorem exec_enc_sending {o : BitOrder} (hr : s.running (.enc o)) (hp : s.phase = .encSend u i) (hc : u.bit? i = some c) :
    exec (.enc o) s = .next (encTransfer u i c s) := by
  have hrun : encRun s = .next (encTransfer u i c s) := by simp [encRun, hp, hc]
  exact (command_running hr.1 hr.2).trans hrun

theorem encTransfer_silent (h : s.sinkAnswers = []) : encTransfer u i c s = s := by
  rw [encTransfer, h]

theorem encTransfer_ok {rest : List SinkAnswer} (h : s.sinkAnswers = .ok :: rest) :
    encTransfer u i c s = encAdvance u i (countTransfer (takeSink c .ok rest s)) := by
  rw [encTransfer, h]

theorem encTransfer_err {e : IoCode} {rest : List SinkAnswer} (h : s.sinkAnswers = .err e :: rest) :
    encTransfer u i c s = raiseError .ioError e (encQ s) (encR s) (takeSink c (.err e) rest s) := by
  rw [encTransfer, h]

end

/-- Settles O22: by the sink's answer; after the last bit the command completes. -/
theorem encTransferStep : Obligations.EncTransferStep := by
  intro o s u i c hr hp hc
  rw [← BitSeq.bit?_eq] at hc
  have hexec := exec_enc_sending hr hp hc
  refine ⟨by simp [sinkPort, hp, hc], fun h => ?_, fun rest h => ?_, fun e rest h => ?_⟩
  · rw [hexec, encTransfer_silent h]
  · rw [hexec, encTransfer_ok h, encAdvance, BitSeq.length_toList, countTransfer_cnt, takeSink_cnt,
      BitVec.setWidth_eq_extractLsb' (by decide)]
    rfl
  · rw [hexec, encTransfer_err h]
    rfl

/-! ## dec (R137 to R139) -/

section
variable {s : State} {q : Nat} {onBit : Bool → State → State} {rest : List SourceAnswer}

theorem sourceTransfer_silent (h : s.sourceAnswers = []) : sourceTransfer q onBit s = s := by
  rw [sourceTransfer, h]

theorem sourceTransfer_err {e : IoCode} (h : s.sourceAnswers = .err e :: rest) :
    sourceTransfer q onBit s = raiseError .ioError e (BitVec.ofNat 64 q) 0 (takeSource (.err e) rest s) := by
  rw [sourceTransfer, h]

theorem sourceTransfer_ok {c : Bool} (h : s.sourceAnswers = .ok c :: rest) :
    sourceTransfer q onBit s = onBit c (countTransfer (takeSource (.ok c) rest s)) := by
  rw [sourceTransfer, h]

variable {o : BitOrder} (hr : s.running (.dec o))
include hr

theorem exec_dec_unary {qc : Nat} (hp : s.phase = .decU qc) :
    exec (.dec o) s = .next (sourceTransfer qc (decUnaryBit qc) s) :=
  (command_running hr.1 hr.2).trans (by rw [decRun, hp])

theorem exec_dec_prefix {j acc : Nat} (hp : s.phase = .decP q j acc) :
    exec (.dec o) s = .next (sourceTransfer q (decPrefixBit q j acc) s) :=
  (command_running hr.1 hr.2).trans (by rw [decRun, hp])

theorem exec_dec_extra {acc : Nat} (hp : s.phase = .decX q acc) :
    exec (.dec o) s = .next (sourceTransfer q (decExtraBit q acc) s) :=
  (command_running hr.1 hr.2).trans (by rw [decRun, hp])

end

/-- Settles O25: by the source's answer and the bit. -/
theorem decUnaryStep : Obligations.DecUnaryStep := by
  intro o s qc hr hp _
  have hexec := exec_dec_unary hr hp
  refine ⟨by rw [sourcePort, hp], fun h => ?_, fun e rest h => ?_, fun c rest h => ?_⟩
  · rw [hexec, sourceTransfer_silent h]
  · rw [hexec, sourceTransfer_err h]
    rfl
  · rw [hexec, sourceTransfer_ok h, decUnaryBit, minBinK_eq_log]
    rfl

/-- The leading bits' value after one more bit, as R138 writes it. -/
theorem prefixStep_eq (o : BitOrder) (j acc : Nat) (c : Bool) :
    prefixStep o j acc c =
      match o with
      | .be => 2 * acc + (if c then 1 else 0)
      | .le => acc + (if c then 2 ^ j else 0) := by
  cases o <;> cases c <;> simp [prefixStep]

/-- Settles O26: by the source's answer; the reader is done after `k` bits. -/
theorem decPrefixStep : Obligations.DecPrefixStep := by
  intro o s q j acc hr hp _
  have hexec := exec_dec_prefix hr hp
  refine ⟨by rw [sourcePort, hp], fun h => ?_, fun e rest h => ?_, fun c rest h => ?_⟩
  · rw [hexec, sourceTransfer_silent h]
  · rw [hexec, sourceTransfer_err h]
    rfl
  · rw [hexec, sourceTransfer_ok h, decPrefixBit, minBinU, minBinK_eq_log, prefixStep_eq]
    rfl

/-- The remainder that the extra bit gives is a long one (R139). -/
theorem extra_remainder_bounds {m acc d : Nat} (hu : minBinU m ≤ acc) (hk : acc < 2 ^ minBinK m) (hd : d ≤ 1) :
    minBinU m ≤ 2 * acc + d - minBinU m ∧ 2 * acc + d - minBinU m ≤ m - 1 := by
  have hsum := minBinU_add m
  rw [pow_succ] at hsum
  omega

/-- Settles O27: by the source's answer, and the bounds of the remainder. -/
theorem decExtraStep : Obligations.DecExtraStep := by
  intro o s q acc hr hp _
  have hexec := exec_dec_extra hr hp
  refine ⟨by rw [sourcePort, hp], fun h => ?_, fun e rest h => ?_, fun c rest h => ?_, fun hu hk c => ?_⟩
  · rw [hexec, sourceTransfer_silent h]
  · rw [hexec, sourceTransfer_err h]
    rfl
  · rw [hexec, sourceTransfer_ok h, decExtraBit, minBinU, minBinK_eq_log]
    cases c <;> rfl
  · rw [← minBinK_eq_log] at hu hk ⊢
    exact extra_remainder_bounds hu hk (by split <;> decide)

end Sys2Proof.Machine
end

section
/-! PROOFS, 41_length.md: the completion of `len` (R160). -/

namespace Sys2Proof.Machine

/-- Bit 64 of a code length, which is at most 2^64. -/
theorem getLsbD_count {n : Nat} (hn : n ≤ 2 ^ 64) : (BitVec.ofNat 65 n).getLsbD 64 = decide (n = 2 ^ 64) := by
  rcases hn.lt_or_eq with hlt | rfl
  · rw [BitVec.getLsbD_ofNat, Nat.testBit_lt_two_pow hlt, Bool.and_false, decide_eq_false hlt.ne]
  · decide

/-- The code length as R160 writes it. -/
theorem golombLen_eq_log (x b : Nat) :
    golombLen x b = x / b + 1 + Nat.log 2 b + (if 2 ^ (Nat.log 2 b + 1) - b ≤ x % b then 1 else 0) := by
  rw [golombLen_eq, lenMinBin, minBinU, minBinK_eq_log, Nat.add_assoc (x / b + 1)]

/-- Settles O20: the length is `golombLen`, at most 2^64, so its 65 bits are NBITS and N64. -/
theorem lenCompletes : Obligations.LenCompletes := by
  intro o s hr hp hlb
  have hn : golombLen s.xVal s.bVal ≤ 2 ^ 64 := golombLen_le s.lx.isLt (toNat_pos hlb) s.lb.isLt
  simp only [← golombLen_eq_log]
  refine ⟨golombLen_pos _ _, hn, ?_⟩
  rw [exec_len_calculating hp hr]
  simp only [lenCalc, complete, Status.complete]
  rw [getLsbD_count hn, BitVec.setWidth_ofNat_of_le (by decide)]
  rfl

end Sys2Proof.Machine
end

section
/-! PROOFS, 10_state.md and 20_memory.md: what a command and a step change, and what they leave as it is (R21, R25, R27,
R33, R62, R64, R70). -/

namespace Sys2Proof.Machine

/-! ## The two ways a command's step can go -/

/-- `t` holds the results of `s`: the result registers, ERR, N64 and SAT (R33, R70). -/
def SameResults (s t : State) : Prop :=
  t.result = s.result ∧ t.nbits = s.nbits ∧ t.q = s.q ∧ t.r = s.r ∧ t.ioerr = s.ioerr ∧ t.status.err = s.status.err ∧
    t.status.n64 = s.status.n64 ∧ t.status.sat = s.status.sat

/-- A command has completed in `t` (R235, R236). -/
def Completed (t : State) : Prop := t.phase = .idle ∧ t.status.busy = false ∧ t.status.done = true

theorem SameResults.rfl (s : State) : SameResults s s := by simp [SameResults]

theorem complete_completed (v : Word) (n : Count) (q r : Word) (c : Bool) (s : State) :
    Completed (complete v n q r c s) := by
  simp [Completed]

theorem raiseError_completed (k : ErrKind) (e : IoCode) (q r : Word) (s : State) : Completed (raiseError k e q r s) := by
  simp [Completed]

section
variable {s t : State}

/-- After a transfer a command runs on with the results as they were, or has completed. -/
theorem Progress.runs_or_completes (h : Progress s t) (hb : s.status.busy = true) :
    (t.status.busy = true ∧ SameResults s t) ∨ Completed t := by
  cases h with
  | goes ph _ e => exact .inl (e ▸ ⟨hb, SameResults.rfl s⟩)
  | completes v n q r c e => exact .inr (e ▸ complete_completed ..)
  | overflows q r e => exact .inr (e ▸ raiseError_completed ..)
  | fails k q r e => exact .inr (e ▸ raiseError_completed ..)

theorem Progress.rej (h : Progress s t) : t.status.rej = s.status.rej := by
  cases h with
  | goes ph _ e => rw [e]; rfl
  | completes v n q r c e => rw [e]; rfl
  | overflows q r e => rw [e]; rfl
  | fails k q r e => rw [e]; rfl

/-- The answer of a transfer is taken before the command goes on. -/
theorem Progress.ports (h : Progress s t) :
    t.sinkAnswers = s.sinkAnswers ∧ t.sourceAnswers = s.sourceAnswers ∧ t.trace = s.trace := by
  cases h with
  | goes ph _ e => rw [e]; exact ⟨rfl, rfl, rfl⟩
  | completes v n q r c e => rw [e]; exact ⟨rfl, rfl, rfl⟩
  | overflows q r e => rw [e]; exact ⟨rfl, rfl, rfl⟩
  | fails k q r e => rw [e]; exact ⟨rfl, rfl, rfl⟩

variable {i : Instr}

/-- After its step a command runs with the results as they were, or has completed (R70). -/
theorem exec_runs_or_completes (h : exec i s = .next t) : (t.status.busy = true ∧ SameResults s t) ∨ Completed t := by
  cases exec_effect h with
  | started _ ph _ e => exact .inl (e ▸ ⟨rfl, SameResults.rfl s⟩)
  | failedCheck _ k _ e => exact .inr (e ▸ raiseError_completed ..)
  | dropped hb _ e => exact .inl (e ▸ ⟨hb, SameResults.rfl s⟩)
  | waits hr e => subst e; exact .inl ⟨hr.1, SameResults.rfl t⟩
  | calculated _ _ _ _ v n q r c e => exact .inr (e ▸ complete_completed ..)
  | sent o _ hr c a rest _ hp => exact hp.runs_or_completes hr.1
  | received o _ hr a rest _ hp => exact hp.runs_or_completes hr.1

/-- An acceptance that leaves BUSY = 1 runs its own command, in a phase other than IDLE (R25, R34). -/
theorem exec_free_running (hb : s.status.busy = false) (h : exec i s = .next t) (ht : t.status.busy = true) :
    t.running i ∧ t.phase ≠ .idle := by
  have hn : s.status.busy ≠ true := by simp [hb]
  cases exec_effect h with
  | started _ ph hp e => exact e ▸ ⟨⟨rfl, latched_of_lop (cmdOp_encode i) (cmdOrd_encode i)⟩, hp⟩
  | failedCheck _ k _ e => subst e; exact absurd ht nofun
  | dropped hb' _ _ => exact absurd hb' hn
  | waits hr _ => exact absurd hr.1 hn
  | calculated hr _ _ _ _ _ _ _ _ _ => exact absurd hr.1 hn
  | sent _ _ hr _ _ _ _ _ => exact absurd hr.1 hn
  | received _ _ hr _ _ _ _ => exact absurd hr.1 hn

/-- An acceptance clears REJ (R27). -/
theorem exec_free_rej (hb : s.status.busy = false) (h : exec i s = .next t) : t.status.rej = false := by
  have hn : s.status.busy ≠ true := by simp [hb]
  cases exec_effect h with
  | started _ ph _ e => exact e ▸ rfl
  | failedCheck _ k _ e => exact e ▸ rfl
  | dropped hb' _ _ => exact absurd hb' hn
  | waits hr _ => exact absurd hr.1 hn
  | calculated hr _ _ _ _ _ _ _ _ _ => exact absurd hr.1 hn
  | sent _ _ hr _ _ _ _ _ => exact absurd hr.1 hn
  | received _ _ hr _ _ _ _ => exact absurd hr.1 hn

/-- A running command's step keeps REJ (R27). -/
theorem exec_running_rej (hr : s.running i) (h : exec i s = .next t) : t.status.rej = s.status.rej := by
  have hn : s.status.busy ≠ false := by simp [hr.1]
  cases exec_effect h with
  | started hb _ _ _ => exact absurd hb hn
  | failedCheck hb _ _ _ => exact absurd hb hn
  | dropped _ hl _ => exact absurd hr.2 hl
  | waits _ e => rw [e]
  | calculated _ _ _ _ v n q r c e => rw [e]; rfl
  | sent _ _ _ _ _ _ _ hp => exact hp.rej
  | received _ _ _ _ _ _ hp => exact hp.rej

/-- A command that changes what lies at the ports runs, and is `enc` on the sink or `dec` on the source (R62). -/
theorem exec_ports (h : exec i s = .next t) :
    (t.sinkAnswers = s.sinkAnswers ∧ t.sourceAnswers = s.sourceAnswers ∧ t.trace = s.trace) ∨
    (∃ o c a, i = .enc o ∧ s.running i ∧ t.sourceAnswers = s.sourceAnswers ∧ t.trace = .sink c s.lord a :: s.trace) ∨
    (∃ o a, i = .dec o ∧ s.running i ∧ t.sinkAnswers = s.sinkAnswers ∧ t.trace = .source s.lord a :: s.trace) := by
  cases exec_effect h with
  | started _ ph _ e => exact .inl (e ▸ ⟨rfl, rfl, rfl⟩)
  | failedCheck _ k _ e => exact .inl (e ▸ ⟨rfl, rfl, rfl⟩)
  | dropped _ _ e => exact .inl (e ▸ ⟨rfl, rfl, rfl⟩)
  | waits _ e => rw [e]; exact .inl ⟨rfl, rfl, rfl⟩
  | calculated _ _ _ _ v n q r c e => exact .inl (e ▸ ⟨rfl, rfl, rfl⟩)
  | sent o hi hr c a rest _ hp =>
    obtain ⟨-, hsource, htrace⟩ := hp.ports
    exact .inr (.inl ⟨o, c, a, hi, hr, hsource, htrace⟩)
  | received o hi hr a rest _ hp =>
    obtain ⟨hsink, -, htrace⟩ := hp.ports
    exact .inr (.inr ⟨o, a, hi, hr, hsink, htrace⟩)

end

/-! ## The frame of a command -/

/-- A byte of the window is read from the register at its aligned offset only (R64). -/
theorem windowByte_congr {s t : State} {off : Nat} (h : ∀ g : Reg, g.offset = off / 8 * 8 → readReg g t = readReg g s) :
    windowByte t off = windowByte s off := by
  unfold windowByte readOffset
  cases hg : Reg.ofOffset (off / 8 * 8) with
  | none => rfl
  | some g => simp only [h g (Reg.offset_of_ofOffset hg).symm]

/-- Settles O46: by what `exec` keeps; the window's bytes by the register they are read from. -/
theorem commandFrame : Obligations.CommandFrame := by
  intro i s t h
  obtain ⟨hx, hb, hp, hmoves, hbase, hreset⟩ := exec_keeps h
  refine ⟨hx, hb, hp, hmoves, hbase, hreset, fun off hoff => windowByte_congr fun g hg => ?_,
    fun hbusy off hoff => windowByte_congr fun g hg => ?_, fun hi => ?_, fun hi => ?_, fun hi hi' => ?_⟩
  · cases g with
    | id => rfl
    | cmd => rfl
    | x => exact hx
    | b => exact hb
    | p => exact hp
    | _ => simp only [Reg.offset] at hg; omega
  · obtain ⟨hres, hnbits, hq, hr, hio, -⟩ :=
      ((exec_runs_or_completes h).resolve_right fun hc => absurd (hbusy.symm.trans hc.2.1) nofun).2
    cases g with
    | id => rfl
    | cmd => rfl
    | status => simp only [Reg.offset] at hg; omega
    | x => exact hx
    | b => exact hb
    | p => exact hp
    | result => exact hres
    | nbits => exact hnbits
    | q => exact hq
    | r => exact hr
    | ioerr => exact hio
  · rcases exec_ports h with ⟨hs, -⟩ | ⟨o, _, _, he, -⟩ | ⟨_, _, -, -, hs, -⟩
    · exact hs
    · exact absurd he (hi o)
    · exact hs
  · rcases exec_ports h with ⟨-, hs, -⟩ | ⟨_, _, _, -, -, hs, -⟩ | ⟨o, _, he, -⟩
    · exact hs
    · exact hs
    · exact absurd he (hi o)
  · rcases exec_ports h with ⟨-, -, ht⟩ | ⟨o, _, _, he, -⟩ | ⟨o, _, he, -⟩
    · exact ht
    · exact absurd he (hi o)
    · exact absurd he (hi' o)

/-! ## Rules of every step -/

section
variable {s t : State}

theorem nextResets_of_assert (hm : s.moves.head? = some .assertReset) : s.nextResets := ⟨_, hm, rfl⟩

theorem nextResets_of_release (hm : s.moves.head? = some .releaseReset) : s.nextResets := ⟨_, hm, rfl⟩

/-- X, B and P after a step whose move is not one of the reset input: as before, or as the host wrote them (R21). -/
theorem step_operands (h : step s = .next t) (hn : ¬ s.nextResets) :
    (t.x = s.x ∨ ∃ v, s.nextWrites .x v ∧ t.x = v) ∧ (t.b = s.b ∨ ∃ v, s.nextWrites .b v ∧ t.b = v) ∧
      (t.p = s.p ∨ ∃ v, s.nextWrites .p v ∧ t.p = v) := by
  obtain ⟨ms, tr, -, he⟩ := step_effect h
  cases he with
  | quiet e => rw [e]; exact ⟨.inl rfl, .inl rfl, .inl rfl⟩
  | wroteX v hm _ e => rw [e]; exact ⟨.inr ⟨v, hm, rfl⟩, .inl rfl, .inl rfl⟩
  | wroteB v hm _ e => rw [e]; exact ⟨.inl rfl, .inr ⟨v, hm, rfl⟩, .inl rfl⟩
  | wroteP v hm _ e => rw [e]; exact ⟨.inl rfl, .inl rfl, .inr ⟨v, hm, rfl⟩⟩
  | dropped w _ _ _ e => rw [e]; exact ⟨.inl rfl, .inl rfl, .inl rfl⟩
  | illegal w _ _ _ _ e => rw [e]; exact ⟨.inl rfl, .inl rfl, .inl rfl⟩
  | accepted w i _ _ _ _ e =>
    obtain ⟨hx, hb, hp, -⟩ := exec_keeps e
    exact ⟨.inl hx, .inl hb, .inl hp⟩
  | ran i _ _ e =>
    obtain ⟨hx, hb, hp, -⟩ := exec_keeps e
    exact ⟨.inl hx, .inl hb, .inl hp⟩
  | asserted hm _ => exact absurd (nextResets_of_assert hm) hn
  | released hm _ => exact absurd (nextResets_of_release hm) hn

/-- Settles O47: a value that a step changed is one the host wrote. -/
theorem operandRegistersAreTheHosts : Obligations.OperandRegistersAreTheHosts := by
  intro s t h hn
  obtain ⟨hx, hb, hp⟩ := step_operands h hn
  exact ⟨hx.resolve_left, hb.resolve_left, hp.resolve_left⟩

/-- Settles O48: only a command's step and an illegal word change the results, and each such change is a completion. -/
theorem resultsChangeOnlyAtCompletion : Obligations.ResultsChangeOnlyAtCompletion := by
  intro s t h hn
  obtain ⟨ms, tr, -, he⟩ := step_effect h
  have same : SameResults s (s.around ms tr) := SameResults.rfl s
  cases he with
  | quiet e => exact .inl (e ▸ same)
  | wroteX v _ _ e => exact .inl (e ▸ same)
  | wroteB v _ _ e => exact .inl (e ▸ same)
  | wroteP v _ _ e => exact .inl (e ▸ same)
  | dropped w _ _ _ e => exact .inl (e ▸ same)
  | illegal w hw _ _ _ e =>
    obtain ⟨hp, hb, hd⟩ := raiseError_completed .illegalCmd 0 0 0 (latch w (s.around ms tr))
    exact .inr (e ▸ ⟨hp, hb, hd, .inr ⟨w, hw⟩⟩)
  | accepted w i hw _ _ _ e =>
    rcases exec_runs_or_completes e with ⟨-, hs⟩ | ⟨hp, hb, hd⟩
    · exact .inl hs
    · exact .inr ⟨hp, hb, hd, .inr ⟨w, hw⟩⟩
  | ran i hbusy _ e =>
    rcases exec_runs_or_completes e with ⟨-, hs⟩ | ⟨hp, hb, hd⟩
    · exact .inl hs
    · exact .inr ⟨hp, hb, hd, .inl hbusy⟩
  | asserted hm _ => exact absurd (nextResets_of_assert hm) hn
  | released hm _ => exact absurd (nextResets_of_release hm) hn

/-- A step from BUSY = 0 to BUSY = 1 is an acceptance (R25). -/
theorem step_sets_busy (h : step s = .next t) (hs : s.status.busy = false) (ht : t.status.busy = true) :
    ∃ w i, s.nextWrites .cmd w ∧ decode w = .ok i ∧ t.running i ∧ t.phase ≠ .idle := by
  obtain ⟨ms, tr, -, he⟩ := step_effect h
  have idle : (s.around ms tr).status.busy ≠ true := by simp [hs]
  cases he with
  | quiet e => subst e; exact absurd ht idle
  | wroteX v _ _ e => subst e; exact absurd ht idle
  | wroteB v _ _ e => subst e; exact absurd ht idle
  | wroteP v _ _ e => subst e; exact absurd ht idle
  | dropped w _ _ hb _ => exact absurd hb idle
  | illegal w _ _ _ _ e => subst e; exact absurd ht nofun
  | accepted w i hw _ _ hd e => exact ⟨w, i, hw, hd, exec_free_running (s := s.around ms tr) hs e ht⟩
  | ran i hb _ _ => exact absurd hb idle
  | asserted _ e => subst e; exact absurd ht nofun
  | released _ e =>
    rcases releaseReset_cases (s.around ms tr) with ⟨-, e'⟩ | ⟨-, e'⟩
    · rw [e, e'] at ht
      exact absurd ht nofun
    · rw [e, e'] at ht
      exact absurd ht idle

/-- A step from BUSY = 1 to BUSY = 0 is a completion, apart from a reset (R25). -/
theorem step_clears_busy (h : step s = .next t) (hs : s.status.busy = true) (ht : t.status.busy = false) :
    s.nextResets ∨ Completed t := by
  obtain ⟨ms, tr, -, he⟩ := step_effect h
  have busy : (s.around ms tr).status.busy ≠ false := by simp [hs]
  cases he with
  | quiet e => subst e; exact absurd ht busy
  | wroteX v _ _ e => subst e; exact absurd ht busy
  | wroteB v _ _ e => subst e; exact absurd ht busy
  | wroteP v _ _ e => subst e; exact absurd ht busy
  | dropped w _ _ _ e => subst e; exact absurd ht busy
  | illegal w _ _ hb _ _ => exact absurd hb busy
  | accepted w i _ _ hb _ _ => exact absurd hb busy
  | ran i _ _ e => exact .inr ((exec_runs_or_completes e).resolve_left fun hr => absurd (ht.symm.trans hr.1) nofun)
  | asserted hm _ => exact .inl (nextResets_of_assert hm)
  | released hm _ => exact .inl (nextResets_of_release hm)

/-- Settles O49: by the two ways BUSY can change. -/
theorem busyFollowsAcceptanceAndCompletion : Obligations.BusyFollowsAcceptanceAndCompletion :=
  fun _ _ h => ⟨step_sets_busy h, fun hs ht => (step_clears_busy h hs ht).imp_right fun hc => ⟨hc.2.2, hc.1⟩⟩

/-- REJ after a step: as before, set by a dropped CMD write, or cleared by an acceptance or a reset (R27). -/
theorem step_rej (h : step s = .next t) :
    t.status.rej = s.status.rej ∨ (s.status.busy = true ∧ (∃ w, s.nextWrites .cmd w) ∧ t.status.rej = true) ∨
      (t.status.rej = false ∧ (s.nextResets ∨ (s.status.busy = false ∧ ∃ w, s.nextWrites .cmd w))) := by
  obtain ⟨ms, tr, -, he⟩ := step_effect h
  cases he with
  | quiet e => exact .inl (e ▸ rfl)
  | wroteX v _ _ e => exact .inl (e ▸ rfl)
  | wroteB v _ _ e => exact .inl (e ▸ rfl)
  | wroteP v _ _ e => exact .inl (e ▸ rfl)
  | dropped w hw _ hb e => exact .inr (.inl ⟨hb, ⟨w, hw⟩, e ▸ rfl⟩)
  | illegal w hw _ hb _ e => exact .inr (.inr ⟨e ▸ rfl, .inr ⟨hb, w, hw⟩⟩)
  | accepted w i hw _ hb _ e => exact .inr (.inr ⟨exec_free_rej (s := s.around ms tr) hb e, .inr ⟨hb, w, hw⟩⟩)
  | ran i hb hl e => exact .inl (exec_running_rej (s := s.around ms tr) ⟨hb, hl⟩ e)
  | asserted hm e => exact .inr (.inr ⟨e ▸ rfl, .inl (nextResets_of_assert hm)⟩)
  | released hm e =>
    rcases releaseReset_cases (s.around ms tr) with ⟨-, e'⟩ | ⟨-, e'⟩
    · exact .inr (.inr ⟨e.trans e' ▸ rfl, .inl (nextResets_of_release hm)⟩)
    · exact .inl (e.trans e' ▸ rfl)

end

/-- Settles O50: by the cases of REJ after a step, and the rule of a dropped CMD write. -/
theorem rejectedIsSticky : Obligations.RejectedIsSticky := by
  intro s t h
  refine ⟨fun hs ht => ?_, fun hs ht => ?_, fun hb hr ⟨w, hw⟩ => ?_⟩
  · rcases step_rej h with e | ⟨hb, hw, -⟩ | ⟨e, -⟩
    · simp [hs, ht] at e
    · exact ⟨hb, hw⟩
    · simp [ht] at e
  · rcases step_rej h with e | ⟨-, -, e⟩ | ⟨-, hw⟩
    · simp [hs, ht] at e
    · simp [ht] at e
    · exact hw
  · obtain rfl := Host.Outcome.next.inj (h.symm.trans (busyCmdWriteIsDropped s w hb hr hw))
    rfl

end Sys2Proof.Machine
end

section
/-! PROOFS, 20_memory.md, 60_exceptions.md and 70_reset_and_hazards.md: the ports, the free block, a silent collaborator, the
operand registers during a command, and the reset input (R62, R252, R260, R261, R271, R275). -/

namespace Sys2Proof.Machine

/-! ## The ports belong to `enc` and `dec` (R62) -/

/-- What lies at the two ports: the answers to come and the transfers seen. -/
def SamePorts (s t : State) : Prop :=
  (t.sinkAnswers = s.sinkAnswers ∧ t.trace.filter Event.isSink = s.trace.filter Event.isSink) ∧
    t.sourceAnswers = s.sourceAnswers ∧ t.trace.filter Event.isSource = s.trace.filter Event.isSource

section
variable {s t : State}

/-- A bus event is no transfer. -/
theorem around_samePorts {ms : List Move} {tr : List Event} (h : tr = s.trace ∨ ∃ a resp, tr = .bus a resp :: s.trace) :
    SamePorts s (s.around ms tr) := by
  rcases h with rfl | ⟨a, resp, rfl⟩
  · exact ⟨⟨rfl, rfl⟩, rfl, rfl⟩
  · exact ⟨⟨rfl, rfl⟩, rfl, rfl⟩

/-- Each port stays as it is in a command's step, unless the command that uses it runs. -/
theorem exec_uses_ports {i : Instr} (h : exec i s = .next t) :
    ((t.sinkAnswers = s.sinkAnswers ∧ t.trace.filter Event.isSink = s.trace.filter Event.isSink) ∨
      ∃ o, s.running (.enc o)) ∧
    ((t.sourceAnswers = s.sourceAnswers ∧ t.trace.filter Event.isSource = s.trace.filter Event.isSource) ∨
      ∃ o, s.running (.dec o)) := by
  rcases exec_ports h with ⟨hk, hc, ht⟩ | ⟨o, c, a, rfl, hr, hc, ht⟩ | ⟨o, a, rfl, hr, hk, ht⟩
  · rw [ht]
    exact ⟨.inl ⟨hk, rfl⟩, .inl ⟨hc, rfl⟩⟩
  · rw [ht]
    exact ⟨.inr ⟨o, hr⟩, .inl ⟨hc, rfl⟩⟩
  · rw [ht]
    exact ⟨.inl ⟨hk, rfl⟩, .inr ⟨o, hr⟩⟩

/-- A step either leaves both ports as they are or is a command's own step. -/
theorem step_ports (h : step s = .next t) :
    SamePorts s t ∨ ∃ ms tr i, SamePorts s (s.around ms tr) ∧ exec i (s.around ms tr) = .next t := by
  obtain ⟨ms, tr, htr, he⟩ := step_effect h
  have same : SamePorts s (s.around ms tr) := around_samePorts htr
  cases he with
  | quiet e => exact .inl (e ▸ same)
  | wroteX v _ _ e => exact .inl (e ▸ same)
  | wroteB v _ _ e => exact .inl (e ▸ same)
  | wroteP v _ _ e => exact .inl (e ▸ same)
  | dropped w _ _ _ e => exact .inl (e ▸ same)
  | illegal w _ _ _ _ e => exact .inl (e ▸ same)
  | accepted w i _ _ _ _ e => exact .inr ⟨ms, tr, i, same, e⟩
  | ran i _ _ e => exact .inr ⟨ms, tr, i, same, e⟩
  | asserted _ e => exact .inl (e ▸ same)
  | released _ e =>
    rcases releaseReset_cases (s.around ms tr) with ⟨-, e'⟩ | ⟨-, e'⟩
    · exact .inl (e.trans e' ▸ same)
    · exact .inl (e.trans e' ▸ same)

/-- Settles O51: by what the command's own step does at each port. -/
theorem portsBelongToEncAndDec : Obligations.PortsBelongToEncAndDec := by
  intro s t h
  rcases step_ports h with ⟨⟨hk, hkt⟩, hc, hct⟩ | ⟨ms, tr, i, ⟨⟨hk, hkt⟩, hc, hct⟩, he⟩
  · exact ⟨absurd hk, absurd hc, absurd hkt, absurd hct⟩
  · obtain ⟨hsink, hsource⟩ := exec_uses_ports he
    refine ⟨fun hne => ?_, fun hne => ?_, fun hne => ?_, fun hne => ?_⟩
    · exact hsink.resolve_left fun hs => hne (hs.1.trans hk)
    · exact hsource.resolve_left fun hs => hne (hs.1.trans hc)
    · exact hsink.resolve_left fun hs => hne (hs.2.trans hkt)
    · exact hsource.resolve_left fun hs => hne (hs.2.trans hct)

end

/-! ## A running command and the operand registers (R271) -/

/-- `s` with other values in X, B and P. -/
def State.operands (s : State) (x b p : Word) : State := { s with x := x, b := b, p := p }

section
variable (x b p : Word) (s : State)

theorem recombine_operands (q r : Nat) : recombine q r (s.operands x b p) = (recombine q r s).operands x b p := by
  rcases recombine_cases q r s with ⟨hle, e⟩ | ⟨hlt, e⟩
  · rw [e]
    exact if_pos hle
  · rw [e]
    exact if_neg (not_le.mpr hlt)

theorem decUnaryBit_operands (qc : Nat) (c : Bool) :
    decUnaryBit qc c (s.operands x b p) = (decUnaryBit qc c s).operands x b p := by
  unfold decUnaryBit
  rw [recombine_operands, show (s.operands x b p).bVal = s.bVal from rfl]
  split_ifs <;> rfl

theorem decPrefixBit_operands (q j acc : Nat) (c : Bool) :
    decPrefixBit q j acc c (s.operands x b p) = (decPrefixBit q j acc c s).operands x b p := by
  unfold decPrefixBit
  rw [recombine_operands, show (s.operands x b p).bVal = s.bVal from rfl, show (s.operands x b p).lord = s.lord from rfl]
  split_ifs <;> rfl

theorem decExtraBit_operands (q acc : Nat) (c : Bool) :
    decExtraBit q acc c (s.operands x b p) = (decExtraBit q acc c s).operands x b p :=
  recombine_operands x b p s q _

theorem sourceTransfer_operands (q : Nat) {onBit : Bool → State → State}
    (hon : ∀ c u, onBit c (State.operands u x b p) = (onBit c u).operands x b p) :
    sourceTransfer q onBit (s.operands x b p) = (sourceTransfer q onBit s).operands x b p := by
  rcases sourceTransfer_cases q onBit s with ⟨hs, e⟩ | ⟨_, _, hs, e⟩ | ⟨c, rest, hs, e⟩
  · rw [e, sourceTransfer_silent (s := s.operands x b p) hs]
  · rw [e, sourceTransfer_err (s := s.operands x b p) hs]
    rfl
  · rw [e, sourceTransfer_ok (s := s.operands x b p) hs, ← hon]
    rfl

theorem encTransfer_operands (u : BitSeq) (i : Nat) (c : Bool) :
    encTransfer u i c (s.operands x b p) = (encTransfer u i c s).operands x b p := by
  rcases encTransfer_cases u i c s with ⟨hs, e⟩ | ⟨_, hs, hi, e⟩ | ⟨_, hs, hi, e⟩ | ⟨_, _, hs, e⟩
  · rw [e, encTransfer_silent (s := s.operands x b p) hs]
  · rw [e, encTransfer_ok (s := s.operands x b p) hs, encAdvance, if_pos hi]
    rfl
  · rw [e, encTransfer_ok (s := s.operands x b p) hs, encAdvance, if_neg (not_lt.mpr hi)]
    rfl
  · rw [e, encTransfer_err (s := s.operands x b p) hs]
    rfl

end

/-- Settles O52: each command's running step reads the latches, never X, B and P. -/
theorem runningCommandIgnoresOperandWrites : Obligations.RunningCommandIgnoresOperandWrites := by
  intro i s t x b p hr h
  have hr' : (s.operands x b p).running i := hr
  change exec i (s.operands x b p) = .next (t.operands x b p)
  cases i with
  | len o =>
    obtain ⟨hp, rfl⟩ := lenRun_next ((command_running hr.1 hr.2).symm.trans h)
    exact exec_len_calculating (s := s.operands x b p) hp hr'
  | enc o =>
    obtain ⟨u, i, c, hp, hc, rfl⟩ := encRun_next ((command_running hr.1 hr.2).symm.trans h)
    rw [exec_enc_sending (s := s.operands x b p) hr' hp hc, encTransfer_operands]
  | dec o =>
    rcases decRun_next ((command_running hr.1 hr.2).symm.trans h) with
      ⟨qc, hp, rfl⟩ | ⟨q, j, acc, hp, rfl⟩ | ⟨q, acc, hp, rfl⟩
    · rw [exec_dec_unary hr' hp, sourceTransfer_operands x b p s qc fun c u => decUnaryBit_operands x b p u qc c]
    · rw [exec_dec_prefix hr' hp, sourceTransfer_operands x b p s q fun c u => decPrefixBit_operands x b p u q j acc c]
    · rw [exec_dec_extra hr' hp, sourceTransfer_operands x b p s q fun c u => decExtraBit_operands x b p u q acc c]
  | bofp o =>
    obtain ⟨hp, rfl⟩ := bofpRun_next ((command_running hr.1 hr.2).symm.trans h)
    exact exec_bofp_calculating (s := s.operands x b p) hp hr'
  | pofb o =>
    obtain ⟨hp, rfl⟩ := pofbRun_next ((command_running hr.1 hr.2).symm.trans h)
    exact exec_pofb_calculating (s := s.operands x b p) hp hr'

/-! ## The free block (R252) -/

section
variable {s t : State} (hf : s.free) (h : step s = .next t)
include hf h

/-- The block's own step with BUSY = 0 takes its move off and changes nothing else. -/
theorem step_free_block (hm : s.moves = [] ∨ s.moves.head? = some .block) : t = { s with moves := s.moves.tail } := by
  rcases hm with hm | hm
  · rw [step_of_no_moves hm, blockStep_free hf] at h
    rw [← Host.Outcome.next.inj h, hm, List.tail_nil, ← hm]
  · obtain ⟨ms, hms⟩ := List.head?_eq_some_iff.mp hm
    rw [step, hms] at h
    rw [hms, List.tail_cons]
    exact Host.Outcome.next.inj (h.symm.trans (blockStep_free (s := { s with moves := ms }) hf))

/-- A step with BUSY = 0 that is no CMD write and no move of the reset input only writes X, B and P and the record of it. -/
theorem step_free_keeps (hn : ¬ s.nextResets) (hw : ∀ w, ¬ s.nextWrites .cmd w) :
    ∃ ms tr x b p, t = (s.around ms tr).operands x b p := by
  obtain ⟨ms, tr, -, he⟩ := step_effect h
  have idle : s.status.busy ≠ true := by simpa [State.free] using hf
  cases he with
  | quiet e => exact ⟨ms, tr, _, _, _, e⟩
  | wroteX v _ _ e => exact ⟨ms, tr, _, _, _, e⟩
  | wroteB v _ _ e => exact ⟨ms, tr, _, _, _, e⟩
  | wroteP v _ _ e => exact ⟨ms, tr, _, _, _, e⟩
  | dropped w hm _ _ _ => exact absurd hm (hw w)
  | illegal w hm _ _ _ _ => exact absurd hm (hw w)
  | accepted w i hm _ _ _ _ => exact absurd hm (hw w)
  | ran i hb _ _ => exact absurd hb idle
  | asserted hm _ => exact absurd (nextResets_of_assert hm) hn
  | released hm _ => exact absurd (nextResets_of_release hm) hn

end

/-- Settles O53: such a step touches the operand registers, the moves and the trace only. -/
theorem freeBlockKeepsItsResults : Obligations.FreeBlockKeepsItsResults := by
  intro s t h hf hn hw
  have hown : s.moves = [] ∨ s.moves.head? = some .block → t.x = s.x ∧ t.b = s.b ∧ t.p = s.p ∧ t.trace = s.trace := by
    intro hm
    rw [step_free_block hf h hm]
    exact ⟨rfl, rfl, rfl, rfl⟩
  obtain ⟨ms, tr, x, b, p, rfl⟩ := step_free_keeps hf h hn hw
  exact ⟨hf, rfl, rfl, rfl, rfl, rfl, rfl, rfl, rfl, rfl, hown⟩

/-! ## A silent collaborator (R275) -/

/-- A state that one step leaves as it is, every run leaves as it is. -/
theorem run_of_step_eq_self {s : State} (h : step s = .next s) (n : Nat) : run n s = .next s := by
  induction n with
  | zero => rfl
  | succ n ih => rw [run, h]; exact ih

theorem exec_enc_silent {o : BitOrder} {s : State} {c : Bool × BitOrder} (hr : s.running (.enc o))
    (hc : sinkPort s = some c) (hs : s.sinkAnswers = []) : exec (.enc o) s = .next s := by
  unfold sinkPort at hc
  split at hc
  next u i hp =>
    obtain ⟨bit, hbit, -⟩ := Option.map_eq_some_iff.mp hc
    rw [exec_enc_sending hr hp hbit, encTransfer_silent hs]
  next => cases hc

theorem exec_dec_silent {o o' : BitOrder} {s : State} (hr : s.running (.dec o))
    (hc : sourcePort s = some o') (hs : s.sourceAnswers = []) : exec (.dec o) s = .next s := by
  unfold sourcePort at hc
  split at hc
  next hp => rw [exec_dec_unary hr hp, sourceTransfer_silent hs]
  next hp => rw [exec_dec_prefix hr hp, sourceTransfer_silent hs]
  next hp => rw [exec_dec_extra hr hp, sourceTransfer_silent hs]
  next => cases hc

/-- Settles O54: the transfer step waits, so no step changes anything. -/
theorem silentCollaboratorHangs : Obligations.SilentCollaboratorHangs := by
  rintro o s n hm (⟨hr, ⟨c, hc⟩, hs⟩ | ⟨hr, ⟨c, hc⟩, hs⟩)
  · exact run_of_step_eq_self ((step_running hr hm).trans (exec_enc_silent hr hc hs)) n
  · exact run_of_step_eq_self ((step_running hr hm).trans (exec_dec_silent hr hc hs)) n

/-! ## The reset input (R260, R261) -/

theorem readReg_assertReset (g : Reg) (s : State) :
    readReg g (assertReset s) = if g = .id then 0x0000_0001_474F_4C42 else 0 := by
  rw [← resetBlock_assertReset]
  split
  next hg => rw [hg, readReg_id]
  next hg => exact readReg_resetBlock hg _

/-- Settles O55: each of the three moves by its own operation. -/
theorem resetRule : Obligations.ResetRule := by
  intro s ms
  refine ⟨fun hm => ?_, fun hm hr => ?_, fun hm => ?_⟩
  · refine ⟨assertReset { s with moves := ms }, ?_, rfl, fun g => readReg_assertReset g _, rfl, rfl, rfl, rfl, rfl, rfl, rfl,
      rfl, rfl, rfl, rfl, rfl, rfl, rfl⟩
    rw [step, hm]
    rfl
  · rw [step, hm]
    exact congrArg Host.Outcome.next (if_pos hr)
  · rw [step, hm]
    rfl

end Sys2Proof.Machine
end

section
/-! PROOFS, 30_encoding.md: a field determines its value, and no codeword is the beginning of another (R99, R101, R105). -/

namespace Sys2Proof.Machine

/-! ## Fields (R99) -/

/-- A field of `n` bits determines a value below `2^n`. -/
theorem fieldBits_inj {v w n : Nat} {o : BitOrder} (hv : v < 2 ^ n) (hw : w < 2 ^ n) (h : fieldBits v n o = fieldBits w n o) :
    v = w := by
  have hlow : lowBits v n = lowBits w n := by
    cases o with
    | be => exact List.reverse_inj.mp h
    | le => exact h
  apply Nat.eq_of_testBit_eq
  intro j
  rcases Nat.lt_or_ge j n with hj | hj
  · have hget := congrArg (·[j]?) hlow
    simpa only [getElem?_lowBits, if_pos hj, Option.some.injEq] using hget
  · have hpow : 2 ^ n ≤ 2 ^ j := Nat.pow_le_pow_right (by decide) hj
    rw [Nat.testBit_lt_two_pow (hv.trans_le hpow), Nat.testBit_lt_two_pow (hw.trans_le hpow)]

theorem lowBits_two_mul_add (v n : Nat) (c : Bool) : lowBits (2 * v + c.toNat) (n + 1) = c :: lowBits v n := by
  induction n with
  | zero => cases c <;> simp [lowBits, Nat.testBit_zero]
  | succ n ih =>
    rw [lowBits, ih, lowBits, List.cons_append, ← Nat.bit_val, Nat.testBit_bit_succ]

theorem lowBits_add_two_pow_mul {v n : Nat} (hv : v < 2 ^ n) (c : Bool) :
    lowBits (v + c.toNat * 2 ^ n) (n + 1) = lowBits v n ++ [c] := by
  apply List.ext_getElem?
  intro j
  rw [Nat.add_comm, Nat.mul_comm, getElem?_lowBits, Nat.testBit_two_pow_mul_add _ hv]
  rcases Nat.lt_trichotomy j n with hj | rfl | hj
  · rw [List.getElem?_append_left (by simpa), getElem?_lowBits, if_pos (by omega), if_pos hj, if_pos hj]
  · rw [List.getElem?_append_right (by simp), if_pos (Nat.lt_succ_self j), if_neg (lt_irrefl j), length_lowBits, Nat.sub_self]
    cases c <;> rfl
  · rw [if_neg (by omega), List.getElem?_eq_none (by simp; omega)]

/-- What the reader makes of one more bit is the value of the field with that bit at its end (R138). -/
theorem fieldBits_prefixStep {j acc : Nat} (h : acc < 2 ^ j) (o : BitOrder) (c : Bool) :
    fieldBits (prefixStep o j acc c) (j + 1) o = fieldBits acc j o ++ [c] := by
  cases o with
  | be => rw [prefixStep, fieldBits, fieldBits, lowBits_two_mul_add, List.reverse_cons]
  | le => exact lowBits_add_two_pow_mul h c

/-! ## The minimal-binary code (R101) -/

section
variable {r m : Nat} (hr : r < m)
include hr

/-- The leading part of a long code has `k` bits. -/
theorem long_prefix_lt : (r + minBinU m) / 2 < 2 ^ minBinK m := by
  have hsum := minBinU_add m
  rw [pow_succ] at hsum
  omega

theorem short_lt (h : r < minBinU m) : r < 2 ^ minBinK m :=
  h.trans_le (minBinU_le (Nat.ne_zero_of_lt hr))

end

/-- No minimal-binary code is the beginning of another: the leading part of a long one is no short code. -/
theorem minBinBits_prefix_inj {r r' m : Nat} {o : BitOrder} (hr : r < m) (hr' : r' < m)
    (h : minBinBits r m o <+: minBinBits r' m o) : r = r' := by
  have hlen : lenMinBin r m ≤ lenMinBin r' m := by simpa using h.length_le
  rcases Nat.lt_or_ge r (minBinU m) with hs | hl <;> rcases Nat.lt_or_ge r' (minBinU m) with hs' | hl'
  · rw [minBinBits_short o hs, minBinBits_short o hs'] at h
    exact fieldBits_inj (short_lt hr hs) (short_lt hr' hs') (h.eq_of_length (by simp))
  · rw [minBinBits_short o hs, minBinBits_long o hl'] at h
    have heq := (List.prefix_of_prefix_length_le h (List.prefix_append _ _) (by simp)).eq_of_length (by simp)
    have hval := fieldBits_inj (short_lt hr hs) (long_prefix_lt hr') heq
    omega
  · rw [lenMinBin_long hl, lenMinBin_short hs'] at hlen
    omega
  · rw [minBinBits_long o hl, minBinBits_long o hl'] at h
    obtain ⟨hpre, hlast⟩ := List.append_inj (h.eq_of_length (by simp)) (by simp)
    have hdiv := fieldBits_inj (long_prefix_lt hr) (long_prefix_lt hr') hpre
    have hmod := fieldBits_inj (n := 1) (Nat.mod_lt _ Nat.two_pos) (Nat.mod_lt _ Nat.two_pos) hlast
    omega

/-! ## Codewords (R103, R105) -/

/-- A codeword written out: the quotient in zeros, the terminator, the code of the remainder. -/
theorem toList_golombBits (x b : Nat) (o : BitOrder) :
    (golombBits x b o).toList = List.replicate (x / b) false ++ true :: minBinBits (x % b) b o := by
  simp [golombBits, split]

/-- The first 1 bit ends the unary part, so a beginning has the same quotient (R100). -/
theorem unary_prefix_inj : ∀ {q q' : Nat} {l l' : List Bool},
    List.replicate q false ++ true :: l <+: List.replicate q' false ++ true :: l' → q = q' ∧ l <+: l'
  | 0, 0, _, _, h => ⟨rfl, (List.cons_prefix_cons.mp h).2⟩
  | 0, _ + 1, _, _, h => absurd (List.cons_prefix_cons.mp h).1 nofun
  | _ + 1, 0, _, _, h => absurd (List.cons_prefix_cons.mp h).1 nofun
  | q + 1, q' + 1, _, _, h => by
    obtain ⟨hq, hl⟩ := unary_prefix_inj (List.cons_prefix_cons.mp h).2
    exact ⟨congrArg Nat.succ hq, hl⟩

/-- Settles O9: the quotient by the unary part, the remainder by the minimal-binary code. -/
theorem codewordsArePrefixFree : Obligations.CodewordsArePrefixFree := by
  intro x y b o hb h
  rw [toList_golombBits, toList_golombBits] at h
  obtain ⟨hq, hm⟩ := unary_prefix_inj h
  have hr := minBinBits_prefix_inj (Nat.mod_lt x hb) (Nat.mod_lt y hb) hm
  rw [← Nat.div_add_mod x b, hq, hr, Nat.div_add_mod]

end Sys2Proof.Machine
end

section
/-! PROOFS, 42_encoder.md: the run of an `enc`, what the sink sees of it, and the length it reports (R161, R171). -/

namespace Sys2Proof.Machine

/-! ## Runs -/

theorem run_of_step {n : Nat} {s t : State} (h : step s = .next t) : run (n + 1) s = run n t := by
  rw [run, h]

/-- A run after a run is a longer run. -/
theorem run_add {m n : Nat} : ∀ {s t : State}, run m s = .next t → run (m + n) s = run n t := by
  induction m with
  | zero =>
    intro s t h
    obtain rfl := Host.Outcome.next.inj h
    rw [Nat.zero_add]
  | succ m ih =>
    intro s t h
    rw [run] at h
    split at h
    next u hu =>
      rw [Nat.add_right_comm, run_of_step hu]
      exact ih h
    next => cases h
    next => cases h

theorem run_one (s : State) : run 1 s = step s := by
  unfold run
  split <;> simp_all [run]

theorem run_succ_of_run {n : Nat} {s t : State} (h : run n s = .next t) : run (n + 1) s = step t :=
  (run_add h).trans (run_one t)

/-- A free block with no move to come stays as it is (R252). -/
theorem step_free_no_moves {s : State} (hb : s.status.busy = false) (hm : s.moves = []) : step s = .next s :=
  (step_of_no_moves hm).trans (blockStep_free hb)

/-! ## The count in its 65 bits (R35) -/

/-- NBITS and N64 together are the count. -/
theorem count_eq (n : Count) : (n.setWidth 64).toNat + (if n.getLsbD 64 then 2 ^ 64 else 0) = n.toNat := by
  have hn := n.isLt
  have hbit : n.getLsbD 64 = decide (2 ^ 64 ≤ n.toNat) := by
    rw [← BitVec.msb_eq_getLsbD_last (w := 65), BitVec.msb_eq_decide]
  rw [hbit, BitVec.toNat_setWidth]
  split
  next h =>
    have := of_decide_eq_true h
    omega
  next h =>
    have : ¬ 2 ^ 64 ≤ n.toNat := fun hle => h (decide_eq_true hle)
    omega

theorem ofNat_count_succ (n : Nat) : BitVec.ofNat 65 n + 1 = BitVec.ofNat 65 (n + 1) := (BitVec.ofNat_add ..).symm

/-! ## The states of a run of `enc` -/

/-- The sink transfers of bits that were answered OK, as the trace records them. -/
def sent (o : BitOrder) (bits : List Bool) : List Event := (bits.map fun c => Event.sink c o .ok).reverse

theorem sent_append (o : BitOrder) (bits : List Bool) (c : Bool) : sent o (bits ++ [c]) = .sink c o .ok :: sent o bits := by
  simp [sent]

/-- An `enc` of order `o` that was accepted in `s`, after `n` bits answered OK, with the answers `as` to come. -/
def encAt (o : BitOrder) (s : State) (n : Nat) (as : List SinkAnswer) : State :=
  { latch (encode (.enc o)) s with
    phase := .encSend (golombBits s.x.toNat s.b.toNat o) n
    cnt := BitVec.ofNat 65 n
    sinkAnswers := as
    trace := sent o ((golombBits s.x.toNat s.b.toNat o).toList.take n) ++ s.trace }

section
variable {o : BitOrder} {s : State} {n : Nat} {as : List SinkAnswer}

theorem exec_enc_starts (hf : s.free) (hb : s.b ≠ 0) : exec (.enc o) s = .next (encAt o s 0 s.sinkAnswers) := by
  refine (command_modulus_starts hf (.enc o) encFirst encRun hb).trans ?_
  rw [encAt, latch_encode]
  rfl

theorem encAt_running : (encAt o s n as).running (.enc o) :=
  ⟨rfl, latched_of_lop (cmdOp_encode (.enc o)) (cmdOrd_encode (.enc o))⟩

theorem encAt_lord : (encAt o s n as).lord = o := cmdOrd_encode (.enc o)

variable (hm : s.moves = [])
include hm

theorem step_encAt {c : Bool} (hc : (golombBits s.x.toNat s.b.toNat o).toList[n]? = some c) :
    step (encAt o s n as) = .next (encTransfer (golombBits s.x.toNat s.b.toNat o) n c (encAt o s n as)) :=
  (step_running encAt_running hm).trans (exec_enc_sending encAt_running rfl ((BitSeq.bit?_eq _ n).trans hc))

/-- A bit answered OK: the next bit follows, or the command completes with the count of all of them. -/
theorem step_encAt_ok {c : Bool} (hc : (golombBits s.x.toNat s.b.toNat o).toList[n]? = some c) :
    step (encAt o s n (.ok :: as)) = .next (
      if n + 1 < (golombBits s.x.toNat s.b.toNat o).length then encAt o s (n + 1) as
      else complete (BitVec.ofNat 64 (n + 1)) (BitVec.ofNat 65 (n + 1)) (encQ (encAt o s (n + 1) as))
        (encR (encAt o s (n + 1) as)) false (encAt o s (n + 1) as)) := by
  have htaken : countTransfer (takeSink c .ok as (encAt o s n (.ok :: as))) =
      { encAt o s (n + 1) as with phase := .encSend (golombBits s.x.toNat s.b.toNat o) n } := by
    simp only [encAt, countTransfer, takeSink, ofNat_count_succ, List.take_add_one, hc, Option.toList_some, sent_append,
      latch_lord, cmdOrd_encode, Instr.ord, List.cons_append]
  rw [step_encAt hm hc, encTransfer_ok (rest := as) rfl, htaken, encAdvance]
  split
  · rfl
  · rw [← BitVec.setWidth_ofNat_of_le (show 64 ≤ 65 by decide)]
    rfl

/-- While the sink answers OK each step sends one bit (R136). -/
theorem run_encAt : ∀ {n : Nat} {as : List SinkAnswer}, n < (golombBits s.x.toNat s.b.toNat o).length →
    run n (encAt o s 0 (List.replicate n .ok ++ as)) = .next (encAt o s n as) := by
  intro n
  induction n with
  | zero => exact fun _ => rfl
  | succ n ih =>
    intro as hn
    obtain ⟨c, hc⟩ := BitSeq.bit?_isSome (Nat.lt_of_succ_lt hn)
    rw [BitSeq.bit?_eq] at hc
    have hrun := ih (as := .ok :: as) (Nat.lt_of_succ_lt hn)
    rw [List.append_cons, ← List.replicate_succ'] at hrun
    rw [run_succ_of_run hrun, step_encAt_ok hm hc, if_pos hn]

/-- The whole run: all bits answered OK, and the completion with their number (R136, R170). -/
theorem run_enc_all : ∀ {L : Nat}, L = (golombBits s.x.toNat s.b.toNat o).length →
    run L (encAt o s 0 (List.replicate L .ok ++ as)) = .next (
      complete (BitVec.ofNat 64 L) (BitVec.ofNat 65 L) (encQ (encAt o s L as)) (encR (encAt o s L as)) false
        (encAt o s L as))
  | 0, hL => absurd hL (golombBits_length_pos _ _ _).ne
  | n + 1, hL => by
    have hn : n < (golombBits s.x.toNat s.b.toNat o).length := by omega
    obtain ⟨c, hc⟩ := BitSeq.bit?_isSome hn
    rw [BitSeq.bit?_eq] at hc
    have hrun := run_encAt hm (o := o) (as := .ok :: as) hn
    rw [List.append_cons, ← List.replicate_succ'] at hrun
    rw [run_succ_of_run hrun, step_encAt_ok hm hc, if_neg (by omega)]

/-- A run that ends at the answer ERR to bit `i` (R136, R237). -/
theorem run_enc_err {i : Nat} {c : Bool} {e : IoCode} (hc : (golombBits s.x.toNat s.b.toNat o).toList[i]? = some c) :
    run (i + 1) (encAt o s 0 (List.replicate i .ok ++ .err e :: as)) = .next (
      raiseError .ioError e (encQ (encAt o s i as)) (encR (encAt o s i as))
        (takeSink c (.err e) as (encAt o s i (.err e :: as)))) := by
  have hi : i < (golombBits s.x.toNat s.b.toNat o).length := by
    rw [← BitSeq.length_toList]
    exact (List.getElem?_eq_some_iff.mp hc).1
  rw [run_succ_of_run (run_encAt hm hi), step_encAt hm hc, encTransfer_err rfl]
  rfl

end

/-- A count below 2^64 has its bit 64 clear. -/
theorem getLsbD_count_of_lt {n : Nat} (hn : n < 2 ^ 64) : (BitVec.ofNat 65 n).getLsbD 64 = false := by
  rw [getLsbD_count hn.le, decide_eq_false hn.ne]

/-- Settles O23: by the run up to the last bit or the failing one; after an error the block is free and waits. -/
theorem whatTheSinkSees : Obligations.WhatTheSinkSees := by
  intro o s hf hb hm
  refine ⟨_, exec_enc_starts hf hb, fun rest hs => ?_, fun i c e rest hc hs => ?_⟩
  · rw [hs]
    refine ⟨_, run_enc_all hm (BitSeq.length_toList _), rfl, rfl, rfl, ?_⟩
    rw [complete_trace, encAt, List.take_length]
    rfl
  · have hi := (List.getElem?_eq_some_iff.mp hc).1
    have hlen := length_golombBits_operands_le (x := s.x) hb o
    rw [BitSeq.length_toList] at hi
    rw [hs]
    refine ⟨_, run_enc_err hm hc, rfl, rfl, rfl, ?_, ?_, ?_, rfl, ?_, ?_⟩
    · exact ioerrOf_eq_append .ioError e
    · exact BitVec.setWidth_ofNat_of_le (show 64 ≤ 65 by decide) i
    · exact getLsbD_count_of_lt (by omega)
    · rw [raiseError_trace, takeSink_trace, encAt_lord]
      rfl
    · exact run_of_step_eq_self (step_free_no_moves rfl hm)

/-- A `len` that was accepted completes in its next step, with no move to come (R162). -/
theorem run_len {o : BitOrder} {s : State} (hf : s.free) (hb : s.b ≠ 0) (hm : s.moves = []) :
    ∃ s₁, exec (.len o) s = .next s₁ ∧ run 1 s₁ = .next (lenCalc s₁) ∧ s₁.xVal = s.x.toNat ∧ s₁.bVal = s.b.toNat := by
  have hr : State.running (.len o) { latch (encode (.len o)) s with phase := .calculating } :=
    ⟨rfl, latched_of_lop (cmdOp_encode (.len o)) (cmdOrd_encode (.len o))⟩
  refine ⟨_, command_modulus_starts hf (.len o) _ lenRun hb, ?_, rfl, rfl⟩
  rw [run_one, step_running hr hm]
  exact exec_len_calculating rfl hr

/-- Settles O24: both counts are the length of the codeword. -/
theorem lengthAgreement : Obligations.LengthAgreement := by
  intro o o' s s' rest hf hf' hb hx hxb hm hm' hs
  obtain ⟨s₁', hstart', hrun', hx', hb'⟩ := run_len (o := o') hf' (hxb ▸ hb) hm'
  have hlen := length_golombBits_operands_le (x := s.x) hb o
  have hrun := run_enc_all (o := o) (as := rest) hm rfl
  rw [← hs] at hrun
  have hn : golombLen s₁'.xVal s₁'.bVal = (golombBits s.x.toNat s.b.toNat o).length := by
    rw [hx', hb', hx, hxb, length_golombBits]
  refine ⟨_, _, s₁', _, exec_enc_starts hf hb, hrun, hstart', hrun', rfl, rfl, rfl, rfl, ?_, ?_, ?_, ?_⟩
  · rw [lenCalc, complete_result, complete_result, hn, BitVec.setWidth_ofNat_of_le (by decide)]
  · rw [lenCalc, complete_nbits, complete_nbits, hn]
  · rw [lenCalc, complete_status, complete_status, Status.complete_n64, Status.complete_n64, hn]
  · rw [complete_nbits, complete_status, Status.complete_n64, count_eq, BitSeq.length_toList,
      BitVec.toNat_ofNat, Nat.mod_eq_of_lt (by omega)]

end Sys2Proof.Machine
end

section
/-! PROOFS, 43_decoder.md: the run of a `dec` (R137 to R140, R191, R192, R194). -/

namespace Sys2Proof.Machine

/-! ## Fields of one bit (R99) -/

theorem fieldBits_one (w : Nat) (o : BitOrder) : fieldBits (w % 2) 1 o = [decide (w % 2 = 1)] := by
  cases o <;> simp [fieldBits, lowBits, Nat.testBit_zero]

theorem two_mul_half_add (w : Nat) : 2 * (w / 2) + (decide (w % 2 = 1)).toNat = w := by
  rcases Nat.mod_two_eq_zero_or_one w with h | h
  · simp [h]
    omega
  · simp [h]
    omega

/-! ## The states of a run of `dec` -/

/-- The source transfers that answered OK with these bits, as the trace records them. -/
def received (o : BitOrder) (bits : List Bool) : List Event := (bits.map fun c => Event.source o (.ok c)).reverse

theorem received_append (o : BitOrder) (bits : List Bool) (c : Bool) :
    received o (bits ++ [c]) = .source o (.ok c) :: received o bits := by
  simp [received]

/-- A `dec` of order `o` that was accepted in `s`, in phase `ph` after reading `bits`, with the answers `as` to come. -/
def decAt (o : BitOrder) (s : State) (bits : List Bool) (as : List SourceAnswer) (ph : Phase) : State :=
  { latch (encode (.dec o)) s with
    phase := ph
    cnt := BitVec.ofNat 65 bits.length
    sourceAnswers := as
    trace := received o bits ++ s.trace }

section
variable {o : BitOrder} {s : State} {bits : List Bool} {as : List SourceAnswer} {ph : Phase} {c : Bool} {q : Nat}

theorem exec_dec_starts (hf : s.free) (hb : s.b ≠ 0) :
    exec (.dec o) s = .next (decAt o s [] s.sourceAnswers (.decU 0)) := by
  refine (command_modulus_starts hf (.dec o) _ decRun hb).trans ?_
  rw [decAt, latch_encode]
  rfl

theorem decAt_running : (decAt o s bits as ph).running (.dec o) :=
  ⟨rfl, latched_of_lop (cmdOp_encode (.dec o)) (cmdOrd_encode (.dec o))⟩

theorem decAt_lord : (decAt o s bits as ph).lord = o := cmdOrd_encode (.dec o)

theorem decAt_bVal : (decAt o s bits as ph).bVal = s.b.toNat := rfl

/-- Taking a bit adds it to the bits read (R41). -/
theorem decAt_take :
    countTransfer (takeSource (.ok c) as (decAt o s bits (.ok c :: as) ph)) = decAt o s (bits ++ [c]) as ph := by
  simp only [decAt, countTransfer, takeSource, ofNat_count_succ, List.length_append, List.length_singleton, received_append,
    latch_lord, cmdOrd_encode, Instr.ord, List.cons_append]

/-- Recombination ends the command whatever its phase was (R140). -/
theorem recombine_decAt (r : Nat) (ph' : Phase) :
    recombine q r (decAt o s bits as ph) = recombine q r (decAt o s bits as ph') := by
  unfold recombine
  rw [decAt_bVal, decAt_bVal]
  rfl

theorem decUnaryBit_zero {qc : Nat} (hq : qc + 1 ≤ qlim s.b.toNat) :
    decUnaryBit qc false (decAt o s bits as ph) = decAt o s bits as (.decU (qc + 1)) := by
  rw [decUnaryBit, if_neg Bool.false_ne_true, decAt_bVal, if_neg (not_lt.mpr hq)]
  rfl

/-- The terminator ends the unary part; modulus 1 has no remainder to read. -/
theorem decUnaryBit_one :
    decUnaryBit q true (decAt o s bits as ph) =
      if minBinK s.b.toNat = 0 then recombine q 0 (decAt o s bits as .idle) else decAt o s bits as (.decP q 0 0) := by
  rw [decUnaryBit, if_pos rfl, decAt_bVal, recombine_decAt 0 .idle]
  rfl

theorem decPrefixBit_decAt {j acc : Nat} :
    decPrefixBit q j acc c (decAt o s bits as ph) =
      if j + 1 < minBinK s.b.toNat then decAt o s bits as (.decP q (j + 1) (prefixStep o j acc c))
      else if prefixStep o j acc c < minBinU s.b.toNat then recombine q (prefixStep o j acc c) (decAt o s bits as .idle)
      else decAt o s bits as (.decX q (prefixStep o j acc c)) := by
  have hstep : prefixStep (decAt o s bits as ph).lord j acc c = prefixStep o j acc c := by rw [decAt_lord]
  rw [decPrefixBit, decAt_bVal, hstep, recombine_decAt _ .idle]
  rfl

variable (hm : s.moves = [])
include hm

theorem step_decAt_unary {qc : Nat} :
    step (decAt o s bits (.ok c :: as) (.decU qc)) = .next (decUnaryBit qc c (decAt o s (bits ++ [c]) as (.decU qc))) := by
  rw [step_running decAt_running hm, exec_dec_unary decAt_running rfl, sourceTransfer_ok rfl, decAt_take]

theorem step_decAt_prefix {j acc : Nat} :
    step (decAt o s bits (.ok c :: as) (.decP q j acc)) =
      .next (decPrefixBit q j acc c (decAt o s (bits ++ [c]) as (.decP q j acc))) := by
  rw [step_running decAt_running hm, exec_dec_prefix decAt_running rfl, sourceTransfer_ok rfl, decAt_take]

theorem step_decAt_extra {acc : Nat} :
    step (decAt o s bits (.ok c :: as) (.decX q acc)) =
      .next (decExtraBit q acc c (decAt o s (bits ++ [c]) as (.decX q acc))) := by
  rw [step_running decAt_running hm, exec_dec_extra decAt_running rfl, sourceTransfer_ok rfl, decAt_take]

/-! ## The unary part (R137) -/

/-- The zeros of a quotient up to QLIM are counted one by one. -/
theorem run_zeros : ∀ {n : Nat} {as : List SourceAnswer}, n ≤ qlim s.b.toNat →
    run n (decAt o s [] (List.replicate n (.ok false) ++ as) (.decU 0)) =
      .next (decAt o s (List.replicate n false) as (.decU n)) := by
  intro n
  induction n with
  | zero => exact fun _ => rfl
  | succ n ih =>
    intro as hn
    have hrun := ih (as := .ok false :: as) (Nat.le_of_succ_le hn)
    rw [List.append_cons, ← List.replicate_succ'] at hrun
    rw [run_succ_of_run hrun, step_decAt_unary hm, decUnaryBit_zero hn, ← List.replicate_succ']

/-- The zero that passes QLIM ends the command at once (R192). -/
theorem run_zeros_overflow {n : Nat} (hn : n = qlim s.b.toNat) :
    run (n + 1) (decAt o s [] (List.replicate (n + 1) (.ok false) ++ as) (.decU 0)) =
      .next (raiseError .decOverflow 0 (BitVec.ofNat 64 (min (n + 1) Config.maxWord)) 0
        (decAt o s (List.replicate (n + 1) false) as (.decU n))) := by
  have hrun := run_zeros (o := o) hm (as := .ok false :: as) hn.le
  rw [List.append_cons, ← List.replicate_succ'] at hrun
  rw [run_succ_of_run hrun, step_decAt_unary hm, decUnaryBit, if_neg Bool.false_ne_true, decAt_bVal, if_pos (by omega),
    ← List.replicate_succ']

/-! ## The remainder (R138, R139) -/

/-- The reader of the leading bits recovers the value of a field of `k` bits in both orders. -/
theorem run_prefix {v : Nat} (hv : v < 2 ^ minBinK s.b.toNat) : ∀ (l : List Bool) {j acc : Nat} {bits : List Bool}, l ≠ [] →
    acc < 2 ^ j → fieldBits acc j o ++ l = fieldBits v (minBinK s.b.toNat) o →
    run l.length (decAt o s bits (l.map .ok ++ as) (.decP q j acc)) = .next (
      if v < minBinU s.b.toNat then recombine q v (decAt o s (bits ++ l) as .idle)
      else decAt o s (bits ++ l) as (.decX q v))
  | [], _, _, _, h, _, _ => absurd rfl h
  | c :: l, j, acc, bits, _, hacc, heq => by
    have hlen := congrArg List.length heq
    simp only [List.length_append, length_fieldBits, List.length_cons] at hlen
    have hacc' : prefixStep o j acc c < 2 ^ (j + 1) := prefixStep_lt hacc
    rw [List.append_cons, ← fieldBits_prefixStep hacc] at heq
    rw [List.length_cons, List.map_cons, List.cons_append, run_of_step (step_decAt_prefix hm), decPrefixBit_decAt]
    cases l with
    | nil =>
      have hk : j + 1 = minBinK s.b.toNat := by simpa using hlen
      rw [List.append_nil, ← hk] at heq
      rw [← hk] at hv
      rw [fieldBits_inj hacc' hv heq, if_neg (by omega)]
      split <;> rfl
    | cons c' l =>
      rw [if_pos (by rw [List.length_cons] at hlen; omega), List.append_cons bits c (c' :: l)]
      exact run_prefix hv (c' :: l) (List.cons_ne_nil _ _) hacc' heq

/-- The two readers recover the remainder (R138, R139). -/
theorem run_minBinBits {r : Nat} (hr : r < s.b.toNat) (hk : minBinK s.b.toNat ≠ 0) :
    run (minBinBits r s.b.toNat o).length (decAt o s bits ((minBinBits r s.b.toNat o).map .ok ++ as) (.decP q 0 0)) =
      .next (recombine q r (decAt o s (bits ++ minBinBits r s.b.toNat o) as .idle)) := by
  have hne : ∀ v, fieldBits v (minBinK s.b.toNat) o ≠ [] := fun v h => hk (by simpa using congrArg List.length h)
  rcases Nat.lt_or_ge r (minBinU s.b.toNat) with hs | hl
  · rw [minBinBits_short o hs, run_prefix hm (short_lt hr hs) _ (j := 0) (acc := 0) (hne r) Nat.one_pos (by simp), if_pos hs]
  · have hprefix := run_prefix hm (o := o) (q := q) (bits := bits)
      (as := .ok (decide ((r + minBinU s.b.toNat) % 2 = 1)) :: as) (long_prefix_lt hr)
      (fieldBits ((r + minBinU s.b.toNat) / 2) _ o) (j := 0) (acc := 0) (hne _) Nat.one_pos (by simp)
    rw [if_neg (by omega)] at hprefix
    rw [minBinBits_long o hl, fieldBits_one, List.length_append, List.length_singleton, List.map_append, List.append_assoc]
    refine (run_succ_of_run hprefix).trans ?_
    rw [step_decAt_extra hm, decExtraBit, decAt_bVal, two_mul_half_add, Nat.add_sub_cancel, List.append_assoc,
      recombine_decAt r .idle]

/-! ## Whole codewords -/

/-- Fed a quotient up to QLIM in unary and the code of a remainder, `dec` reads all of it and recombines them. -/
theorem run_codeword {r : Nat} (hq : q ≤ qlim s.b.toNat) (hr : r < s.b.toNat) (hbits : bits =
    List.replicate q false ++ true :: minBinBits r s.b.toNat o) :
    run bits.length (decAt o s [] (bits.map .ok ++ as) (.decU 0)) = .next (recombine q r (decAt o s bits as .idle)) := by
  have hzeros := run_zeros (o := o) hm (as := .ok true :: ((minBinBits r s.b.toNat o).map .ok ++ as)) hq
  rw [hbits, List.length_append, List.length_replicate, List.length_cons, List.map_append, List.map_replicate, List.map_cons,
    List.append_assoc, List.cons_append, run_add hzeros, run_of_step (step_decAt_unary hm), decUnaryBit_one]
  split
  next hk =>
    have h1 : s.b.toNat < 2 := by simpa [hk] using lt_two_pow_minBinK s.b.toNat
    obtain rfl : r = 0 := by omega
    rw [minBinBits_short o (minBinU_pos _), hk, fieldBits_zero]
    rfl
  next hk =>
    have hrem := run_minBinBits hm (o := o) (q := q) (as := as) (bits := List.replicate q false ++ [true]) hr hk
    rw [← List.append_cons] at hrem
    exact hrem

end

/-- Settles O29: the quotient and the remainder of `x` recombine to `x`, which is a u64. -/
theorem decodeOfCodewordReturnsValue : Obligations.DecodeOfCodewordReturnsValue := by
  intro x o s rest hf hb hm bits hs
  have hx : x.toNat ≤ Config.maxWord := Nat.le_of_lt_succ x.isLt
  have hq : x.toNat / s.b.toNat ≤ qlim s.b.toNat := Nat.div_le_div_right hx
  have hrun := run_codeword hm (as := rest) hq (Nat.mod_lt _ (toNat_pos hb)) (toList_golombBits x.toNat s.b.toNat o)
  have hval : x.toNat / s.b.toNat * s.b.toNat + x.toNat % s.b.toNat = x.toNat := Nat.div_add_mod' ..
  rw [← hs, recombine, decAt_bVal, hval, if_pos hx] at hrun
  refine ⟨_, _, exec_dec_starts hf hb, hrun, rfl, rfl, rfl, ?_, ?_, ?_, ?_, rfl, rfl⟩
  · exact (BitVec.ofNat_toNat 64 x).trans (BitVec.setWidth_eq x)
  · exact BitVec.eq_of_toNat_eq (by simp [Nat.mod_eq_of_lt, (Nat.div_le_self _ _).trans_lt x.isLt])
  · exact BitVec.eq_of_toNat_eq (by simp [Nat.mod_eq_of_lt, (Nat.mod_le _ _).trans_lt x.isLt])
  · have hlen := length_golombBits_operands_le (x := x) hb o
    rw [complete_nbits, complete_status, Status.complete_n64, count_eq, decAt, BitVec.toNat_ofNat, Nat.mod_eq_of_lt]
    rw [BitSeq.length_toList]
    omega

/-- A codeword that `dec` reads to its end fits the 65-bit count. -/
theorem length_codeword_lt {q r : Nat} {b : Word} {o : BitOrder} (hq : q ≤ qlim b.toNat) :
    (List.replicate q false ++ true :: minBinBits r b.toNat o).length < 2 ^ 65 := by
  have hmax : q ≤ 2 ^ 64 - 1 := hq.trans (qlim_le _)
  have hk : minBinK b.toNat ≤ 63 := minBinK_le b.isLt
  have hl : lenMinBin r b.toNat ≤ minBinK b.toNat + 1 := lenMinBin_le
  rw [List.length_append, List.length_replicate, List.length_cons, length_minBinBits]
  omega

/-- A quotient above QLIM makes the value exceed u64, whatever the remainder (R192). -/
theorem maxWord_lt_of_qlim_lt {q b : Nat} (r : Nat) (hb : 0 < b) (hq : qlim b < q) : Config.maxWord < q * b + r := by
  by_contra hle
  exact hq.not_ge ((le_qlim_iff hb).mpr (by omega))

section
variable {o : BitOrder} {s : State} {q r : Nat} {bits : List Bool} {as : List SourceAnswer} (hm : s.moves = [])
  (hbits : bits = List.replicate q false ++ true :: minBinBits r s.b.toNat o)
include hm hbits

/-- With a quotient up to QLIM all bits are read, and the value decides how the command ends. -/
theorem run_dec_within_qlim (hq : q ≤ qlim s.b.toNat) (hr : r < s.b.toNat) :
    ∃ t, run bits.length (decAt o s [] (bits.map .ok ++ as) (.decU 0)) = .next t ∧ t.status.busy = false ∧
      t.nbits.toNat + (if t.status.n64 then 2 ^ 64 else 0) = bits.length ∧
      (q * s.b.toNat + r < 2 ^ 64 → t.status.err = .ok ∧ t.result.toNat = q * s.b.toNat + r) ∧
      (2 ^ 64 ≤ q * s.b.toNat + r → t.status.err = .decOverflow ∧ t.result = 0) := by
  have hrun := run_codeword hm (as := as) hq hr hbits
  have hcount : (BitVec.ofNat 65 bits.length).toNat = bits.length := by
    rw [BitVec.toNat_ofNat, Nat.mod_eq_of_lt (hbits ▸ length_codeword_lt hq)]
  rcases recombine_cases q r (decAt o s bits as .idle) with ⟨hv, e⟩ | ⟨hv, e⟩
  · have hv' : q * s.b.toNat + r < 2 ^ 64 := Nat.lt_of_le_pred (Nat.two_pow_pos 64) hv
    exact ⟨_, hrun.trans (congrArg _ e), rfl, (count_eq _).trans hcount, fun _ => ⟨rfl, Nat.mod_eq_of_lt hv'⟩,
      fun h => absurd hv' (not_lt.mpr h)⟩
  · exact ⟨_, hrun.trans (congrArg _ e), rfl, (count_eq _).trans hcount, fun h => absurd hv (not_lt.mpr (Nat.le_pred_of_lt h)),
      fun _ => ⟨rfl, rfl⟩⟩

/-- With a larger quotient the command ends after QLIM + 1 zeros and leaves the bits after them unread. -/
theorem run_dec_beyond_qlim (hq : qlim s.b.toNat < q) :
    ∃ t, run (qlim s.b.toNat + 1) (decAt o s [] (bits.map .ok ++ as) (.decU 0)) = .next t ∧ t.status.busy = false ∧
      t.nbits.toNat + (if t.status.n64 then 2 ^ 64 else 0) = qlim s.b.toNat + 1 ∧ t.status.err = .decOverflow ∧
      t.result = 0 ∧ t.sourceAnswers = (bits.drop (qlim s.b.toNat + 1)).map .ok ++ as := by
  have hzeros : bits = List.replicate (qlim s.b.toNat + 1) false ++ bits.drop (qlim s.b.toNat + 1) := by
    have htake : bits.take (qlim s.b.toNat + 1) = List.replicate (qlim s.b.toNat + 1) false := by
      rw [hbits, List.take_append_of_le_length (by simpa using hq), List.take_replicate, Nat.min_eq_left hq]
    rw [← htake, List.take_append_drop]
  have hrun := run_zeros_overflow (o := o) hm (as := (bits.drop (qlim s.b.toNat + 1)).map .ok ++ as) rfl
  rw [← List.map_replicate, ← List.append_assoc, ← List.map_append, ← hzeros] at hrun
  refine ⟨_, hrun, rfl, (count_eq _).trans ?_, rfl, rfl, rfl⟩
  have hmax : qlim s.b.toNat ≤ 2 ^ 64 - 1 := qlim_le _
  rw [decAt, List.length_replicate, BitVec.toNat_ofNat, Nat.mod_eq_of_lt (by omega)]

end

/-- Settles O31: up to QLIM by the recombination of all the bits, beyond it by the zero that passes it. -/
theorem decOverflowExactlyOnLargeValues : Obligations.DecOverflowExactlyOnLargeValues := by
  intro q r o s rest hf hb hm hr b bits hs
  have hbits : bits = List.replicate q false ++ true :: minBinBits r b o := by simp [bits]
  have hstart := exec_dec_starts (o := o) hf hb
  rw [hs] at hstart
  rcases le_or_gt q (qlim b) with hq | hq
  · obtain ⟨t, hrun, hbusy, hcount, hsmall, hlarge⟩ := run_dec_within_qlim (as := rest) hm hbits hq hr
    refine ⟨_, t, bits.length, hstart, hrun, hbusy, hcount, fun h => ?_, fun h => ?_⟩
    · obtain ⟨herr, hres⟩ := hsmall h
      exact ⟨herr, hres, rfl⟩
    · obtain ⟨herr, hres⟩ := hlarge h
      exact ⟨herr, hres, fun _ => rfl, fun h => absurd hq (not_le.mpr h)⟩
  · obtain ⟨t, hrun, hbusy, hcount, herr, hres, hleft⟩ := run_dec_beyond_qlim (as := rest) hm hbits hq
    have hbig : 2 ^ 64 ≤ q * b + r := maxWord_lt_of_qlim_lt r (Nat.zero_lt_of_lt hr) hq
    exact ⟨_, t, qlim b + 1, hstart, hrun, hbusy, hcount, fun h => absurd hbig (not_le.mpr h),
      fun _ => ⟨herr, hres, fun h => absurd hq (not_lt.mpr h), fun _ => ⟨rfl, hleft⟩⟩⟩

end Sys2Proof.Machine
end

section
/-! PROOFS, 43_decoder.md: a `dec` that completes OK has consumed the codeword of its RESULT (R191). -/

namespace Sys2Proof.Machine

/-- The bits that a `dec` of order `o` under modulus `b` has read when it is in phase `ph` (R137 to R139). -/
def Reading (o : BitOrder) (b : Nat) (bits : List Bool) : Phase → Prop
  | .decU qc => bits = List.replicate qc false
  | .decP q j acc => bits = List.replicate q false ++ true :: fieldBits acc j o ∧ j < minBinK b ∧ acc < 2 ^ j
  | .decX q acc => bits = List.replicate q false ++ true :: fieldBits acc (minBinK b) o ∧ minBinU b ≤ acc ∧
      acc < 2 ^ minBinK b
  | _ => False

/-- Where a `dec` accepted in `s` stands after some steps: it has read the beginning of a codeword, or it has ended, and a
successful end has consumed the codeword of RESULT. -/
inductive Consumes (o : BitOrder) (s u : State) : Prop where
  | reads (bits : List Bool) (as : List SourceAnswer) (ph : Phase) (hs : s.sourceAnswers = bits.map .ok ++ as)
      (hph : Reading o s.b.toNat bits ph) (hu : u = decAt o s bits as ph)
  | ended (hb : u.status.busy = false) (hm : u.moves = [])
      (hs : u.status.err = .ok →
        s.sourceAnswers = (golombBits u.result.toNat s.b.toNat o).toList.map .ok ++ u.sourceAnswers)

/-- The quotient and the remainder of a recombined value (R130). -/
theorem toList_golombBits_recombined {q r b : Nat} (hr : r < b) (o : BitOrder) :
    (golombBits (q * b + r) b o).toList = List.replicate q false ++ true :: minBinBits r b o := by
  have hdiv : (q * b + r) / b = q := by
    rw [Nat.mul_comm, Nat.mul_add_div (Nat.zero_lt_of_lt hr), Nat.div_eq_of_lt hr, Nat.add_zero]
  rw [toList_golombBits, hdiv, Nat.add_comm, Nat.add_mul_mod_self_right, Nat.mod_eq_of_lt hr]

section
variable {o : BitOrder} {s : State} {bits : List Bool} {as : List SourceAnswer} {ph : Phase} {c : Bool} {q : Nat}
  (hs : s.sourceAnswers = bits.map .ok ++ .ok c :: as)
include hs

/-- A command that goes on has read one bit more. -/
theorem decAt_consumes (hph : Reading o s.b.toNat (bits ++ [c]) ph) : Consumes o s (decAt o s (bits ++ [c]) as ph) :=
  .reads (bits ++ [c]) as ph (by simp [hs]) hph rfl

variable (hm : s.moves = [])
include hm

/-- A recombination of the codeword read so far is an end that has consumed it (R140). -/
theorem recombine_consumes {r : Nat} (hr : r < s.b.toNat)
    (hbits : bits ++ [c] = List.replicate q false ++ true :: minBinBits r s.b.toNat o) :
    Consumes o s (recombine q r (decAt o s (bits ++ [c]) as ph)) := by
  rcases recombine_cases q r (decAt o s (bits ++ [c]) as ph) with ⟨hv, e⟩ | ⟨-, e⟩
  · rw [e]
    refine .ended rfl hm fun _ => ?_
    have hval : (BitVec.ofNat 64 (q * s.b.toNat + r)).toNat = q * s.b.toNat + r :=
      Nat.mod_eq_of_lt (Nat.lt_of_le_pred (Nat.two_pow_pos 64) hv)
    rw [complete_result, decAt_bVal, hval, toList_golombBits_recombined hr, ← hbits, hs]
    simp [decAt]
  · rw [e]
    exact .ended rfl hm nofun

theorem decUnaryBit_consumes {qc : Nat} (hb : 0 < s.b.toNat) (hph : Reading o s.b.toNat bits (.decU qc)) :
    Consumes o s (decUnaryBit qc c (decAt o s (bits ++ [c]) as (.decU qc))) := by
  have hbits : bits = List.replicate qc false := hph
  rcases decUnaryBit_cases qc c (decAt o s (bits ++ [c]) as (.decU qc)) with
    ⟨hc, hk, e⟩ | ⟨hc, hk, e⟩ | ⟨-, -, e⟩ | ⟨hc, -, e⟩
  · rw [e]
    rw [decAt_bVal] at hk
    refine recombine_consumes hs hm hb ?_
    rw [minBinBits_short o (minBinU_pos _), hk, fieldBits_zero, hbits, hc]
  · rw [e]
    refine decAt_consumes hs ⟨?_, Nat.pos_of_ne_zero hk, Nat.one_pos⟩
    rw [fieldBits_zero, hbits, hc]
  · rw [e]
    exact .ended rfl hm nofun
  · rw [e]
    refine decAt_consumes hs (ph := .decU (qc + 1)) ?_
    rw [Reading, List.replicate_succ', hbits, hc]

theorem decPrefixBit_consumes {j acc : Nat} (hb : 0 < s.b.toNat) (hph : Reading o s.b.toNat bits (.decP q j acc)) :
    Consumes o s (decPrefixBit q j acc c (decAt o s (bits ++ [c]) as (.decP q j acc))) := by
  obtain ⟨hbits, hj, hacc⟩ := hph
  have hbits' : bits ++ [c] = List.replicate q false ++ true :: fieldBits (prefixStep o j acc c) (j + 1) o := by
    rw [fieldBits_prefixStep hacc, hbits, List.append_assoc, List.cons_append]
  have hacc' : prefixStep o j acc c < 2 ^ (j + 1) := prefixStep_lt hacc
  rw [decPrefixBit_decAt]
  split
  next hk => exact decAt_consumes hs ⟨hbits', hk, hacc'⟩
  next hk =>
    have hfull : j + 1 = minBinK s.b.toNat := by omega
    rw [hfull] at hbits' hacc'
    split
    next hu =>
      refine recombine_consumes hs hm (hacc'.trans_le (two_pow_minBinK_le hb.ne')) ?_
      rw [minBinBits_short o hu]
      exact hbits'
    next hu => exact decAt_consumes hs ⟨hbits', not_lt.mp hu, hacc'⟩

theorem decExtraBit_consumes {acc : Nat} (hb : 0 < s.b.toNat) (hph : Reading o s.b.toNat bits (.decX q acc)) :
    Consumes o s (decExtraBit q acc c (decAt o s (bits ++ [c]) as (.decX q acc))) := by
  obtain ⟨hbits, hu, hacc⟩ := hph
  obtain ⟨hlong, hle⟩ := extra_remainder_bounds hu hacc (Bool.toNat_le c)
  refine recombine_consumes hs hm (by rw [decAt_bVal]; omega) ?_
  have hsum : 2 * acc + c.toNat - minBinU s.b.toNat + minBinU s.b.toNat = 2 * acc + c.toNat := by omega
  have hhalf : (2 * acc + c.toNat) / 2 = acc := by cases c <;> simp; omega
  have hlast : decide ((2 * acc + c.toNat) % 2 = 1) = c := by cases c <;> simp
  rw [decAt_bVal, minBinBits_long o hlong, hsum, fieldBits_one, hhalf, hlast, hbits, List.append_assoc, List.cons_append]

end

/-- An IO_ERROR end is no successful one (R237). -/
theorem raiseError_consumes {o : BitOrder} {s u : State} {k : ErrKind} {e : IoCode} {q r : Word} (hk : k ≠ .ok)
    (hm : u.moves = []) : Consumes o s (raiseError k e q r u) :=
  .ended rfl hm fun h => absurd h hk

section
variable {o : BitOrder} {s u t : State} (hm : s.moves = [])
include hm

/-- The source transfer of a running `dec`, by the source's answer. -/
theorem sourceTransfer_consumes {q : Nat} {bits : List Bool} {as : List SourceAnswer} {ph : Phase}
    {onBit : Bool → State → State} (hs : s.sourceAnswers = bits.map .ok ++ as) (hph : Reading o s.b.toNat bits ph)
    (hon : ∀ c rest, as = .ok c :: rest → Consumes o s (onBit c (decAt o s (bits ++ [c]) rest ph))) :
    Consumes o s (sourceTransfer q onBit (decAt o s bits as ph)) := by
  rcases sourceTransfer_cases q onBit (decAt o s bits as ph) with ⟨-, e⟩ | ⟨_, rest, -, e⟩ | ⟨c, rest, has, e⟩
  · rw [e]
    exact .reads bits as ph hs hph rfl
  · rw [e]
    exact raiseError_consumes nofun hm
  · have has' : as = .ok c :: rest := has
    rw [e, has', decAt_take]
    exact hon c rest has'

variable (hb : 0 < s.b.toNat)
include hb

theorem step_consumes (h : Consumes o s u) (ht : step u = .next t) : Consumes o s t := by
  cases h with
  | ended hb' hm' hs =>
    obtain rfl := Host.Outcome.next.inj ((step_free_no_moves hb' hm').symm.trans ht)
    exact .ended hb' hm' hs
  | reads bits as ph hs hph hu =>
    subst hu
    rw [step_running decAt_running hm] at ht
    cases ph with
    | decU qc =>
      obtain rfl := Host.Outcome.next.inj ((exec_dec_unary decAt_running rfl).symm.trans ht)
      exact sourceTransfer_consumes hm hs hph fun c rest has => decUnaryBit_consumes (has ▸ hs) hm hb hph
    | decP q j acc =>
      obtain rfl := Host.Outcome.next.inj ((exec_dec_prefix decAt_running rfl).symm.trans ht)
      exact sourceTransfer_consumes hm hs hph fun c rest has => decPrefixBit_consumes (has ▸ hs) hm hb hph
    | decX q acc =>
      obtain rfl := Host.Outcome.next.inj ((exec_dec_extra decAt_running rfl).symm.trans ht)
      exact sourceTransfer_consumes hm hs hph fun c rest has => decExtraBit_consumes (has ▸ hs) hm hb hph
    | idle => exact hph.elim
    | calculating => exact hph.elim
    | encSend _ _ => exact hph.elim

theorem run_consumes : ∀ {n : Nat} {u : State}, Consumes o s u → run n u = .next t → Consumes o s t := by
  intro n
  induction n with
  | zero =>
    intro u hu h
    exact Host.Outcome.next.inj h ▸ hu
  | succ n ih =>
    intro u hu h
    rw [run] at h
    split at h
    next hv => exact ih (step_consumes hm hb hu hv) h
    next => cases h
    next => cases h

end

/-- Settles O30: a run that ended with ERR = OK stands at an end that consumed the codeword of RESULT. -/
theorem decodeConsumesOneCodeword : Obligations.DecodeConsumesOneCodeword := by
  intro o s s₁ t n hf hb hm hstart hrun hbusy herr
  obtain rfl := Host.Outcome.next.inj ((exec_dec_starts hf hb).symm.trans hstart)
  have hfirst : Consumes o s (decAt o s [] s.sourceAnswers (.decU 0)) := .reads [] _ (.decU 0) rfl rfl rfl
  cases run_consumes hm (toNat_pos hb) hfirst hrun with
  | reads bits as ph _ _ hu => exact absurd (hu ▸ hbusy) nofun
  | ended _ _ hs => exact hs herr

end Sys2Proof.Machine
end

section
/-! PROOFS, 44_param_mapping.md: binary64 encodings and their values (R13, R32). -/

namespace Sys2Proof.Machine

/-! ## The fields of an encoding -/

theorem fracField_eq (w : Word) : fracField w = w.toNat % 2 ^ 52 := by
  simp [fracField]

/-- A value is its significand times a power of two, with the sign bit 0 (R13). -/
theorem realOf_of_sign {w : Word} (hs : w.getLsbD 63 = false) :
    realOf w = significand w * (2 : ℚ) ^ ((max (expField w) 1 : ℤ) - 1075) := by
  rw [realOf, hs, if_neg Bool.false_ne_true, one_mul]

theorem realOf_nonpos {w : Word} (hs : w.getLsbD 63 = true) : realOf w ≤ 0 := by
  rw [realOf, hs, if_pos rfl, mul_assoc, neg_one_mul, neg_nonpos]
  positivity

/-- The significand does not reach the value `2^52` of the next binade's least one. -/
theorem significand_mul_lt {w : Word} {e : ℤ} (he : (expField w : ℤ) < e) :
    (significand w : ℚ) * (2 : ℚ) ^ ((max (expField w) 1 : ℤ) - 1075) < 2 ^ (52 : ℤ) * 2 ^ (e - 1075) := by
  have hf : fracField w < 2 ^ 52 := (w.extractLsb' 0 52).isLt
  rw [← zpow_add₀ two_ne_zero]
  unfold significand
  split
  next hz =>
    have hlt : (fracField w : ℚ) < 2 ^ (52 : ℤ) := by exact_mod_cast hf
    calc (fracField w : ℚ) * 2 ^ ((max (expField w) 1 : ℤ) - 1075)
        < 2 ^ (52 : ℤ) * 2 ^ ((max (expField w) 1 : ℤ) - 1075) := by gcongr
      _ = 2 ^ (52 + ((max (expField w) 1 : ℤ) - 1075)) := (zpow_add₀ two_ne_zero _ _).symm
      _ ≤ 2 ^ (52 + (e - 1075)) := zpow_le_zpow_right₀ one_le_two (by omega)
  next hz =>
    have hlt : ((2 ^ 52 + fracField w : ℕ) : ℚ) < 2 ^ (53 : ℤ) := by exact_mod_cast show 2 ^ 52 + fracField w < 2 ^ 53 by omega
    calc ((2 ^ 52 + fracField w : ℕ) : ℚ) * 2 ^ ((max (expField w) 1 : ℤ) - 1075)
        < 2 ^ (53 : ℤ) * 2 ^ ((max (expField w) 1 : ℤ) - 1075) := by gcongr
      _ = 2 ^ (53 + ((max (expField w) 1 : ℤ) - 1075)) := (zpow_add₀ two_ne_zero _ _).symm
      _ ≤ 2 ^ (52 + (e - 1075)) := zpow_le_zpow_right₀ one_le_two (by omega)

/-- The values are in the order of the encodings, where the sign bit is 0. -/
theorem realOf_lt_of_toNat_lt {v w : Word} (hv : v.getLsbD 63 = false) (hw : w.getLsbD 63 = false) (h : v.toNat < w.toNat) :
    realOf v < realOf w := by
  rw [realOf_of_sign hv, realOf_of_sign hw]
  rw [sign_eq_false_iff] at hv hw
  have hev := expField_eq v
  have hew := expField_eq w
  rcases Nat.lt_or_ge (expField v) (expField w) with hlt | hge
  · have hsig : (2 : ℚ) ^ (52 : ℤ) ≤ significand w := by
      rw [significand, if_neg (by omega)]
      exact_mod_cast Nat.le_add_right _ _
    calc _ < (2 : ℚ) ^ (52 : ℤ) * 2 ^ ((expField w : ℤ) - 1075) := significand_mul_lt (by exact_mod_cast hlt)
      _ ≤ significand w * 2 ^ ((max (expField w) 1 : ℤ) - 1075) := by
        gcongr
        · exact one_le_two
        · exact le_max_left _ _
  · have heq : expField v = expField w := by omega
    have hsig : significand v < significand w := by
      rw [significand, significand, heq, fracField_eq, fracField_eq]
      split <;> omega
    rw [heq]
    gcongr

theorem realOf_le_of_toNat_le {v w : Word} (hv : v.getLsbD 63 = false) (hw : w.getLsbD 63 = false) (h : v.toNat ≤ w.toNat) :
    realOf v ≤ realOf w := by
  rcases h.lt_or_eq with hlt | heq
  · exact (realOf_lt_of_toNat_lt hv hw hlt).le
  · rw [BitVec.eq_of_toNat_eq heq]

end Sys2Proof.Machine
end

section
/-! PROOFS, 44_param_mapping.md: `bofp` (R210 to R214). -/

namespace Sys2Proof.Machine

/-! ## The test of R214 -/

section
variable {w : Word} (h : inOpenUnit w = true)
include h

theorem realOf_eq_of_openUnit : realOf w = significand w / 2 ^ scale w := by
  obtain ⟨hs, -, he⟩ := inOpenUnit_iff.mp h
  exact realOf_eq hs (by omega)

theorem realOf_mem_openUnit : 0 < realOf w ∧ realOf w < 1 := (inOpenUnit_iff_realOf.mp h).2

theorem bofpExact_iff_realOf (n : Nat) :
    bofpExact (significand w) (scale w) n = true ↔ (2 - realOf w) * (1 - realOf w) ^ n < 1 := by
  rw [realOf_eq_of_openUnit h]
  exact bofpExact_iff (inOpenUnit_bounds h).2.le n

/-- The product of R214 falls below 1 in the end. -/
theorem exists_bofpExact : ∃ n, bofpExact (significand w) (scale w) n = true := by
  obtain ⟨hpos, hlt⟩ := realOf_mem_openUnit h
  obtain ⟨n, hn⟩ := exists_pow_lt_of_lt_one (show (0 : ℚ) < 1 / 2 by norm_num) (show 1 - realOf w < 1 by linarith)
  refine ⟨n, (bofpExact_iff_realOf h n).mpr ?_⟩
  nlinarith [pow_nonneg (show (0 : ℚ) ≤ 1 - realOf w by linarith) n]

/-- The least `n` of R214 is one above the last that fails, where the search of the model saturates (R212). -/
theorem bofp_least : ∃ c, IsLeast {n : Nat | 1 ≤ n ∧ (2 - realOf w) * (1 - realOf w) ^ n < 1} c ∧
    bofpValue w = BitVec.ofNat 64 (min c Config.maxWord) ∧ bofpSat w = decide (Config.maxWord < c) := by
  obtain ⟨hlt, hfail, hholds⟩ := bofpBelow_spec h
  have hm := (inOpenUnit_bounds h).2.le
  obtain ⟨c, hc, hmin⟩ : ∃ c, bofpExact (significand w) (scale w) c = true ∧
      ∀ n < c, bofpExact (significand w) (scale w) n ≠ true :=
    ⟨Nat.find (exists_bofpExact h), Nat.find_spec (exists_bofpExact h), fun n hn => Nat.find_min (exists_bofpExact h) hn⟩
  have hgt : bofpBelow w < c := by
    by_contra hle
    exact absurd (bofpExact_mono hm (not_lt.mp hle) hc) (by simp [hfail])
  refine ⟨c, ⟨⟨by omega, (bofpExact_iff_realOf h c).mp hc⟩, fun n hn => ?_⟩, ?_⟩
  · by_contra hnc
    exact hmin n (not_le.mp hnc) ((bofpExact_iff_realOf h n).mpr hn.2)
  · rw [bofpValue, bofpSat]
    rcases Nat.lt_or_ge (bofpBelow w + 1) (2 ^ 64) with hsmall | hlarge
    · have heq : c = bofpBelow w + 1 := by
        by_contra hne
        exact hmin (bofpBelow w + 1) (by omega) (hholds _ (Nat.lt_succ_self _) hsmall)
      rw [heq]
      exact ⟨rfl, rfl⟩
    · have h1 : Config.maxWord < bofpBelow w + 1 := hlarge
      have h2 : Config.maxWord < c := by omega
      rw [Nat.min_eq_right h1.le, Nat.min_eq_right h2.le, decide_eq_true h1, decide_eq_true h2]
      exact ⟨rfl, rfl⟩

end

/-- A `bofp` in CALC ends with the mapping's value and SAT (R210). -/
theorem exec_bofp_eq {o : BitOrder} {s : State} (hr : s.running (.bofp o)) (hp : s.phase = .calculating) :
    exec (.bofp o) s = .next { s with
      result := bofpValue s.lp
      nbits := 0, q := 0, r := 0, ioerr := 0, phase := .idle
      status := { s.status with busy := false, done := true, n64 := false, sat := bofpSat s.lp, err := .ok } } := by
  rw [exec_bofp_calculating hp hr]
  rfl

/-- Settles O33: by the least `n` that passes the test. -/
theorem bofpCompletesWithLeastModulus : Obligations.BofpCompletesWithLeastModulus := by
  intro o s hr hp hu
  obtain ⟨c, hc, hval, hsat⟩ := bofp_least hu
  refine ⟨c, hc, ?_⟩
  rw [exec_bofp_eq hr hp, hval, hsat]
  rfl

/-! ## The real form (R210) -/

/-- The product of R214 is never 1: `2^(e+1) - m` lies strictly between two powers of two. -/
theorem bofp_product_ne_one {w : Word} (h : inOpenUnit w = true) (n : Nat) : (2 - realOf w) * (1 - realOf w) ^ n ≠ 1 := by
  obtain ⟨hpos, hlt⟩ := inOpenUnit_bounds h
  rw [realOf_eq_of_openUnit h]
  generalize significand w = m at hpos hlt
  generalize scale w = e at hlt
  intro hone
  have hE : (2 : ℚ) ^ e ≠ 0 := by positivity
  have hprod : (2 ^ (e + 1) - m) * (2 ^ e - m) ^ n = 2 ^ (e * (n + 1)) := by
    have hcast : (((2 ^ (e + 1) - m) * (2 ^ e - m) ^ n : ℕ) : ℚ) = ((2 ^ (e * (n + 1)) : ℕ) : ℚ) := by
      push_cast [Nat.cast_sub hlt.le, Nat.cast_sub (hlt.le.trans (Nat.pow_le_pow_right Nat.two_pos (Nat.le_succ e)))]
      have h1 : (2 : ℚ) ^ (e + 1) - m = (2 - m / 2 ^ e) * 2 ^ e := by rw [pow_succ]; field_simp
      have h2 : (2 : ℚ) ^ e - m = (1 - m / 2 ^ e) * 2 ^ e := by field_simp
      rw [h1, h2, mul_pow, mul_mul_mul_comm, hone, one_mul, ← pow_succ', ← pow_mul]
    exact_mod_cast hcast
  obtain ⟨j, -, hj⟩ := (Nat.dvd_prime_pow Nat.prime_two).mp (Dvd.intro _ hprod)
  have hlo : 2 ^ e < 2 ^ j := by rw [← hj, pow_succ]; omega
  have hhi : 2 ^ j < 2 ^ (e + 1) := by rw [← hj]; have := Nat.two_pow_pos (e + 1); omega
  have hlo' := (Nat.pow_lt_pow_iff_right Nat.one_lt_two).mp hlo
  have hhi' := (Nat.pow_lt_pow_iff_right Nat.one_lt_two).mp hhi
  omega

section
variable {p : ℝ} (h0 : 0 < p) (h1 : p < 1)
include h0 h1

/-- The logarithm of the product of R214. -/
theorem log_bofp_product (n : Nat) : Real.log ((2 - p) * (1 - p) ^ n) = Real.log (2 - p) + n * Real.log (1 - p) := by
  rw [Real.log_mul (by linarith) (pow_ne_zero n (by linarith)), Real.log_pow]

theorem bofp_product_lt_one_iff (n : Nat) :
    (2 - p) * (1 - p) ^ n < 1 ↔ -Real.log (2 - p) / Real.log (1 - p) < n := by
  have hneg : Real.log (1 - p) < 0 := Real.log_neg (by linarith) (by linarith)
  have hpos : 0 < (2 - p) * (1 - p) ^ n := mul_pos (by linarith) (pow_pos (by linarith) n)
  rw [div_lt_iff_of_neg hneg, ← Real.log_neg_iff hpos, log_bofp_product h0 h1]
  constructor <;> intro h <;> linarith

theorem bofp_product_eq_one_of {n : Nat} (h : -Real.log (2 - p) / Real.log (1 - p) = n) : (2 - p) * (1 - p) ^ n = 1 := by
  have hneg : Real.log (1 - p) < 0 := Real.log_neg (by linarith) (by linarith)
  have hpos : 0 < (2 - p) * (1 - p) ^ n := mul_pos (by linarith) (pow_pos (by linarith) n)
  rw [div_eq_iff hneg.ne] at h
  refine Real.eq_one_of_pos_of_log_eq_zero hpos ?_
  rw [log_bofp_product h0 h1]
  linarith

end

/-- The least `n` of R214 is the ceiling of R210, since the quotient of the logarithms is no integer. -/
theorem ceil_eq_of_isLeast {w : Word} (h : inOpenUnit w = true) {c : Nat}
    (hc : IsLeast {n : Nat | 1 ≤ n ∧ (2 - realOf w) * (1 - realOf w) ^ n < 1} c) :
    ⌈-Real.log (2 - (realOf w : ℝ)) / Real.log (1 - (realOf w : ℝ))⌉ = c := by
  obtain ⟨hpos, hlt⟩ := realOf_mem_openUnit h
  have h0 : (0 : ℝ) < realOf w := by exact_mod_cast hpos
  have h1 : (realOf w : ℝ) < 1 := by exact_mod_cast hlt
  obtain ⟨n, rfl⟩ : ∃ n, c = n + 1 := ⟨c - 1, (Nat.sub_add_cancel hc.1.1).symm⟩
  have hn : ¬ (2 - realOf w) * (1 - realOf w) ^ n < 1 := by
    rcases Nat.eq_zero_or_pos n with rfl | hn0
    · rw [pow_zero, mul_one]
      linarith
    · exact fun hlt1 => absurd (hc.2 ⟨hn0, hlt1⟩) (by omega)
  have hge : ¬ -Real.log (2 - (realOf w : ℝ)) / Real.log (1 - (realOf w : ℝ)) < n := by
    rw [← bofp_product_lt_one_iff h0 h1]
    exact_mod_cast hn
  have hne : -Real.log (2 - (realOf w : ℝ)) / Real.log (1 - (realOf w : ℝ)) ≠ n :=
    fun heq => bofp_product_ne_one h n (by exact_mod_cast bofp_product_eq_one_of h0 h1 heq)
  have hup : -Real.log (2 - (realOf w : ℝ)) / Real.log (1 - (realOf w : ℝ)) < (n + 1 : ℕ) := by
    rw [← bofp_product_lt_one_iff h0 h1]
    exact_mod_cast hc.1.2
  rw [Int.ceil_eq_iff]
  push_cast at hup ⊢
  exact ⟨by simpa using lt_of_le_of_ne (not_lt.mp hge) hne.symm, hup.le⟩

/-- Settles O34: the least `n` of R214, taken over the reals. -/
theorem bofpIsTheRealCeiling : Obligations.BofpIsTheRealCeiling := by
  intro o s hr hp hu p c
  obtain ⟨d, hd, hval, hsat⟩ := bofp_least hu
  have hc : c = d := ceil_eq_of_isLeast hu hd
  refine ⟨by rw [hc]; exact_mod_cast hd.1.1, _, exec_bofp_eq hr hp, ?_, ?_⟩
  · have hlt : min d Config.maxWord < 2 ^ 64 := by simp only [Config.maxWord]; omega
    change ((bofpValue s.lp).toNat : ℤ) = _
    rw [hval, BitVec.toNat_ofNat, Nat.mod_eq_of_lt hlt, hc]
    simp [Config.maxWord]
  · change bofpSat s.lp = true ↔ _
    rw [hsat, decide_eq_true_iff, hc]
    simp only [Config.maxWord]
    omega

end Sys2Proof.Machine
end

section
/-! PROOFS, 44_param_mapping.md: how `bofp` depends on its parameter, and where it saturates (R211, R212, R214). -/

namespace Sys2Proof.Machine

theorem toNat_bofpValue (w : Word) : (bofpValue w).toNat = min (bofpBelow w + 1) Config.maxWord := by
  have hlt : min (bofpBelow w + 1) Config.maxWord < 2 ^ 64 := (Nat.min_le_right _ _).trans_lt (by decide)
  rw [bofpValue, BitVec.toNat_ofNat, Nat.mod_eq_of_lt hlt]

theorem one_le_bofpValue (w : Word) : 1 ≤ (bofpValue w).toNat := by
  rw [toNat_bofpValue, Config.maxWord]
  omega

section
variable {v w : Word} (hv : inOpenUnit v = true) (hw : inOpenUnit w = true)
include hw

/-- What the search finds, at each `n` of 64 bits: it lies below `n` exactly when the test holds at `n`. -/
theorem bofpBelow_lt_iff {n : Nat} (hn : n < 2 ^ 64) :
    bofpBelow w < n ↔ bofpExact (significand w) (scale w) n = true := by
  obtain ⟨-, hfail, hholds⟩ := bofpBelow_spec hw
  refine ⟨fun h => hholds n h hn, fun h => ?_⟩
  by_contra hle
  exact Bool.false_ne_true (hfail.symm.trans (bofpExact_mono (inOpenUnit_bounds hw).2.le (not_lt.mp hle) h))

/-- `bofp` saturates exactly when the test fails at 2^64 - 1 (R212). -/
theorem bofpSat_iff : bofpSat w = true ↔ bofpExact (significand w) (scale w) Config.maxWord = false := by
  rw [← Bool.not_eq_true, ← bofpBelow_lt_iff hw (by decide), bofpSat, decide_eq_true_iff]
  omega

/-- The result is 1 exactly when the test holds at 1. -/
theorem bofpValue_eq_one_iff : bofpValue w = 1 ↔ bofpExact (significand w) (scale w) 1 = true := by
  have hone : bofpValue w = 1 ↔ (bofpValue w).toNat = 1 := BitVec.toNat_eq
  rw [← bofpBelow_lt_iff hw (by decide), hone, toNat_bofpValue, Config.maxWord]
  omega

include hv

/-- The test goes on holding as the parameter grows. -/
theorem bofpExact_of_le (hle : v.toNat ≤ w.toNat) {n : Nat} (h : bofpExact (significand v) (scale v) n = true) :
    bofpExact (significand w) (scale w) n = true := by
  have hp : realOf v ≤ realOf w := realOf_le_of_toNat_le (inOpenUnit_iff.mp hv).1 (inOpenUnit_iff.mp hw).1 hle
  obtain ⟨hv0, hv1⟩ := realOf_mem_openUnit hv
  obtain ⟨hw0, hw1⟩ := realOf_mem_openUnit hw
  rw [bofpExact_iff_realOf hv] at h
  rw [bofpExact_iff_realOf hw]
  refine lt_of_le_of_lt (mul_le_mul (by linarith) (pow_le_pow_left₀ (by linarith) (by linarith) n) ?_ (by linarith)) h
  exact pow_nonneg (by linarith) n

/-- A larger parameter gives no larger modulus (R214). -/
theorem bofpValue_antitone (hle : v.toNat ≤ w.toNat) : (bofpValue w).toNat ≤ (bofpValue v).toNat := by
  have hbelow : bofpBelow w ≤ bofpBelow v := by
    by_contra hlt
    obtain ⟨hw64, hfail, -⟩ := bofpBelow_spec hw
    have hv' := (bofpBelow_lt_iff hv hw64).mp (not_le.mp hlt)
    exact Bool.false_ne_true (hfail.symm.trans (bofpExact_of_le hv hw hle hv'))
  rw [toNat_bofpValue, toNat_bofpValue]
  omega

end

/-! ## The first parameter with result 1 -/

/-- `(3 - sqrt 5) / 2` lies between these two encodings. -/
theorem bofpExact_one_bounds : bofpExact (significand 0x3FD8_7221_91A0_2D61) (scale 0x3FD8_7221_91A0_2D61) 1 = true ∧
    bofpExact (significand 0x3FD8_7221_91A0_2D60) (scale 0x3FD8_7221_91A0_2D60) 1 = false := by
  decide +kernel

theorem bofpValue_eq_one_iff_toNat {w : Word} (hw : inOpenUnit w = true) :
    bofpValue w = 1 ↔ 0x3FD8_7221_91A0_2D61 ≤ w.toNat := by
  rw [bofpValue_eq_one_iff hw]
  refine ⟨fun h => ?_, fun h => bofpExact_of_le (v := 0x3FD8_7221_91A0_2D61) (by decide) hw h bofpExact_one_bounds.1⟩
  by_contra hlt
  have hle : w.toNat ≤ (0x3FD8_7221_91A0_2D60 : Word).toNat := Nat.le_of_lt_succ (not_le.mp hlt)
  exact Bool.false_ne_true (bofpExact_one_bounds.2.symm.trans (bofpExact_of_le hw (by decide) hle h))

/-- Settles O36: the value is the search's result plus one, and the search is antitone in the parameter. -/
theorem bofpIsPositiveAndAntitone : Obligations.BofpIsPositiveAndAntitone :=
  ⟨fun w _ => one_le_bofpValue w, fun _ _ => bofpValue_antitone, fun _ => bofpValue_eq_one_iff_toNat⟩

/-! ## The last parameter that saturates (R212) -/

theorem bofpSat_last : bofpSat 0x3BE6_2E42_FEFA_39EF = true := by decide +kernel

theorem bofpSat_next : bofpSat 0x3BE6_2E42_FEFA_39F0 = false := by decide +kernel

theorem bofpValue_next : bofpValue 0x3BE6_2E42_FEFA_39F0 = 18446744073709549278#64 := by decide +kernel

/-- A parameter below one that saturates does so too. -/
theorem bofpSat_of_le {v w : Word} (hv : inOpenUnit v = true) (hw : inOpenUnit w = true) (hle : v.toNat ≤ w.toNat)
    (h : bofpSat w = true) : bofpSat v = true := by
  rw [bofpSat_iff hw] at h
  rw [bofpSat_iff hv, ← Bool.not_eq_true]
  exact fun hv' => Bool.false_ne_true (h.symm.trans (bofpExact_of_le hv hw hle hv'))

theorem bofpSat_iff_toNat {w : Word} (hw : inOpenUnit w = true) :
    bofpSat w = true ↔ 0x0000_0000_0000_0001 ≤ w.toNat ∧ w.toNat ≤ 0x3BE6_2E42_FEFA_39EF := by
  constructor
  · refine fun h => ⟨(inOpenUnit_iff_toNat.mp hw).1, ?_⟩
    by_contra hlt
    have hle : (0x3BE6_2E42_FEFA_39F0 : Word).toNat ≤ w.toNat := not_le.mp hlt
    exact Bool.false_ne_true (bofpSat_next.symm.trans (bofpSat_of_le (by decide) hw hle h))
  · exact fun ⟨_, h⟩ => bofpSat_of_le (w := 0x3BE6_2E42_FEFA_39EF) hw (by decide) h bofpSat_last

/-- Settles O35: the test at 2^64 - 1 changes between the two encodings. -/
theorem bofpSaturation : Obligations.BofpSaturation :=
  ⟨fun _ hw => ⟨bofpSat_iff_toNat hw, bofpValue_of_bofpSat⟩, bofpValue_next, bofpSat_next⟩

end Sys2Proof.Machine
end

section
/-! PROOFS, 44_param_mapping.md: `pofb` (R215 to R218). -/

namespace Sys2Proof.Machine

/-! ## The encodings from 1/2 to 1 -/

section
variable {d : Nat} (hd : d ≤ 2 ^ 52)
include hd

theorem toNat_halfToOne : (BitVec.ofNat 64 (0x3FE0_0000_0000_0000 + d)).toNat = 0x3FE0_0000_0000_0000 + d := by
  rw [BitVec.toNat_ofNat, Nat.mod_eq_of_lt (by omega)]

theorem sign_halfToOne : (BitVec.ofNat 64 (0x3FE0_0000_0000_0000 + d)).getLsbD 63 = false := by
  rw [sign_eq_false_iff, toNat_halfToOne hd]
  omega

theorem isFinite_halfToOne : isFinite (BitVec.ofNat 64 (0x3FE0_0000_0000_0000 + d)) = true := by
  rw [isFinite, decide_eq_true_iff, expField_eq, toNat_halfToOne hd]
  omega

/-- They are consecutive multiples of 2^-53. -/
theorem realOf_halfToOne : realOf (BitVec.ofNat 64 (0x3FE0_0000_0000_0000 + d)) = (2 ^ 52 + d : ℕ) / 2 ^ 53 := by
  have he := expField_eq (BitVec.ofNat 64 (0x3FE0_0000_0000_0000 + d))
  have hf := fracField_eq (BitVec.ofNat 64 (0x3FE0_0000_0000_0000 + d))
  rw [toNat_halfToOne hd] at he hf
  rcases hd.lt_or_eq with hlt | heq
  · have he' : expField (BitVec.ofNat 64 (0x3FE0_0000_0000_0000 + d)) = 0x3FE := by omega
    have hf' : fracField (BitVec.ofNat 64 (0x3FE0_0000_0000_0000 + d)) = d := by omega
    rw [realOf_eq (sign_halfToOne hd) (by omega), significand, scale, he', hf']
    norm_num
  · have he' : expField (BitVec.ofNat 64 (0x3FE0_0000_0000_0000 + d)) = 0x3FF := by omega
    have hf' : fracField (BitVec.ofNat 64 (0x3FE0_0000_0000_0000 + d)) = 0 := by omega
    rw [realOf_eq (sign_halfToOne hd) (by omega), significand, scale, he', hf', heq]
    norm_num

theorem cast_realOf_halfToOne :
    (realOf (BitVec.ofNat 64 (0x3FE0_0000_0000_0000 + d)) : ℝ) = (2 ^ 52 + d) / 2 ^ 53 := by
  rw [realOf_halfToOne hd, Rat.cast_div, Rat.cast_natCast, Nat.cast_add]
  norm_num

end

/-! ## The range of the result (R217) -/

section
variable {b : Nat} (hb0 : 1 ≤ b) (hb : b < 2 ^ 64)
include hb0 hb

theorem realOf_pofbValue : realOf (pofbValue b) = (2 ^ 52 + pofbSteps b : ℕ) / 2 ^ 53 :=
  realOf_halfToOne (pofbSteps_spec hb0 hb).1

theorem pofbValue_range : isFinite (pofbValue b) = true ∧ 1 / 2 ≤ realOf (pofbValue b) ∧ realOf (pofbValue b) ≤ 1 := by
  have hd := (pofbSteps_spec hb0 hb).1
  have hd' : (pofbSteps b : ℚ) ≤ 2 ^ 52 := by exact_mod_cast hd
  have hd0 : (0 : ℚ) ≤ pofbSteps b := Nat.cast_nonneg _
  refine ⟨isFinite_halfToOne hd, ?_, ?_⟩
  · rw [realOf_pofbValue hb0 hb, div_le_div_iff₀ (by norm_num) (by positivity)]
    push_cast
    linarith
  · rw [realOf_pofbValue hb0 hb, div_le_one (by positivity)]
    push_cast
    linarith

end

/-- `h / 2^54`, below 1, is above `2^(-1/b)` for the larger of two moduli only if it is for the smaller. -/
theorem pofbExact_of_le {h a b : Nat} (hh : h ≤ 2 ^ 54) (hab : a ≤ b) (hx : pofbExact h b = true) : pofbExact h a = true := by
  rw [pofbExact_iff] at hx ⊢
  have h1 : (h : ℚ) / 2 ^ 54 ≤ 1 := by rw [div_le_one (by positivity)]; exact_mod_cast hh
  have hpow : ((h : ℚ) / 2 ^ 54) ^ b ≤ ((h : ℚ) / 2 ^ 54) ^ a := pow_le_pow_of_le_one (by positivity) h1 hab
  linarith

theorem pofbSteps_mono {a b : Nat} (ha : 1 ≤ a) (hab : a ≤ b) (hb : b < 2 ^ 64) : pofbSteps a ≤ pofbSteps b := by
  obtain ⟨hda, hlow, -⟩ := pofbSteps_spec ha (hab.trans_lt hb)
  obtain ⟨-, -, hhigh⟩ := pofbSteps_spec (ha.trans hab) hb
  by_contra hlt
  have hx := pofbExact_mono (c := 2 * (2 ^ 52 + pofbSteps a) - 1) (by omega) hhigh
  exact Bool.false_ne_true (hlow.symm.trans (pofbExact_of_le (by omega) hab hx))

/-- Settles O38: the result is a number of steps above 1/2 that does not decrease. -/
theorem pofbRangeAndMonotone : Obligations.PofbRangeAndMonotone := by
  refine ⟨fun b hb0 hb => pofbValue_range hb0 hb, fun a b ha hab hb => ?_⟩
  rw [realOf_pofbValue ha (hab.trans_lt hb), realOf_pofbValue (ha.trans hab) hb]
  have := pofbSteps_mono ha hab hb
  gcongr

/-- Settles O39: a result below 1 is at least 1/2, where `bofp` is 1. -/
theorem bofpDoesNotInvertPofb : Obligations.BofpDoesNotInvertPofb := by
  intro b hb0 hb
  obtain ⟨hfin, hhalf, -⟩ := pofbValue_range hb0 hb
  refine ⟨fun hlt => ?_, fun hone => ?_⟩
  · have hu : inOpenUnit (pofbValue b) = true := inOpenUnit_iff_realOf.mpr ⟨hfin, by linarith, hlt⟩
    refine ⟨hu, (bofpValue_eq_one_iff_toNat hu).mpr ?_⟩
    rw [pofbValue, toNat_halfToOne (pofbSteps_spec hb0 hb).1]
    omega
  · rw [← Bool.not_eq_true, inOpenUnit_iff_realOf]
    rintro ⟨-, -, hlt⟩
    exact hlt.ne hone

/-! ## The nearest value (R215, R216) -/

/-- `2^(-1/b)` (R215). -/
noncomputable def pofbTarget (b : Nat) : ℝ := (2 : ℝ) ^ (-(1 : ℝ) / (b : ℝ))

section
variable {b : Nat} (hb0 : 1 ≤ b)
include hb0

theorem pofbTarget_pow : pofbTarget b ^ b = 1 / 2 := by
  have hb : (b : ℝ) ≠ 0 := by positivity
  rw [pofbTarget, ← Real.rpow_natCast, ← Real.rpow_mul (by norm_num), div_mul_cancel₀ _ hb, Real.rpow_neg_one]
  norm_num

theorem pofbTarget_lt_one : pofbTarget b < 1 :=
  Real.rpow_lt_one_of_one_lt_of_neg one_lt_two (div_neg_of_neg_of_pos (by norm_num) (by positivity))

theorem half_le_pofbTarget : 1 / 2 ≤ pofbTarget b := by
  have hb : (1 : ℝ) ≤ b := by exact_mod_cast hb0
  rw [pofbTarget, one_div, ← Real.rpow_neg_one]
  refine Real.rpow_le_rpow_of_exponent_le one_le_two ?_
  rw [le_div_iff₀ (by positivity)]
  linarith

/-- The test of the search compares with `2^(-1/b)`. -/
theorem pofbExact_iff_lt (h : Nat) : pofbExact h b = true ↔ pofbTarget b < (h : ℝ) / 2 ^ 54 := by
  have hpos : 0 ≤ pofbTarget b := by linarith [half_le_pofbTarget hb0]
  rw [pofbExact_iff, ← pow_lt_pow_iff_left₀ hpos (by positivity) (by omega : b ≠ 0), pofbTarget_pow hb0]
  have hcast : (1 : ℚ) < 2 * ((h : ℚ) / 2 ^ 54) ^ b ↔ (1 : ℝ) < 2 * ((h : ℝ) / 2 ^ 54) ^ b := by
    rw [← Rat.cast_lt (K := ℝ)]
    push_cast
    rfl
  rw [hcast]
  constructor <;> intro hlt <;> linarith

/-- No tie: an odd numerator's power is odd (R216). -/
theorem pofbTarget_ne_odd {h : Nat} (hodd : h % 2 = 1) : pofbTarget b ≠ (h : ℝ) / 2 ^ 54 := by
  intro heq
  have hpow := pofbTarget_pow hb0
  rw [heq, div_pow, div_eq_div_iff (by positivity) (by norm_num), one_mul, ← pow_mul] at hpow
  have hnat : h ^ b * 2 = 2 ^ (54 * b) := by exact_mod_cast hpow
  have heven : 2 ∣ h ^ b := by
    obtain ⟨k, hk⟩ : ∃ k, 54 * b = k + 2 := ⟨54 * b - 2, by omega⟩
    rw [hk, pow_succ] at hnat
    rw [Nat.eq_of_mul_eq_mul_right Nat.two_pos hnat, pow_succ]
    exact dvd_mul_left 2 _
  have := Nat.prime_two.dvd_of_dvd_pow heven
  omega

/-- The target lies strictly between the midpoints on both sides of the result. -/
theorem pofbTarget_between (hb : b < 2 ^ 64) :
    (2 * (2 ^ 52 + pofbSteps b) - 1) / 2 ^ 54 < pofbTarget b ∧ pofbTarget b < (2 * (2 ^ 52 + pofbSteps b) + 1) / 2 ^ 54 := by
  obtain ⟨-, hlow, hhigh⟩ := pofbSteps_spec hb0 hb
  rw [← Bool.not_eq_true, pofbExact_iff_lt hb0, not_lt] at hlow
  rw [pofbExact_iff_lt hb0] at hhigh
  have hlow' := lt_of_le_of_ne hlow (pofbTarget_ne_odd hb0 (by omega)).symm
  rw [Nat.cast_sub (by omega)] at hlow'
  push_cast at hlow' hhigh
  exact ⟨by linarith, by linarith⟩

/-- The result is less than half a step from the target. -/
theorem pofbValue_error_lt (hb : b < 2 ^ 64) : |(realOf (pofbValue b) : ℝ) - pofbTarget b| < 1 / 2 ^ 54 := by
  obtain ⟨hlow, hhigh⟩ := pofbTarget_between hb0 hb
  rw [pofbValue, cast_realOf_halfToOne (pofbSteps_spec hb0 hb).1, abs_lt]
  constructor <;> linarith

/-- Every larger encoding is further from the target: past the next midpoint, or past 1, which is past the target. -/
theorem nearer_than_larger (hb : b < 2 ^ 64) {v : Word} (hs : v.getLsbD 63 = false) (hv : (pofbValue b).toNat < v.toNat) :
    |(realOf (pofbValue b) : ℝ) - pofbTarget b| < |(realOf v : ℝ) - pofbTarget b| := by
  obtain ⟨hd, -, -⟩ := pofbSteps_spec hb0 hb
  refine lt_of_lt_of_le ?_ (le_abs_self _)
  rcases hd.lt_or_eq with hlt | heq
  · have hnext : realOf (BitVec.ofNat 64 (0x3FE0_0000_0000_0000 + (pofbSteps b + 1))) ≤ realOf v := by
      refine realOf_le_of_toNat_le (sign_halfToOne hlt) hs ?_
      rw [toNat_halfToOne hlt]
      rw [pofbValue, toNat_halfToOne hd] at hv
      omega
    have hval := cast_realOf_halfToOne hlt
    push_cast at hval
    have hstep : (1 : ℝ) / 2 ^ 54 < realOf v - pofbTarget b := by
      linarith [(Rat.cast_le (K := ℝ)).mpr hnext, (pofbTarget_between hb0 hb).2]
    exact (pofbValue_error_lt hb0 hb).trans hstep
  · have hgt : (realOf (pofbValue b) : ℝ) < realOf v := Rat.cast_lt.mpr (realOf_lt_of_toNat_lt (sign_halfToOne hd) hs hv)
    have hone : (realOf (pofbValue b) : ℝ) = 1 := by
      rw [pofbValue, cast_realOf_halfToOne hd, heq]
      norm_num
    rw [abs_of_nonneg (by linarith [pofbTarget_lt_one hb0])]
    linarith

/-- Every smaller encoding is further from the target: past the midpoint before, or below 1/2, which the target is not. -/
theorem nearer_than_smaller (hb : b < 2 ^ 64) {v : Word} (hs : v.getLsbD 63 = false) (hv : v.toNat < (pofbValue b).toNat) :
    |(realOf (pofbValue b) : ℝ) - pofbTarget b| < |(realOf v : ℝ) - pofbTarget b| := by
  obtain ⟨hd, -, -⟩ := pofbSteps_spec hb0 hb
  refine lt_of_lt_of_le ?_ (neg_le_abs _)
  rcases Nat.eq_zero_or_pos (pofbSteps b) with heq | hpos
  · have hlt : (realOf v : ℝ) < realOf (pofbValue b) := Rat.cast_lt.mpr (realOf_lt_of_toNat_lt hs (sign_halfToOne hd) hv)
    have hhalf : (realOf (pofbValue b) : ℝ) = 1 / 2 := by
      rw [pofbValue, cast_realOf_halfToOne hd, heq]
      norm_num
    rw [abs_of_nonpos (by linarith [half_le_pofbTarget hb0])]
    linarith
  · have hd' : pofbSteps b - 1 ≤ 2 ^ 52 := by omega
    have hprev : realOf v ≤ realOf (BitVec.ofNat 64 (0x3FE0_0000_0000_0000 + (pofbSteps b - 1))) := by
      refine realOf_le_of_toNat_le hs (sign_halfToOne hd') ?_
      rw [toNat_halfToOne hd']
      rw [pofbValue, toNat_halfToOne hd] at hv
      omega
    have hval := cast_realOf_halfToOne hd'
    rw [Nat.cast_sub hpos, Nat.cast_one] at hval
    have hstep : (1 : ℝ) / 2 ^ 54 < -(realOf v - pofbTarget b) := by
      linarith [(Rat.cast_le (K := ℝ)).mpr hprev, (pofbTarget_between hb0 hb).1]
    exact (pofbValue_error_lt hb0 hb).trans hstep

/-- No other encoding is as near to the target (R215). -/
theorem pofbValue_nearest (hb : b < 2 ^ 64) {v : Word} (hne : v ≠ pofbValue b) :
    |(realOf (pofbValue b) : ℝ) - pofbTarget b| < |(realOf v : ℝ) - pofbTarget b| := by
  cases hs : v.getLsbD 63 with
  | true =>
    have hneg : (realOf v : ℝ) ≤ 0 := Rat.cast_nonpos.mpr (realOf_nonpos hs)
    have hfar : (1 : ℝ) / 2 ^ 54 < -(realOf v - pofbTarget b) := by linarith [half_le_pofbTarget hb0]
    exact ((pofbValue_error_lt hb0 hb).trans hfar).trans_le (neg_le_abs _)
  | false =>
    rcases Nat.lt_trichotomy v.toNat (pofbValue b).toNat with hlt | heq | hgt
    · exact nearer_than_smaller hb0 hb hs hlt
    · exact absurd (BitVec.eq_of_toNat_eq heq) hne
    · exact nearer_than_larger hb0 hb hs hgt

end

/-- A `pofb` in CALC ends with the mapping's value (R215). -/
theorem exec_pofb_eq {o : BitOrder} {s : State} (hr : s.running (.pofb o)) (hp : s.phase = .calculating) :
    exec (.pofb o) s = .next { s with
      result := pofbValue s.bVal
      nbits := 0, q := 0, r := 0, ioerr := 0, phase := .idle
      status := { s.status with busy := false, done := true, n64 := false, sat := false, err := .ok } } := by
  rw [exec_pofb_calculating hp hr]
  rfl

/-- Settles O37: the result of the search, and its neighbours on both sides. -/
theorem pofbCompletesWithNearestValue : Obligations.PofbCompletesWithNearestValue := by
  intro o s hr hp hlb y
  have hb0 : 1 ≤ s.lb.toNat := toNat_pos hlb
  have hb := s.lb.isLt
  exact ⟨pofbValue s.lb.toNat, exec_pofb_eq hr hp, isFinite_halfToOne (pofbSteps_spec hb0 hb).1,
    sign_halfToOne (pofbSteps_spec hb0 hb).1, fun _ _ hne => pofbValue_nearest hb0 hb hne⟩

end Sys2Proof.Machine
end
